-- ==== Sys2Proof/Word.lean ====
section
/-! DEFINITION. The two word types of CORE (00_scope R11, 10_state R21). -/

namespace Sys2Proof

/-- A byte: 8 bits, bit 7 the most significant (R11). -/
abbrev Byte := BitVec 8

/-- A register word of the host port: 16 bits (20_memory R60). -/
abbrev Word := BitVec 16

end Sys2Proof
end

