-- ==== Sys2Proof/Config.lean ====
section
/-! DEFINITION. What an implementation fixes (00_scope R10): the capacities, the cipher collaborator, and the values the
spec leaves free (drawn padding bytes, bytes never written since reset). `Config.core` is the machine of `exec` and `step`. -/

namespace Sys2Proof

/-- The parameters of R10. `OD_MAX`, `BYTES_MAX` and `AX_MAX` are fixed by the others and are definitions below; `BASE` is
used by no rule (20_memory R69). A total, length-preserving cipher function (R106) is exactly a choice, for every key and
input, of the output byte at each index below the input's length: that choice is `encByte` and `decByte`. -/
structure Config where
  /-- `CS_MAX`, capacity of buffer CS. -/
  csMax : Nat
  /-- `PW_MAX`, capacity of buffer PW. -/
  pwMax : Nat
  /-- `KEY_BYTES`, capacity of buffer KEY. -/
  keyBytes : Nat
  /-- `FRAME_MAX`, capacity of buffer FR. -/
  frameMax : Nat
  /-- `NIB_MAX`, capacity of buffer BITS in characters. -/
  nibMax : Nat
  /-- `HAS_TLM`, whether the telemetry companion view exists. -/
  hasTlm : Bool
  /-- Byte `i` of `Enc(key, sec)`. -/
  encByte : (key sec : List Byte) → (i : Nat) → Byte
  /-- Byte `i` of `Dec(key, sec)`. -/
  decByte : (key sec : List Byte) → (i : Nat) → Byte
  /-- The padding byte the random port delivers as its `i`-th since the model's beginning (R107). -/
  drawByte : (i : Nat) → Byte
  /-- What the host reads at index `i` of buffer number `S` when nothing has written it since the `r`-th reset (U1). -/
  bufByte : (r S i : Nat) → Byte

/-- `OD_MAX` (R10). -/
def Config.odMax : Nat := 255

/-- `BYTES_MAX` = `NIB_MAX` / 2 (R10). -/
def Config.bytesMax (C : Config) : Nat := C.nibMax / 2

/-- `AX_MAX` = max(`BYTES_MAX`, 11) (R10). -/
def Config.axMax (C : Config) : Nat := max C.bytesMax 11

/-- `Enc(key, sec)`: total and length-preserving, otherwise any function (R106). -/
def Config.enc (C : Config) (key sec : List Byte) : List Byte :=
  (List.range sec.length).map (C.encByte key sec)

/-- `Dec(key, sec)`: total and length-preserving, otherwise any function (R106). -/
def Config.dec (C : Config) (key sec : List Byte) : List Byte :=
  (List.range sec.length).map (C.decByte key sec)

/-- The named property a claim about an encrypted round trip must assume (R106): `Dec(k, Enc(k, s)) = s`. -/
def Config.Matched (C : Config) : Prop := ∀ key sec, C.dec key (C.enc key sec) = sec

/-- FREE VALUE (log 2): the external cipher's encryption, nothing assumed (R106, U8). -/
opaque Config.freeEncByte : List Byte → List Byte → Nat → Byte

/-- FREE VALUE (log 2): the external cipher's decryption, nothing assumed (R106, U8). -/
opaque Config.freeDecByte : List Byte → List Byte → Nat → Byte

/-- FREE VALUE (log 3): the bytes the random port delivers, under no law (R107, U7). -/
opaque Config.freePadByte : Nat → Byte

/-- FREE VALUE (log 5): what a never-written buffer byte reads as at the host port (R36, U1). -/
opaque Config.freeBufByte : Nat → Nat → Nat → Byte

/-- The machine of `exec` and `step`: the default column of R10 (log 1), cipher, random port and unwritten bytes free. -/
def Config.core : Config where
  csMax := 32
  pwMax := 32
  keyBytes := 16
  frameMax := 512
  nibMax := 1024
  hasTlm := false
  encByte := Config.freeEncByte
  decByte := Config.freeDecByte
  drawByte := Config.freePadByte
  bufByte := Config.freeBufByte

end Sys2Proof
end

