-- ==== Sys2Proof/Syntax.lean ====
section
/-! DEFINITION. The ten commands (30_encoding R82), and the names the host port uses: registers (10_state R21), buffers
and transactions (20_memory R60, R61). -/

namespace Sys2Proof

/-- The ten commands of R82, one constructor per row of the opcode table. No command has an operand field (R80, R81). -/
inductive Instr where
  | flen | fid | odlen | odget | fenc
  | nrzi | unstf | brev | crcchk | ax25
  deriving DecidableEq, Repr

/-- The sixteen registers of R21, in the order of their numbers. -/
inductive RegName where
  | cmd | status | result | present | cslen | pwlen | frlen | fidr
  | optlen | niblen | nrzlen | uslen | axlen | crcr | fcsr | reserved
  deriving DecidableEq, Repr

/-- The nine buffers of R61, in the order of their ids. -/
inductive BufId where
  | cs | pw | key | fr | od | bits | nrz | us | ax
  deriving DecidableEq, Repr

/-- The five things the host can do to CORE (R60). A register number is one of 0..15 and a value has 16 bits; a buffer id
and an index may be any number, R62 says what one outside the tables does. -/
inductive HostTxn where
  | regWrite (n : Fin 16) (v : Word)
  | regRead (n : Fin 16)
  | bufWrite (S i : Nat) (b : Byte)
  | bufRead (S i : Nat)
  | reset
  deriving DecidableEq, Repr

end Sys2Proof
end

