-- ==== Sys2Proof/WellFormed.lean ====
section
/-! DEFINITION. The checks of the spec on what is written down: the constraints of 00_scope R10 on a configuration, and
the two conditions of 30_encoding R80 and R84 on a command word. A command itself has no fields (R81), so every term of
`Instr` is well-formed. -/

namespace Sys2Proof

/-- The constraint column of R10. `CS_MAX` >= 1, `PW_MAX` <= 255, `KEY_BYTES` >= 1, `FRAME_MAX` >= `CS_MAX` + 273,
`NIB_MAX` even and >= 2; `OD_MAX`, `BYTES_MAX` and `AX_MAX` satisfy theirs by definition. -/
def Config.wf (C : Config) : Bool :=
  decide (1 ≤ C.csMax) && decide (C.pwMax ≤ 255) && decide (1 ≤ C.keyBytes) &&
  decide (C.csMax + 273 ≤ C.frameMax) && decide (C.nibMax % 2 = 0) && decide (2 ≤ C.nibMax)

/-- The field ZERO, bits 7:4 of a command word, is 0b0000 (R80). -/
def zeroFieldOk (w : Byte) : Bool := w.extractLsb' 4 4 == 0#4

/-- The field OP, bits 3:0 of a command word, is one R82 assigns. -/
def opAssigned (w : Byte) : Bool :=
  [0x1#4, 0x2#4, 0x3#4, 0x4#4, 0x5#4, 0x8#4, 0x9#4, 0xA#4, 0xB#4, 0xC#4].contains (w.extractLsb' 0 4)

/-- A command word that starts a command (R84: every other word is illegal). -/
def wordWf (w : Byte) : Bool := zeroFieldOk w && opAssigned w

/-- A command has no operand field, so there is nothing to check (R81). -/
def Instr.wf (_ : Instr) : Bool := true

end Sys2Proof
end

