-- ==== Sys2Proof/Decode.lean ====
section
/-! DEFINITION. Decoding and encoding: the command word (30_encoding R80, R82, R84, R85), the register numbers (10_state
R21) and the buffer ids (20_memory R61). Decoding is total on every byte and rejects by name. -/

namespace Sys2Proof

/-- Why a word is illegal (R84, R85). -/
inductive DecodeReject where
  /-- `word & 0xF0 != 0`. -/
  | zeroFieldNotZero (w : Byte)
  /-- The field ZERO is zero and R82 has no row for OP: 0x00, 0x06, 0x07, 0x0D, 0x0E, 0x0F. -/
  | opNotAssigned (w : Byte)
  deriving DecidableEq, Repr

/-- The row of R82 for an OP field. -/
def opRow (op : BitVec 4) : Option Instr :=
  match op.toNat with
  | 0x1 => some .flen
  | 0x2 => some .fid
  | 0x3 => some .odlen
  | 0x4 => some .odget
  | 0x5 => some .fenc
  | 0x8 => some .nrzi
  | 0x9 => some .unstf
  | 0xA => some .brev
  | 0xB => some .crcchk
  | 0xC => some .ax25
  | _ => none

/-- The total decoder of R85. -/
def decode (w : Byte) : Except DecodeReject Instr :=
  if w &&& 0xF0#8 ≠ 0#8 then .error (.zeroFieldNotZero w)
  else
    match opRow (w.extractLsb' 0 4) with
    | some i => .ok i
    | none => .error (.opNotAssigned w)

/-- The word of a command, the "word" column of R82. -/
def encode : Instr → Byte
  | .flen => 0x01#8
  | .fid => 0x02#8
  | .odlen => 0x03#8
  | .odget => 0x04#8
  | .fenc => 0x05#8
  | .nrzi => 0x08#8
  | .unstf => 0x09#8
  | .brev => 0x0A#8
  | .crcchk => 0x0B#8
  | .ax25 => 0x0C#8

/-- The command of a word numbered as the opcode table numbers it: one byte, bit 0 the least significant. -/
def decodeTableWord (nbits w : Nat) : Option Instr :=
  (decode (BitVec.ofNat 8 (w % 2 ^ nbits))).toOption

/-- Register number to register (the "No." column of R21). -/
def regOfNum (n : Fin 16) : RegName :=
  match n.val with
  | 0 => .cmd
  | 1 => .status
  | 2 => .result
  | 3 => .present
  | 4 => .cslen
  | 5 => .pwlen
  | 6 => .frlen
  | 7 => .fidr
  | 8 => .optlen
  | 9 => .niblen
  | 10 => .nrzlen
  | 11 => .uslen
  | 12 => .axlen
  | 13 => .crcr
  | 14 => .fcsr
  | _ => .reserved

/-- Register to its number (R21). -/
def numOfReg : RegName → Fin 16
  | .cmd => 0
  | .status => 1
  | .result => 2
  | .present => 3
  | .cslen => 4
  | .pwlen => 5
  | .frlen => 6
  | .fidr => 7
  | .optlen => 8
  | .niblen => 9
  | .nrzlen => 10
  | .uslen => 11
  | .axlen => 12
  | .crcr => 13
  | .fcsr => 14
  | .reserved => 15

/-- Buffer id to buffer (the "S" column of R61); an id above 8 is no buffer (R62). -/
def bufOfNum : Nat → Option BufId
  | 0 => some .cs
  | 1 => some .pw
  | 2 => some .key
  | 3 => some .fr
  | 4 => some .od
  | 5 => some .bits
  | 6 => some .nrz
  | 7 => some .us
  | 8 => some .ax
  | _ => none

/-- Buffer to its id (R61). -/
def numOfBuf : BufId → Nat
  | .cs => 0
  | .pw => 1
  | .key => 2
  | .fr => 3
  | .od => 4
  | .bits => 5
  | .nrz => 6
  | .us => 7
  | .ax => 8

end Sys2Proof
end

