-- ==== Sys2Proof/Machine/State.lean ====
section
/-! DEFINITION. The state of CORE as plain data: the registers of 10_state R21 that hold bits, the nine buffers of 20_memory
R61, and four fields of the model's own (the host's pending transactions, the value its last read returned, and two
counters that index free values). -/

namespace Sys2Proof.Machine

/-- The bytes of one buffer that something has written since reset, as (index, byte) pairs with strictly rising indices.
An index that is not listed holds no defined value (10_state R38). -/
abbrev Mem := List Host.Cell

/-- R20, R21, R61. CMD and register No. 15 store nothing (R21, R23), so they have no field. -/
structure State where
  /-- STATUS, No. 1 (R24). -/
  status : Word
  /-- RESULT, No. 2, two's complement (R25). -/
  result : Word
  /-- PRESENT, No. 3: CS_P bit 0, PW_P bit 1, KEY_P bit 2, OD_P bit 3 (R27). -/
  present : BitVec 4
  /-- CSLEN, No. 4 (R28). -/
  cslen : Word
  /-- PWLEN, No. 5 (R28). -/
  pwlen : Word
  /-- FRLEN, No. 6 (R28). -/
  frlen : Word
  /-- FIDR, No. 7 (R29). -/
  fidr : Byte
  /-- OPTLEN, No. 8 (R29). -/
  optlen : Byte
  /-- NIBLEN, No. 9 (R30). -/
  niblen : Word
  /-- NRZLEN, No. 10 (R30). -/
  nrzlen : Word
  /-- USLEN, No. 11 (R30). -/
  uslen : Word
  /-- AXLEN, No. 12 (R30). -/
  axlen : Word
  /-- CRCR, No. 13 (R31). -/
  crcr : Word
  /-- FCSR, No. 14 (R31). -/
  fcsr : Word
  /-- Buffer CS, S = 0: the callsign (R61). -/
  cs : Mem
  /-- Buffer PW, S = 1: the password. -/
  pw : Mem
  /-- Buffer KEY, S = 2: the key. -/
  key : Mem
  /-- Buffer FR, S = 3: the frame on the wire. -/
  fr : Mem
  /-- Buffer OD, S = 4: optional data. -/
  od : Mem
  /-- Buffer BITS, S = 5: the captured bitstream as hexadecimal text. -/
  bits : Mem
  /-- Buffer NRZ, S = 6: the NRZI intermediate buffer. -/
  nrz : Mem
  /-- Buffer US, S = 7: the unstuffed buffer. -/
  us : Mem
  /-- Buffer AX, S = 8: the AX.25 frame or the error text. -/
  ax : Mem
  /-- MODEL'S OWN (log 6): the transactions the host has issued and CORE has not yet taken, oldest first (20_memory R67). -/
  host : List HostTxn
  /-- MODEL'S OWN (log 8): the 16-bit value the host's last RegRead or BufRead returned. -/
  hostData : Word
  /-- MODEL'S OWN (log 3): how many padding bytes the random port has delivered; index of a free value. -/
  draws : Nat
  /-- MODEL'S OWN (log 5): how many Reset transactions were applied; index of a free value. -/
  resets : Nat
  deriving DecidableEq, Repr

/-- Why the machine stops. -/
inductive Fault where
  /-- A command read index `i` of buffer `b`, below the length register that describes it, and nothing has written that
  byte since reset. Raised by every meaning that reads a buffer (FID, ODLEN, ODGET, FENC, NRZI, UNSTF, BREV, CRCCHK, AX25).
  10_state R38: "A model should treat a command's read of a never-written byte as a fault of the launch". SAFE. -/
  | unwrittenRead (b : BufId) (i : Nat)
  deriving DecidableEq, Repr

/-- Why an instruction has no meaning. -/
inductive Refusal where
  /-- Raised by an arm of `exec` whose command has no meaning yet. No arm does: every command has its meaning. SAFE. -/
  | notModelled (mnemonic : String)
  deriving DecidableEq, Repr

/-- The outcome of a command or a step. -/
abbrev Out := Host.Outcome State Fault Refusal

/-- The machine right after reset (10_state R36, 70_reset R240): every register 0, every buffer byte unspecified, no
command running. The four model's own fields start empty or at 0 (DESIGN CHOICE, logs 3, 5, 6, 8). -/
def State.reset : State where
  status := 0
  result := 0
  present := 0
  cslen := 0
  pwlen := 0
  frlen := 0
  fidr := 0
  optlen := 0
  niblen := 0
  nrzlen := 0
  uslen := 0
  axlen := 0
  crcr := 0
  fcsr := 0
  cs := []
  pw := []
  key := []
  fr := []
  od := []
  bits := []
  nrz := []
  us := []
  ax := []
  host := []
  hostData := 0
  draws := 0
  resets := 0

end Sys2Proof.Machine
end

