-- ==== Sys2Proof/Machine/Flags.lean ====
section
/-! DEFINITION. The codes CORE reports and the one composition of STATUS: link status, `bitstuff` and shell fault (10_state
R24), FCP status codes (60_exceptions R220), error texts (R221). -/

namespace Sys2Proof.Machine

/-- Link status of a command (R24, 60_exceptions R221). -/
inductive LinkStatus where
  | ok | frameError | crcError
  deriving DecidableEq, Repr

/-- The number of a link status in STATUS.LST and, zero-extended, in RESULT (R24, R25). -/
def lstCode : LinkStatus → BitVec 2
  | .ok => 0
  | .frameError => 1
  | .crcError => 2

/-- The three shell faults (60_exceptions R225). -/
inductive ShellFault where
  | illegalCmd | badLength | badChar
  deriving DecidableEq, Repr

/-- The number of a shell fault in STATUS.SF (R24, R225). -/
def sfCode : ShellFault → BitVec 3
  | .illegalCmd => 1
  | .badLength => 2
  | .badChar => 3

/-- The four negative FCP status codes (60_exceptions R220). -/
inductive FcpError where
  | callsignInvalid | frameInvalid | incorrectPassword | lengthMismatch
  deriving DecidableEq, Repr

/-- A status code as RESULT holds it: sign-extended to 16 bits (R220, R223). -/
def errCode : FcpError → Word
  | .callsignInvalid => BitVec.ofInt 16 (-1)
  | .frameInvalid => BitVec.ofInt 16 (-2)
  | .incorrectPassword => BitVec.ofInt 16 (-3)
  | .lengthMismatch => BitVec.ofInt 16 (-4)

/-- STATUS as every command leaves it (R24): bits 15:8 zero, SF in 7:5, BITSTUFF in 4, LST in 3:2, BUSY (bit 1) zero because
a command is one atomic step (20_memory R66), DONE (bit 0) one. -/
def statusWord (lst : BitVec 2) (bitstuff : Bool) (sf : BitVec 3) : Word :=
  0#8 ++ sf ++ BitVec.ofBool bitstuff ++ lst ++ 0#1 ++ 1#1

/-- STATUS of a command that completes without a shell fault. -/
def statusOf (lst : LinkStatus) (bitstuff : Bool) : Word := statusWord (lstCode lst) bitstuff 0

/-- STATUS of a command that ends in a shell fault: LST and BITSTUFF cleared (R225). -/
def statusOfFault (f : ShellFault) : Word := statusWord 0 false (sfCode f)

/-- STATUS.DONE, bit 0 (R24). -/
def State.done (s : State) : Bool := s.status.getLsbD 0

/-- STATUS.BUSY, bit 1 (R24). -/
def State.busy (s : State) : Bool := s.status.getLsbD 1

/-- STATUS.LST, bits 3:2 (R24). -/
def State.lst (s : State) : BitVec 2 := s.status.extractLsb' 2 2

/-- STATUS.BITSTUFF, bit 4 (R24). -/
def State.bitstuff (s : State) : Bool := s.status.getLsbD 4

/-- STATUS.SF, bits 7:5 (R24). -/
def State.sf (s : State) : BitVec 3 := s.status.extractLsb' 5 3

/-- "Frame error", 11 ASCII bytes, no terminator (R221, 47_link_ax25 R213). -/
def frameErrorText : List Byte :=
  [0x46#8, 0x72#8, 0x61#8, 0x6D#8, 0x65#8, 0x20#8, 0x65#8, 0x72#8, 0x72#8, 0x6F#8, 0x72#8]

/-- "CRC error", 9 ASCII bytes, no terminator (R221, 46_link_bitrev_crc R204). -/
def crcErrorText : List Byte :=
  [0x43#8, 0x52#8, 0x43#8, 0x20#8, 0x65#8, 0x72#8, 0x72#8, 0x6F#8, 0x72#8]

end Sys2Proof.Machine
end

