-- ==== Sys2Proof/Machine/Ops.lean ====
section
/-! DEFINITION. The named operations over buffers and registers: one byte, runs of bytes (00_scope R12, R13), the host's view
of registers (10_state R21, R26) and of buffers (20_memory R62), how a command completes, and the one shared way an error
outcome is taken (60_exceptions R223 and R225; nothing returns from it, R228). -/

namespace Sys2Proof.Machine

/-- The byte at an index, if something has written it since reset. -/
def Mem.read : Mem → Nat → Option Byte
  | [], _ => none
  | (k, v) :: m, a => if a = k then some v else Mem.read m a

/-- Writing one byte; keeps the indices strictly rising. -/
def Mem.write : Mem → Nat → Byte → Mem
  | [], a, b => [(a, b)]
  | (k, v) :: m, a, b =>
    if a < k then (a, b) :: (k, v) :: m
    else if a = k then (a, b) :: m
    else (k, v) :: Mem.write m a b

/-- `S[a + j] <- bs[j]` for every `j`, in index order. -/
def Mem.writeRun : Mem → Nat → List Byte → Mem
  | m, _, [] => m
  | m, a, b :: bs => Mem.writeRun (Mem.write m a b) (a + 1) bs

/-- The bytes `S[a .. a+n)`, or the first index among them that nothing has written (R13, R38). -/
def Mem.readRun (m : Mem) (a : Nat) : Nat → Except Nat (List Byte)
  | 0 => .ok []
  | n + 1 =>
    match Mem.read m a with
    | none => .error a
    | some v =>
      match Mem.readRun m (a + 1) n with
      | .ok vs => .ok (v :: vs)
      | .error i => .error i

/-- The canonical form: indices strictly rising. No entry can equal what an unlisted index reads as, which is no value. -/
abbrev Mem.wf (m : Mem) : Prop := m.Pairwise (fun x y => x.1 < y.1)

/-- Every listed index is below `cap`. -/
abbrev Mem.within (m : Mem) (cap : Nat) : Prop := ∀ c ∈ m, c.1 < cap

/-- The buffer a buffer id names (20_memory R61). -/
def State.buf (s : State) : BufId → Mem
  | .cs => s.cs
  | .pw => s.pw
  | .key => s.key
  | .fr => s.fr
  | .od => s.od
  | .bits => s.bits
  | .nrz => s.nrz
  | .us => s.us
  | .ax => s.ax

/-- Replace one buffer; no two buffers overlap (R61). -/
def State.setBuf (s : State) (b : BufId) (m : Mem) : State :=
  match b with
  | .cs => { s with cs := m }
  | .pw => { s with pw := m }
  | .key => { s with key := m }
  | .fr => { s with fr := m }
  | .od => { s with od := m }
  | .bits => { s with bits := m }
  | .nrz => { s with nrz := m }
  | .us => { s with us := m }
  | .ax => { s with ax := m }

/-- The capacity of a buffer in bytes (R61). -/
def capacity (C : Config) : BufId → Nat
  | .cs => C.csMax
  | .pw => C.pwMax
  | .key => C.keyBytes
  | .fr => C.frameMax
  | .od => Config.odMax
  | .bits => C.nibMax
  | .nrz => C.bytesMax
  | .us => C.bytesMax
  | .ax => C.axMax

/-- A command reads the run `b[a .. a+n)` and goes on with its bytes `k`; a byte nothing has written since reset is a fault of
the launch (10_state R38, 93 U3). -/
def withBytes (s : State) (b : BufId) (a n : Nat) (k : List Byte → Out) : Out :=
  match (s.buf b).readRun a n with
  | .ok bs => k bs
  | .error i => .fault (.unwrittenRead b i)

/-- A command reads the byte `b[a]` and goes on with it. -/
def withByte (s : State) (b : BufId) (a : Nat) (k : Byte → Out) : Out :=
  match (s.buf b).read a with
  | some v => k v
  | none => .fault (.unwrittenRead b a)

/-- How a command completes without a shell fault: every field of STATUS and RESULT are written (10_state R24, R25). -/
def State.finish (s : State) (lst : LinkStatus) (bitstuff : Bool) (result : Word) : State :=
  { s with status := statusOf lst bitstuff, result := result }

/-- An FCP command ends with a value or ERR_NONE in RESULT: STATUS.DONE = 1, LST = 0, BITSTUFF = 0, SF = 0. -/
def complete (s : State) (result : Word) : Out := .next (s.finish .ok false result)

/-- `fail <CODE>` (60_exceptions R223): RESULT takes the code, STATUS as for a completed command, nothing else changes. -/
def fail (s : State) (e : FcpError) : Out := .next (s.finish .ok false (errCode e))

/-- `shellfault <NAME>` (60_exceptions R225): only STATUS changes. -/
def shellFault (s : State) (f : ShellFault) : Out := .next { s with status := statusOfFault f }

/-- The 16-bit value the host reads from a register: zero-extended, RESULT as it is, the write-only CMD and No. 15 as 0
(R21, R26). -/
def hostRegRead (s : State) : RegName → Word
  | .cmd => 0
  | .status => s.status
  | .result => s.result
  | .present => s.present.setWidth 16
  | .cslen => s.cslen
  | .pwlen => s.pwlen
  | .frlen => s.frlen
  | .fidr => s.fidr.setWidth 16
  | .optlen => s.optlen.setWidth 16
  | .niblen => s.niblen
  | .nrzlen => s.nrzlen
  | .uslen => s.uslen
  | .axlen => s.axlen
  | .crcr => s.crcr
  | .fcsr => s.fcsr
  | .reserved => 0

/-- What a host write stores, CMD's command apart: the value truncated to the register's width, nothing in a read-only register
(R21, R26). -/
def hostRegStore (s : State) (v : Word) : RegName → State
  | .cmd => s
  | .status => s
  | .result => s
  | .present => { s with present := v.setWidth 4 }
  | .cslen => { s with cslen := v }
  | .pwlen => { s with pwlen := v }
  | .frlen => { s with frlen := v }
  | .fidr => { s with fidr := v.setWidth 8 }
  | .optlen => { s with optlen := v.setWidth 8 }
  | .niblen => { s with niblen := v }
  | .nrzlen => { s with nrzlen := v }
  | .uslen => { s with uslen := v }
  | .axlen => { s with axlen := v }
  | .crcr => s
  | .fcsr => s
  | .reserved => s

/-- `BufWrite(S, i, b)`: ignored at or above the capacity and for an id above 8 (20_memory R62). -/
def hostBufWrite (C : Config) (s : State) (S i : Nat) (b : Byte) : State :=
  match bufOfNum S with
  | none => s
  | some n => if i < capacity C n then s.setBuf n ((s.buf n).write i b) else s

/-- `BufRead(S, i)`: 0x00 at or above the capacity and for an id above 8 (20_memory R62). A byte nothing has written since reset
is unspecified (R36): a free value, the same at every read until something writes it (R65; log 5). -/
def hostBufRead (C : Config) (s : State) (S i : Nat) : Byte :=
  match bufOfNum S with
  | none => 0
  | some n =>
    if i < capacity C n then
      match (s.buf n).read i with
      | some v => v
      | none => C.bufByte s.resets S i
    else 0

/-- `Reset` (70_reset R240): every register 0, every buffer byte unspecified. The host's own side, its pending transactions and the
value its last read returned, and the random port's progress are not CORE's registers and stay (log 9). -/
def hostReset (s : State) : State :=
  { State.reset with host := s.host, hostData := s.hostData, draws := s.draws, resets := s.resets + 1 }

end Sys2Proof.Machine
end

