-- ==== Sys2Proof/Machine/Operands.lean ====
section
/-! DEFINITION. The operand forms of the commands: presence bits and lengths of the Frame Codec's arguments (10_state R27 to
R29), its two path tests (40 R102, R103), its shell length checks (R112), and the link decoder's hexadecimal text and bit
sequences (00_scope R12, 44 R170). -/

namespace Sys2Proof.Machine

/-- PRESENT.CS_P, bit 0 (R27). -/
def State.csP (s : State) : Bool := s.present.getLsbD 0

/-- PRESENT.PW_P, bit 1 (R27). -/
def State.pwP (s : State) : Bool := s.present.getLsbD 1

/-- PRESENT.KEY_P, bit 2 (R27). -/
def State.keyP (s : State) : Bool := s.present.getLsbD 2

/-- PRESENT.OD_P, bit 3 (R27). -/
def State.odP (s : State) : Bool := s.present.getLsbD 3

/-- `c`, the callsign's length (R28). -/
def State.c (s : State) : Nat := s.cslen.toNat

/-- `p`, the password's length (R28). -/
def State.p (s : State) : Nat := s.pwlen.toNat

/-- `F`, the source's `frame_len` (41 preamble). -/
def State.frameLen (s : State) : Nat := s.frlen.toNat

/-- `n`, the optional-data length (R29). -/
def State.n (s : State) : Nat := s.optlen.toNat

/-- `cs_valid` (R102): the callsign is present and not empty. -/
def State.csValid (s : State) : Bool := s.csP && decide (1 ≤ s.c)

/-- `enc_path` (R103): both key and password are present. -/
def State.encPath (s : State) : Bool := s.keyP && s.pwP

/-- `padlen(n, p)` (R104). -/
def padlen (n p : Nat) : Nat := 16 - (1 + n + p) % 16

/-- CSLEN > `CS_MAX` while CS_P = 1 (R112). -/
def csTooLong (C : Config) (s : State) : Bool := s.csP && decide (C.csMax < s.c)

/-- PWLEN > `PW_MAX` while PW_P = 1 (R112). -/
def pwTooLong (C : Config) (s : State) : Bool := s.pwP && decide (C.pwMax < s.p)

/-- FRLEN > `FRAME_MAX` (R112). -/
def frTooLong (C : Config) (s : State) : Bool := decide (C.frameMax < s.frameLen)

/-- `nibval` (R170): the value of an ASCII hexadecimal digit, either case; `none` is the rule's "invalid". -/
def nibval (ch : Byte) : Option (BitVec 4) :=
  if 0x30#8 ≤ ch ∧ ch ≤ 0x39#8 then some ((ch - 0x30#8).setWidth 4)
  else if 0x41#8 ≤ ch ∧ ch ≤ 0x46#8 then some ((ch - 0x37#8).setWidth 4)
  else if 0x61#8 ≤ ch ∧ ch ≤ 0x66#8 then some ((ch - 0x57#8).setWidth 4)
  else none

/-- Why a scan of hexadecimal text stops. -/
inductive HexStop where
  /-- A character is not a hexadecimal digit (R171): shell fault BAD_CHAR. -/
  | badChar
  /-- The character at an index was never written (R38). -/
  | unwritten (i : Nat)
  deriving DecidableEq, Repr

/-- The values of the characters at indices `a .. a+n`, tested in index order (the first loop of R172). -/
def hexValues (m : Mem) (a : Nat) : Nat → Except HexStop (List (BitVec 4))
  | 0 => .ok []
  | n + 1 =>
    match Mem.read m a with
    | none => .error (.unwritten a)
    | some ch =>
      match nibval ch with
      | none => .error .badChar
      | some v =>
        match hexValues m (a + 1) n with
        | .ok vs => .ok (v :: vs)
        | .error e => .error e

/-- `raw[i] = 16 * nibval(BITS[2i]) + nibval(BITS[2i+1])` (R170): the first character of a pair is the high nibble (R64). -/
def nibblePairs : List (BitVec 4) → List Byte
  | hi :: lo :: rest => (hi ++ lo) :: nibblePairs rest
  | _ => []

/-- The bits of one byte, MSB first (R12). -/
def byteBits (v : Byte) : List Bool :=
  [v.getLsbD 7, v.getLsbD 6, v.getLsbD 5, v.getLsbD 4, v.getLsbD 3, v.getLsbD 2, v.getLsbD 1, v.getLsbD 0]

/-- `bits(s)` (R12): each byte MSB first, in byte order. -/
def bitsOf : List Byte → List Bool
  | [] => []
  | v :: vs => byteBits v ++ bitsOf vs

/-- The byte of eight bits, the first one bit 7. -/
def byteOf (b7 b6 b5 b4 b3 b2 b1 b0 : Bool) : Byte :=
  BitVec.ofBool b7 ++ BitVec.ofBool b6 ++ BitVec.ofBool b5 ++ BitVec.ofBool b4 ++
    BitVec.ofBool b3 ++ BitVec.ofBool b2 ++ BitVec.ofBool b1 ++ BitVec.ofBool b0

/-- `pack(b)` (R12): the inverse of `bits` on sequences whose length is a multiple of 8. -/
def pack : List Bool → List Byte
  | b7 :: b6 :: b5 :: b4 :: b3 :: b2 :: b1 :: b0 :: rest => byteOf b7 b6 b5 b4 b3 b2 b1 b0 :: pack rest
  | _ => []

end Sys2Proof.Machine
end

