-- ==== Sys2Proof/Machine/Fcp.lean ====
section
/-! DEFINITION. The Frame Codec: FLEN (40 R109), FID, ODLEN, ODGET (41 R121, R124, R125), FENC (42 R144). Each meaning is
written over an arbitrary configuration (00_scope R10) and `exec<Name>` is its case at `Config.core`. -/

namespace Sys2Proof.Machine

/-- The frame length L of R109, exact (R108). -/
def frameLength (c n p : Nat) (pwP : Bool) : Nat :=
  c + 1 + (if 0 < n then 1 + n else 0) + (if pwP then p + (if n = 0 then 1 else 0) + padlen n p else 0)

/-- FLEN (R109). Reads PRESENT.CS_P, PRESENT.PW_P and the length registers, no buffer. -/
def flenWith (C : Config) (s : State) : Out :=
  if csTooLong C s || pwTooLong C s then shellFault s .badLength
  else if !s.csValid then fail s .callsignInvalid
  else complete s (BitVec.ofNat 16 (frameLength s.c s.n s.p s.pwP))

/-- FLEN, command word 0x01. -/
def execFlen (s : State) : Out := flenWith Config.core s

/-- FID (R121): the frame's byte at index `c`, zero-extended; the callsign is not compared. -/
def fidWith (C : Config) (s : State) : Out :=
  if csTooLong C s || frTooLong C s then shellFault s .badLength
  else if !s.csValid then fail s .callsignInvalid
  else if s.frameLen < s.c + 1 then fail s .frameInvalid
  else withByte s .fr s.c fun f => complete s (f.setWidth 16)

/-- FID, command word 0x02. -/
def execFid (s : State) : Out := fidWith Config.core s

/-- The preamble of ODLEN and ODGET (R120): shell length checks, callsign present and not empty, frame long enough. -/
def parsePre (C : Config) (s : State) (k : Out) : Out :=
  if csTooLong C s || pwTooLong C s || frTooLong C s then shellFault s .badLength
  else if !s.csValid then fail s .callsignInvalid
  else if s.frameLen < s.c + 1 then fail s .frameInvalid
  else k

/-- The part ODLEN and ODGET share on the encrypted path (R123, R124): the section is long enough, is decrypted, its
password matches, its declared length covers the password. Goes on with the decrypted section `SEC` and `declaredLen`.
The password is compared before the declared length is judged (R127). -/
def withSec (C : Config) (s : State) (k : List Byte → Nat → Out) : Out :=
  if s.frameLen - s.c - 1 < 1 + s.p then fail s .frameInvalid
  else
    withBytes s .key 0 C.keyBytes fun key =>
    withBytes s .fr (s.c + 1) (s.frameLen - s.c - 1) fun enc =>
    withBytes s .pw 0 s.p fun pw =>
    if ((C.dec key enc).drop 1).take s.p ≠ pw then fail s .incorrectPassword
    else if ((C.dec key enc).headD 0).toNat < s.p then fail s .lengthMismatch
    else k (C.dec key enc) ((C.dec key enc).headD 0).toNat

/-- The part ODLEN and ODGET share on the unencrypted path (R122): the length byte, at index `c + 1`, equals the number of bytes
that follow it, as integers (R108). -/
def withLengthByte (s : State) (k : Byte → Out) : Out :=
  withByte s .fr (s.c + 1) fun d =>
  if d.toNat ≠ s.frameLen - s.c - 2 then fail s .lengthMismatch
  else k d

/-- ODLEN (R124). -/
def odlenWith (C : Config) (s : State) : Out :=
  parsePre C s <|
  if s.frameLen = s.c + 1 then complete s 0
  else if s.encPath then
    withSec C s fun _ declared => complete s (BitVec.ofNat 16 (declared - s.p))
  else
    withLengthByte s fun d => complete s (d.setWidth 16)

/-- ODLEN, command word 0x03. -/
def execOdlen (s : State) : Out := odlenWith Config.core s

/-- ODGET's success (R125): the payload to OD from index 0, its length to OPTLEN, ERR_NONE to RESULT. -/
def odgetDone (s : State) (payload : List Byte) : Out :=
  complete { s with od := s.od.writeRun 0 payload, optlen := BitVec.ofNat 8 payload.length } 0

/-- ODGET after the callsign comparison (R125). -/
def odgetBody (C : Config) (s : State) : Out :=
  if s.frameLen = s.c + 1 then odgetDone s []
  else if s.encPath then
    withSec C s fun sec declared =>
    if s.frameLen - s.c - 1 < 1 + declared then fail s .frameInvalid
    else odgetDone s ((sec.drop (1 + s.p)).take (declared - s.p))
  else
    withLengthByte s fun d =>
    withBytes s .fr (s.c + 2) d.toNat fun payload => odgetDone s payload

/-- ODGET (R125). The callsign is compared on the unencrypted path only, before the exit for a frame without optional data
(R126 item 3). -/
def odgetWith (C : Config) (s : State) : Out :=
  parsePre C s <|
  if s.encPath then odgetBody C s
  else
    withBytes s .fr 0 s.c fun got =>
    withBytes s .cs 0 s.c fun want =>
    if got ≠ want then fail s .callsignInvalid
    else odgetBody C s

/-- ODGET, command word 0x04. -/
def execOdget (s : State) : Out := odgetWith Config.core s

/-- The `k` padding bytes the random port delivers next, in index order (R107). -/
def drawn (C : Config) (s : State) (k : Nat) : List Byte :=
  (List.range k).map fun j => C.drawByte (s.draws + j)

/-- FENC's success (R144): the frame to FR from index 0, its length to FRLEN, ERR_NONE to RESULT; `k` bytes were drawn. -/
def fencDone (s : State) (frame : List Byte) (k : Nat) : Out :=
  complete { s with fr := s.fr.writeRun 0 frame, frlen := BitVec.ofNat 16 frame.length, draws := s.draws + k } 0

/-- The section before encryption (R143): `[n + p] ++ PW[0..p) ++ OD[0..n) ++ pad`. -/
def secPlain (pw od pad : List Byte) : List Byte :=
  BitVec.ofNat 8 (od.length + pw.length) :: (pw ++ od ++ pad)

/-- FENC (R144). -/
def fencWith (C : Config) (s : State) : Out :=
  if csTooLong C s || pwTooLong C s then shellFault s .badLength
  else if !s.csValid then fail s .callsignInvalid
  else if decide (0 < s.n) != s.odP then fail s .frameInvalid
  else if s.encPath && decide (255 < s.n + s.p) then fail s .frameInvalid
  else
    withBytes s .cs 0 s.c fun cs =>
    if s.encPath then
      withBytes s .pw 0 s.p fun pw =>
      withBytes s .od 0 s.n fun od =>
      withBytes s .key 0 C.keyBytes fun key =>
      fencDone s (cs ++ s.fidr :: C.enc key (secPlain pw od (drawn C s (padlen s.n s.p)))) (padlen s.n s.p)
    else if 0 < s.n then
      withBytes s .od 0 s.n fun od => fencDone s (cs ++ s.fidr :: s.optlen :: od) 0
    else fencDone s (cs ++ [s.fidr]) 0

/-- FENC, command word 0x05. -/
def execFenc (s : State) : Out := fencWith Config.core s

end Sys2Proof.Machine
end

