-- ==== Sys2Proof/Machine/Link.lean ====
section
/-! DEFINITION. The Bit-Level Link Decoder: NRZI (44 R172), UNSTF (45 R186), BREV (46 R196), CRCCHK (46 R201), AX25 (47
R211). The stages are shared operations on states, and AX25 runs the same ones. -/

namespace Sys2Proof.Machine

/-- `B = floor(NIBLEN / 2)` (R170). -/
def State.rawLen (s : State) : Nat := s.niblen.toNat / 2

/-- The two shell checks of NRZI and AX25 and the bytes `raw[0..B)` (R170, R171): BAD_LENGTH before the characters are looked at;
all `2B` characters tested before anything is written; an odd last character ignored. -/
def withRaw (C : Config) (s : State) (k : List Byte → Out) : Out :=
  if C.nibMax < s.niblen.toNat then shellFault s .badLength
  else
    match hexValues s.bits 0 (2 * s.rawLen) with
    | .ok vs => k (nibblePairs vs)
    | .error .badChar => shellFault s .badChar
    | .error (.unwritten i) => .fault (.unwrittenRead .bits i)

/-- The differential transform on bits (R172, R173): output 1 iff `prev = cur`, then `prev <- cur`. -/
def nrziBits (prev : Bool) : List Bool → List Bool
  | [] => []
  | cur :: rest => (prev == cur) :: nrziBits cur rest

/-- Stage 1 on bytes: `prev` starts at 0 and carries across byte boundaries (R172, R175); `NRZ = pack(y)` (R173). -/
def nrziBytes (raw : List Byte) : List Byte := pack (nrziBits false (bitsOf raw))

/-- Stage 1: writes NRZ[0..B) and NRZLEN. -/
def nrziStage (s : State) (raw : List Byte) : State :=
  { s with nrz := s.nrz.writeRun 0 (nrziBytes raw), nrzlen := BitVec.ofNat 16 raw.length }

/-- NRZI (R172). -/
def nrziWith (C : Config) (s : State) : Out :=
  withRaw C s fun raw => complete (nrziStage s raw) 0

/-- NRZI, command word 0x08. -/
def execNrzi (s : State) : Out := nrziWith Config.core s

/-- The unstuffer's working values (R33): run counter, fill pointer, accumulator, and the bytes completed so far. -/
structure UnstuffScan where
  ones : Nat
  fp : Nat
  acc : Byte
  out : List Byte
  deriving DecidableEq, Repr

/-- The working values at the start of every scan (R33). -/
def scanStart : UnstuffScan := { ones := 0, fp := 8, acc := 0, out := [] }

/-- Emit the oldest bit of the window (R182) and count the run (R183). -/
def emitBit (x : UnstuffScan) (b : Bool) : UnstuffScan :=
  let acc := (x.acc <<< 1) ||| (BitVec.ofBool b).setWidth 8
  let ones := if b then x.ones + 1 else 0
  if x.fp = 1 then { ones := ones, fp := 8, acc := 0, out := x.out ++ [acc] }
  else { ones := ones, fp := x.fp - 1, acc := acc, out := x.out }

/-- The scan of R186 over the bits not yet looked at: answers `found` and the working values where the scan ends. After five ones
a 0 is a stuff bit and dropped, a 1 ends the scan, with the flag found iff the bit after it is 0 (R183, R184); a bit that is
not there ends the scan, not found (R188). -/
def unstuffScan : List Bool → UnstuffScan → Bool × UnstuffScan
  | [], x => (false, x)
  | b1 :: rest, x =>
    if (emitBit x b1).ones = 5 then
      match rest with
      | [] => (false, emitBit x b1)
      | false :: rest' => unstuffScan rest' { emitBit x b1 with ones := 0 }
      | [true] => (false, emitBit x b1)
      | true :: b3 :: _ => (!b3, emitBit x b1)
    else unstuffScan rest (emitBit x b1)

/-- The unstuffer on the bytes after the skipped one: `bitstuff` and the complete bytes. Success needs a found flag and `FP` = 2
(R185); the bits left in `ACC` are discarded (R186). -/
def unstuff (bytes : List Byte) : Bool × List Byte :=
  let r := unstuffScan (bitsOf bytes) scanStart
  (!(r.1 && decide (r.2.fp = 2)), r.2.out)

/-- Stage 2's input: the run NRZ[1..NRZLEN); byte 0 is skipped without being looked at (R181). -/
def withScanned (s : State) (k : List Byte → Out) : Out :=
  withBytes s .nrz 1 (s.nrzlen.toNat - 1) k

/-- Stage 2: writes US[0..u) and USLEN, whether or not the scan succeeds (R186, R187). -/
def unstfStage (s : State) (bytes : List Byte) : State :=
  { s with us := s.us.writeRun 0 (unstuff bytes).2, uslen := BitVec.ofNat 16 (unstuff bytes).2.length }

/-- UNSTF (R186). -/
def unstfWith (C : Config) (s : State) : Out :=
  if C.bytesMax < s.nrzlen.toNat then shellFault s .badLength
  else
    withScanned s fun bytes =>
    if (unstuff bytes).1 then .next ((unstfStage s bytes).finish .frameError true 1)
    else .next ((unstfStage s bytes).finish .ok false 0)

/-- UNSTF, command word 0x09. -/
def execUnstf (s : State) : Out := unstfWith Config.core s

/-- `brev8(v)` (R195): bit `k` of the result is bit `7 - k` of `v`. -/
def brev8 (v : Byte) : Byte :=
  byteOf (v.getLsbD 0) (v.getLsbD 1) (v.getLsbD 2) (v.getLsbD 3)
    (v.getLsbD 4) (v.getLsbD 5) (v.getLsbD 6) (v.getLsbD 7)

/-- Stage 3: writes AX[0..USLEN) and AXLEN (R196). -/
def brevStage (s : State) (bytes : List Byte) : State :=
  { s with ax := s.ax.writeRun 0 (bytes.map brev8), axlen := s.uslen }

/-- BREV (R196). -/
def brevWith (C : Config) (s : State) : Out :=
  if C.bytesMax < s.uslen.toNat then shellFault s .badLength
  else withBytes s .us 0 s.uslen.toNat fun bytes => complete (brevStage s bytes) 0

/-- BREV, command word 0x0A. -/
def execBrev (s : State) : Out := brevWith Config.core s

/-- One shift of the CRC register (R199): polynomial 0x1021, not reflected. -/
def crcShift (crc : Word) : Word :=
  if crc &&& 0x8000#16 ≠ 0#16 then (crc <<< 1) ^^^ 0x1021#16 else crc <<< 1

/-- One byte into the CRC register (R199): XOR into the high half, eight shifts. -/
def crcByte (crc : Word) (v : Byte) : Word :=
  crcShift (crcShift (crcShift (crcShift (crcShift (crcShift (crcShift (crcShift (crc ^^^ (v ++ 0#8)))))))))

/-- `crc16(s)` (R198, R199): initial value 0xFFFF, no final XOR. -/
def crc16 (bytes : List Byte) : Word := bytes.foldl crcByte 0xFFFF#16

/-- `crc_error` (R201): the text to AX, AXLEN 9, LST and RESULT 2. -/
def crcError (s : State) : State :=
  { s with ax := s.ax.writeRun 0 crcErrorText, axlen := 9 }.finish .crcError false 2

/-- The body of CRCCHK from "m <- AXLEN" (R201), also stage 4 of AX25. -/
def crcStage (s : State) : Out :=
  if s.axlen.toNat < 2 then .next (crcError { s with crcr := 0, fcsr := 0 })
  else
    withBytes s .ax 0 (s.axlen.toNat - 2) fun payload =>
    withByte s .ax (s.axlen.toNat - 2) fun hi =>
    withByte s .ax (s.axlen.toNat - 1) fun lo =>
    if crc16 payload ≠ hi ++ lo then .next (crcError { s with crcr := crc16 payload, fcsr := hi ++ lo })
    else complete { s with crcr := crc16 payload, fcsr := hi ++ lo, axlen := s.axlen - 2 } 0

/-- CRCCHK (R201). -/
def crcchkWith (C : Config) (s : State) : Out :=
  if C.axMax < s.axlen.toNat then shellFault s .badLength
  else crcStage s

/-- CRCCHK, command word 0x0B. -/
def execCrcchk (s : State) : Out := crcchkWith Config.core s

/-- "Frame error" in AX25 (R211, R213): the text to AX, AXLEN 11, CRCR and FCSR 0, LST and RESULT 1, BITSTUFF 1. -/
def frameError (s : State) : State :=
  { s with ax := s.ax.writeRun 0 frameErrorText, axlen := 11, crcr := 0, fcsr := 0 }.finish .frameError true 1

/-- AX25 (R211): stages 1 to 3 always; "Frame error" if the unstuffer returned 1, else stage 4. -/
def ax25With (C : Config) (s : State) : Out :=
  withRaw C s fun raw =>
  withScanned (nrziStage s raw) fun scanned =>
  withBytes (unstfStage (nrziStage s raw) scanned) .us 0 (unstfStage (nrziStage s raw) scanned).uslen.toNat fun bytes =>
  if (unstuff scanned).1 then .next (frameError (brevStage (unstfStage (nrziStage s raw) scanned) bytes))
  else crcStage (brevStage (unstfStage (nrziStage s raw) scanned) bytes)

/-- AX25, command word 0x0C. -/
def execAx25 (s : State) : Out := ax25With Config.core s

end Sys2Proof.Machine
end

