-- ==== Sys2Proof/Machine/Dispatch.lean ====
section
/-! DEFINITION. exec: one arm per command of 30_encoding R82, each one call of its meaning. -/

namespace Sys2Proof.Machine

def exec (i : Instr) (s : State) : Host.Outcome State Fault Refusal :=
  match i with
  | .flen => Sys2Proof.Machine.execFlen s
  | .fid => Sys2Proof.Machine.execFid s
  | .odlen => Sys2Proof.Machine.execOdlen s
  | .odget => Sys2Proof.Machine.execOdget s
  | .fenc => Sys2Proof.Machine.execFenc s
  | .nrzi => Sys2Proof.Machine.execNrzi s
  | .unstf => Sys2Proof.Machine.execUnstf s
  | .brev => Sys2Proof.Machine.execBrev s
  | .crcchk => Sys2Proof.Machine.execCrcchk s
  | .ax25 => Sys2Proof.Machine.execAx25 s

end Sys2Proof.Machine
end

