-- ==== Sys2Proof/Machine/HostPort.lean ====
section
/-! DEFINITION. The host port (20_memory R60): what each of the five transactions does to CORE. A write to CMD runs the command
its low eight bits encode (10_state R23); an illegal word runs none and is shell fault ILLEGAL_CMD (30_encoding R84). -/

namespace Sys2Proof.Machine

/-- A host write of `v` to CMD: bits above bit 7 ignored, the word decoded, its command run (R23, R84, R85). -/
def writeCmd (s : State) (v : Word) : Out :=
  match decode (v.setWidth 8) with
  | .ok i => exec i s
  | .error _ => shellFault s .illegalCmd

/-- `RegWrite(n, v)` (R60): to CMD it runs a command, to any other register it stores under R26. -/
def hostRegWrite (s : State) (n : Fin 16) (v : Word) : Out :=
  match regOfNum n with
  | .cmd => writeCmd s v
  | r => .next (hostRegStore s v r)

/-- One host transaction (R60). A read answers the host its value and changes no register and no buffer (R26, R65). -/
def hostTransact (s : State) : HostTxn → Out
  | .regWrite n v => hostRegWrite s n v
  | .regRead n => .next { s with hostData := hostRegRead s (regOfNum n) }
  | .bufWrite S i b => .next (hostBufWrite Config.core s S i b)
  | .bufRead S i => .next { s with hostData := (hostBufRead Config.core s S i).setWidth 16 }
  | .reset => .next (hostReset s)

/-- CORE takes the oldest pending transaction, whole, before any later one (20_memory R66, R67). With none pending nothing
happens: CORE fetches no instructions (10_state R22; log 7). -/
def takeNext (s : State) : Out :=
  match s.host with
  | [] => .next s
  | t :: rest => hostTransact { s with host := rest } t

/-- The transaction that runs the command whose word is `w`, numbered as the opcode table numbers it. -/
def cmdTxn (nbits w : Nat) : HostTxn := .regWrite 0 (BitVec.ofNat 16 (w % 2 ^ nbits))

end Sys2Proof.Machine
end

