-- ==== Sys2Proof/Machine/Step.lean ====
section
/-! DEFINITION. One step of the machine: one host transaction (20_memory R60, R66), and where a command word is placed so that
the next step runs it (log 6). -/

namespace Sys2Proof.Machine

/-- One step: CORE takes the host's oldest pending transaction. -/
def step (s : State) : Host.Outcome State Fault Refusal := takeNext s

/-- `s` with the host's next transaction the write of the command word `w` to CMD, ahead of what the host has pending: the
only way a command starts (10_state R23). -/
def State.withFetchWord (s : State) (nbits w : Nat) : State :=
  { s with host := cmdTxn nbits w :: s.host }

end Sys2Proof.Machine
end

