-- ==== Sys2Proof/Machine/LinkTx.lean ====
section
/-! DEFINITION. The transmit-direction transforms the spec's laws are stated with (44 R176, 45 R192, 47 R218). They are not
commands of CORE. -/

namespace Sys2Proof.Machine

/-- NRZ-S encoding of bits from line level `level` (R176): a one holds the level, a zero flips it. -/
def nrzsBits (level : Bool) : List Bool → List Bool
  | [] => []
  | d :: rest => (level == d) :: nrzsBits (level == d) rest

/-- NRZ-S encoding of bytes from level 0 (R176). -/
def nrzsBytes (line : List Byte) : List Byte := pack (nrzsBits false (bitsOf line))

/-- `stuff` (R192) with `ones` ones just before: a 0 is inserted after every run of five consecutive ones. -/
def stuffFrom (ones : Nat) : List Bool → List Bool
  | [] => []
  | false :: rest => false :: stuffFrom 0 rest
  | true :: rest => if ones = 4 then true :: false :: stuffFrom 0 rest else true :: stuffFrom (ones + 1) rest

/-- `stuff(d)` (R192). -/
def stuff (d : List Bool) : List Bool := stuffFrom 0 d

/-- The HDLC flag `01111110` (30_encoding R90). -/
def flagBits : List Bool := [false, true, true, true, true, true, true, false]

/-- The payload followed by its big-endian CRC trailer: `T` of R218. -/
def withTrailer (frame : List Byte) : List Byte :=
  frame ++ [(crc16 frame).extractLsb' 8 8, (crc16 frame).extractLsb' 0 8]

/-- The line bits of an AX.25 frame (R218): flag, stuffed bit-reversed bytes with trailer, flag, fill. -/
def lineBits (frame : List Byte) (fill : List Bool) : List Bool :=
  flagBits ++ stuff (bitsOf ((withTrailer frame).map brev8)) ++ flagBits ++ fill

/-- The channel bytes of an AX.25 frame: NRZ-S encoding of its packed line bits from level 0 (R218). -/
def channelBytes (frame : List Byte) (fill : List Bool) : List Byte := nrzsBytes (pack (lineBits frame fill))

/-- The ASCII character of a nibble, upper case (R170, R218). -/
def hexDigit (v : BitVec 4) : Byte := if v < 10#4 then 0x30#8 + v.setWidth 8 else 0x37#8 + v.setWidth 8

/-- The upper-case hexadecimal text of bytes, high nibble first. -/
def hexText : List Byte → List Byte
  | [] => []
  | v :: vs => hexDigit (v.extractLsb' 4 4) :: hexDigit (v.extractLsb' 0 4) :: hexText vs

end Sys2Proof.Machine
end

