-- ==== Sys2Proof/Machine/Telemetry.lean ====
section
/-! DEFINITION. The telemetry field views of 43_telemetry_fields (R155 to R164): an optional companion of CORE (`HAS_TLM`), pure
functions of the optional-data buffer, with no command, no register and no effect on any. Values are exact rationals (R159, 93
U6; log 15). -/

namespace Sys2Proof.Machine

/-- The two layouts the source names (R161); only FOSSA-1 has fields in the spec. -/
inductive TlmLayout where
  | fossa1 | legacy
  deriving DecidableEq, Repr

/-- The fields of the FOSSA-1 layout (R160). -/
inductive TlmField where
  | batteryChargingVoltage | batteryChargingCurrent | batteryVoltage
  | solarCellVoltage1 | solarCellVoltage2 | solarCellVoltage3
  | batteryTemperature | boardTemperature | mcuTemperature
  | resetCounter | powerConfiguration
  deriving DecidableEq, Repr

/-- Width and sign of a raw field (R158). -/
inductive TlmShape where
  | unsigned1 | signed1 | signed2
  deriving DecidableEq, Repr

/-- The offset column of R160, with the MCU temperature at 11 (90_conflicts C10). -/
def tlmOffset : TlmField → Nat
  | .batteryChargingVoltage => 0
  | .batteryChargingCurrent => 1
  | .batteryVoltage => 3
  | .solarCellVoltage1 => 4
  | .solarCellVoltage2 => 5
  | .solarCellVoltage3 => 6
  | .batteryTemperature => 7
  | .boardTemperature => 9
  | .mcuTemperature => 11
  | .resetCounter => 12
  | .powerConfiguration => 14

/-- The width and sign columns of R160. -/
def tlmShape : TlmField → TlmShape
  | .batteryChargingVoltage => .unsigned1
  | .batteryChargingCurrent => .signed2
  | .batteryVoltage => .unsigned1
  | .solarCellVoltage1 => .unsigned1
  | .solarCellVoltage2 => .unsigned1
  | .solarCellVoltage3 => .unsigned1
  | .batteryTemperature => .signed2
  | .boardTemperature => .signed2
  | .mcuTemperature => .signed1
  | .resetCounter => .signed2
  | .powerConfiguration => .unsigned1

/-- The width of a shape in bytes. -/
def tlmWidth : TlmShape → Nat
  | .unsigned1 => 1
  | .signed1 => 1
  | .signed2 => 2

/-- The scale pair (multiplier, unit) of a field (R159, R160); (1, 1) where the source gives none and the value is `raw`. -/
def tlmScale : TlmField → Nat × Nat
  | .batteryChargingVoltage => (20, 1000)
  | .batteryChargingCurrent => (10, 1000000)
  | .batteryVoltage => (20, 1000)
  | .solarCellVoltage1 => (20, 1000)
  | .solarCellVoltage2 => (20, 1000)
  | .solarCellVoltage3 => (20, 1000)
  | .batteryTemperature => (10, 1000)
  | .boardTemperature => (10, 1000)
  | .mcuTemperature => (1, 1)
  | .resetCounter => (1, 1)
  | .powerConfiguration => (1, 1)

/-- Byte `o` of the buffer. -/
def tlmByte (od : List Byte) (o : Nat) : Byte := od.getD o 0

/-- Raw field extraction (R158): a 2-byte field is little-endian and signed. -/
def tlmRaw (od : List Byte) (o : Nat) : TlmShape → Int
  | .unsigned1 => (tlmByte od o).toNat
  | .signed1 => (tlmByte od o).toInt
  | .signed2 => (tlmByte od (o + 1) ++ tlmByte od o).toInt

/-- `raw * multiplier / unit`, exact (R159). -/
def tlmScaled (raw : Int) (scale : Nat × Nat) : Rat := (raw : Rat) * scale.1 / scale.2

/-- The length OPTLEN must reach for a field to fit: its offset plus its width (R157). -/
def tlmEnd (f : TlmField) : Nat := tlmOffset f + tlmWidth (tlmShape f)

/-- The value of a field from its own bytes (R156 steps 2 and 3). -/
def tlmField (own : List Byte) (f : TlmField) : Rat := tlmScaled (tlmRaw own 0 (tlmShape f)) (tlmScale f)

/-- A field of the buffer a successful ODGET produced; `none` is the absent buffer pointer. Absent, or shorter than the field's
offset plus its width: 0 (R156, R157). -/
def tlmValue (od : Option (List Byte)) (f : TlmField) : Rat :=
  match od with
  | none => 0
  | some bytes =>
    if bytes.length < tlmEnd f then 0
    else tlmField ((bytes.drop (tlmOffset f)).take (tlmWidth (tlmShape f))) f

/-- Why a view is refused. -/
inductive TlmRefusal where
  /-- `HAS_TLM` is false: the model has no telemetry views (R8, 43 preamble). -/
  | notPresent
  /-- The spec gives no field of the legacy layout (R161, 93 U16). -/
  | legacyLayout
  /-- Byte `i` of OD, one of the field's own bytes and below OPTLEN, was never written (10_state R38). -/
  | unwritten (i : Nat)
  deriving DecidableEq, Repr

/-- A view of CORE's buffer OD with its length OPTLEN (R155); the caller chooses the layout (R162) and says whether a successful
ODGET has produced the buffer (R157). Absent or too short is judged first and yields 0 whatever OD holds; otherwise the view
reads the field's own bytes and nothing else. It writes nothing. -/
def tlmView (C : Config) (s : State) (layout : TlmLayout) (produced : Bool) (f : TlmField) : Except TlmRefusal Rat :=
  if !C.hasTlm then .error .notPresent
  else
    match layout with
    | .legacy => .error .legacyLayout
    | .fossa1 =>
      if !produced || decide (s.n < tlmEnd f) then .ok 0
      else
        match s.od.readRun (tlmOffset f) (tlmWidth (tlmShape f)) with
        | .ok own => .ok (tlmField own f)
        | .error i => .error (.unwritten i)

end Sys2Proof.Machine
end

