-- ==== Sys2Proof/Safety.lean ====
section
/-! DEFINITION. The terms claims are stated in: bytes a buffer holds, bytes left alone, the length that describes a buffer,
the invariant of CORE's state, and the launch conditions of the commands in the spec's own words. -/

namespace Sys2Proof.Machine

/-- Buffer `b` holds `bytes` from index `a`: every one of them has been written and reads as given. -/
abbrev Holds (s : State) (b : BufId) (a : Nat) (bytes : List Byte) : Prop :=
  ∀ j, (h : j < bytes.length) → (s.buf b).read (a + j) = some bytes[j]

/-- From `s` to `t`, every byte of buffer `b` outside `[a, a + len)` reads as before. -/
def Untouched (s t : State) (b : BufId) (a len : Nat) : Prop :=
  ∀ k, k < a ∨ a + len ≤ k → (t.buf b).read k = (s.buf b).read k

/-- The number of bytes of buffer `b` a command may read (20_memory R73): the length register that describes it, all of it for KEY. -/
def readBound (s : State) : BufId → Nat
  | .cs => s.cslen.toNat
  | .pw => s.pwlen.toNat
  | .key => Config.core.keyBytes
  | .fr => s.frlen.toNat
  | .od => s.optlen.toNat
  | .bits => s.niblen.toNat
  | .nrz => s.nrzlen.toNat
  | .us => s.uslen.toNat
  | .ax => s.axlen.toNat

/-- The words STATUS can hold: 0x0000 until the first command completes; then DONE with OK, CRC_ERROR, FRAME_ERROR, or one of the
three shell faults (R24, 93 U4). -/
def legalStatus : List Word := [0x0000#16, 0x0001#16, 0x0009#16, 0x0015#16, 0x0021#16, 0x0041#16, 0x0061#16]

/-- The range of RESULT (R25, 60_exceptions R232): a status code -1 to -4, or a value from 0 to `CS_MAX` + 273 + `PW_MAX`. -/
def resultInRange (C : Config) (r : Word) : Prop := -4 ≤ r.toInt ∧ r.toInt ≤ (C.csMax + 273 + C.pwMax : Nat)

/-- The invariant of CORE: every buffer is in canonical form and within its capacity, STATUS is a word a command can leave,
RESULT is in its range. -/
structure Inv (s : State) : Prop where
  canonical : ∀ b, (s.buf b).wf
  bounded : ∀ b, (s.buf b).within (capacity Config.core b)
  status_legal : s.status ∈ legalStatus
  result_range : resultInRange Config.core s.result

/-- No length register the Frame Codec uses exceeds its buffer's capacity (40 R112), frame apart. -/
abbrev FcpLengthsOk (s : State) : Prop := (s.csP = true → s.c ≤ Config.core.csMax) ∧ (s.pwP = true → s.p ≤ Config.core.pwMax)

/-- The callsign is present and not empty (40 R102). -/
abbrev CallsignOk (s : State) : Prop := s.csP = true ∧ 1 ≤ s.c

/-- The host has kept what names and holds the frame FENC built: CSLEN, FR, FRLEN and the callsign's presence (42 R148). -/
abbrev KeepsFrame (t w : State) : Prop := w.cslen = t.cslen ∧ w.fr = t.fr ∧ w.frlen = t.frlen ∧ w.csP = true

/-- Key and password are both present (40 R103). -/
abbrev Encrypted (s : State) : Prop := s.keyP = true ∧ s.pwP = true

/-- Two outcomes agree on everything but buffer `b`, and on that buffer below the length register that describes it. -/
def SameBut (b : BufId) : Out → Out → Prop
  | .next t, .next t' => t' = t.setBuf b (t'.buf b) ∧ ∀ k, k < readBound t b → (t'.buf b).read k = (t.buf b).read k
  | .fault f, .fault f' => f' = f
  | .refused r, .refused r' => r' = r
  | _, _ => False

/-- CS_P = 1 and CSLEN > `CS_MAX`. -/
abbrev CsTooBig (s : State) : Prop := s.csP = true ∧ Config.core.csMax < s.c

/-- PW_P = 1 and PWLEN > `PW_MAX`. -/
abbrev PwTooBig (s : State) : Prop := s.pwP = true ∧ Config.core.pwMax < s.p

/-- FRLEN > `FRAME_MAX`. -/
abbrev FrTooBig (s : State) : Prop := Config.core.frameMax < s.frameLen

/-- The condition of shell fault BAD_LENGTH for each command, row by row the table of 60_exceptions R225. -/
abbrev LengthTooBig (s : State) : Instr → Prop
  | .flen => CsTooBig s ∨ PwTooBig s
  | .fid => CsTooBig s ∨ FrTooBig s
  | .odlen => CsTooBig s ∨ PwTooBig s ∨ FrTooBig s
  | .odget => CsTooBig s ∨ PwTooBig s ∨ FrTooBig s
  | .fenc => CsTooBig s ∨ PwTooBig s
  | .nrzi => Config.core.nibMax < s.niblen.toNat
  | .unstf => Config.core.bytesMax < s.nrzlen.toNat
  | .brev => Config.core.bytesMax < s.uslen.toNat
  | .crcchk => Config.core.axMax < s.axlen.toNat
  | .ax25 => Config.core.nibMax < s.niblen.toNat

end Sys2Proof.Machine
end

