-- ==== Sys2Proof/Certificates/Slice0/Obligations.lean ====
section
/-! DEFINITION. The statements for the provers, one def per obligation of OBLIGATIONS.json. Each docstring names the rules of
spec/ it formalises. Capacities are the parameters of 00_scope R10, named as `Config.core` holds them; STATUS words are those of
10_state R24. -/

open Sys2Proof Sys2Proof.Machine

/-! ### The command word and the host port -/

/-- 30_encoding R82: the words of the ten commands, written out bit by bit. -/
def Obligations.CommandWordsDecode : Prop :=
  decode 0b00000001#8 = .ok .flen ∧ decode 0b00000010#8 = .ok .fid ∧ decode 0b00000011#8 = .ok .odlen ∧
  decode 0b00000100#8 = .ok .odget ∧ decode 0b00000101#8 = .ok .fenc ∧ decode 0b00001000#8 = .ok .nrzi ∧
  decode 0b00001001#8 = .ok .unstf ∧ decode 0b00001010#8 = .ok .brev ∧ decode 0b00001011#8 = .ok .crcchk ∧
  decode 0b00001100#8 = .ok .ax25

/-- 30_encoding R80, R82, R85: decoding an encoded command gives it back, a word that decodes is the encoding of what it decodes to,
and the words that decode are those with ZERO = 0 and an assigned OP. -/
def Obligations.DecodeEncodeAgree : Prop :=
  (∀ i, decode (encode i) = .ok i) ∧ (∀ w i, decode w = .ok i → encode i = w) ∧
  (∀ w, (∃ i, decode w = .ok i) ↔ wordWf w = true)

/-- 10_state R23, 20_memory R60: when the host's oldest pending transaction writes to CMD a value whose low byte decodes to `i`, the
step is `exec i` on the state without that transaction. -/
def Obligations.StepRunsDecodedCommand : Prop :=
  ∀ (s : State) (v : Word) (rest : List HostTxn) (i : Instr),
    s.host = .regWrite 0 v :: rest → decode (v.setWidth 8) = .ok i → step s = exec i { s with host := rest }

/-- 30_encoding R84: an illegal word written to CMD changes STATUS only, to DONE = 1 with SF = 1. -/
def Obligations.IllegalWordIsShellFault : Prop :=
  ∀ (s : State) (v : Word) (rest : List HostTxn), s.host = .regWrite 0 v :: rest →
    v.setWidth 8 ∉ [0x01#8, 0x02#8, 0x03#8, 0x04#8, 0x05#8, 0x08#8, 0x09#8, 0x0A#8, 0x0B#8, 0x0C#8] →
    step s = .next { s with host := rest, status := 0x0021#16 }

/-- 10_state R21, R26: what a host write to each register other than CMD stores, and that it changes nothing else. -/
def Obligations.RegisterWrites : Prop :=
  ∀ (s : State) (n : Fin 16) (v : Word) (rest : List HostTxn), s.host = .regWrite n v :: rest →
    (n = 3 → step s = .next { s with host := rest, present := v.setWidth 4 }) ∧
    (n = 4 → step s = .next { s with host := rest, cslen := v }) ∧
    (n = 5 → step s = .next { s with host := rest, pwlen := v }) ∧
    (n = 6 → step s = .next { s with host := rest, frlen := v }) ∧
    (n = 7 → step s = .next { s with host := rest, fidr := v.setWidth 8 }) ∧
    (n = 8 → step s = .next { s with host := rest, optlen := v.setWidth 8 }) ∧
    (n = 9 → step s = .next { s with host := rest, niblen := v }) ∧
    (n = 10 → step s = .next { s with host := rest, nrzlen := v }) ∧
    (n = 11 → step s = .next { s with host := rest, uslen := v }) ∧
    (n = 12 → step s = .next { s with host := rest, axlen := v }) ∧
    (n = 1 ∨ n = 2 ∨ n = 13 ∨ n = 14 ∨ n = 15 → step s = .next { s with host := rest })

/-- 10_state R21, R26: what a host read of each register returns, and that it changes no register and no buffer. The returned value
stands in the model's own field `hostData` (log 8). -/
def Obligations.RegisterReads : Prop :=
  ∀ (s : State) (n : Fin 16) (rest : List HostTxn), s.host = .regRead n :: rest →
    ∃ v, step s = .next { s with host := rest, hostData := v } ∧
      (n = 0 ∨ n = 15 → v = 0) ∧ (n = 1 → v = s.status) ∧ (n = 2 → v = s.result) ∧
      (n = 3 → v.toNat = s.present.toNat) ∧ (n = 4 → v = s.cslen) ∧ (n = 5 → v = s.pwlen) ∧ (n = 6 → v = s.frlen) ∧
      (n = 7 → v.toNat = s.fidr.toNat) ∧ (n = 8 → v.toNat = s.optlen.toNat) ∧ (n = 9 → v = s.niblen) ∧
      (n = 10 → v = s.nrzlen) ∧ (n = 11 → v = s.uslen) ∧ (n = 12 → v = s.axlen) ∧ (n = 13 → v = s.crcr) ∧
      (n = 14 → v = s.fcsr)

/-- 20_memory R61, R62: a host write below the capacity stores the byte at that index of that buffer and nothing else; at or above the
capacity, or with an id above 8, it is ignored. -/
def Obligations.BufferWrites : Prop :=
  ∀ (s : State) (S i : Nat) (v : Byte) (rest : List HostTxn), s.host = .bufWrite S i v :: rest →
    (∀ b, S = numOfBuf b → i < capacity Config.core b →
      ∃ m, step s = .next ({ s with host := rest }.setBuf b m) ∧ Mem.read m i = some v ∧
        ∀ k, k ≠ i → Mem.read m k = (s.buf b).read k) ∧
    (∀ b, S = numOfBuf b → capacity Config.core b ≤ i → step s = .next { s with host := rest }) ∧
    (8 < S → step s = .next { s with host := rest })

/-- 20_memory R62, R65: a host read of a written byte returns it, at or above the capacity or with an id above 8 it returns 0x00, and it
changes no register and no buffer. What a never-written byte returns is a free value (log 5) and not stated. -/
def Obligations.BufferReads : Prop :=
  ∀ (s : State) (S i : Nat) (rest : List HostTxn), s.host = .bufRead S i :: rest →
    ∃ v : Word, step s = .next { s with host := rest, hostData := v } ∧
      (∀ b x, S = numOfBuf b → i < capacity Config.core b → (s.buf b).read i = some x → v.toNat = x.toNat) ∧
      (∀ b, S = numOfBuf b → capacity Config.core b ≤ i → v = 0) ∧ (8 < S → v = 0)

/-- 70_reset R240, 10_state R36: after Reset every register is 0; so it is in the state right after reset. The spec calls every
buffer byte unspecified; that such a byte holds no value is how the model says so (logs 4 and 5), and that Reset keeps the
host's pending transactions is the model's choice (log 9). -/
def Obligations.ResetLeavesZeros : Prop :=
  (∀ (s : State) (rest : List HostTxn), s.host = .reset :: rest →
    ∃ t, step s = .next t ∧ t.host = rest ∧ t.status = 0 ∧ t.result = 0 ∧ t.present = 0 ∧ t.cslen = 0 ∧ t.pwlen = 0 ∧
      t.frlen = 0 ∧ t.fidr = 0 ∧ t.optlen = 0 ∧ t.niblen = 0 ∧ t.nrzlen = 0 ∧ t.uslen = 0 ∧ t.axlen = 0 ∧ t.crcr = 0 ∧
      t.fcsr = 0 ∧ ∀ b k, (t.buf b).read k = none) ∧
  (∀ n, hostRegRead State.reset n = 0) ∧ ∀ b k, (State.reset.buf b).read k = none

/-- 10_state R37: what each command does when it is the first thing after reset; none stops. -/
def Obligations.CommandsFromReset : Prop :=
  (∀ i ∈ [Instr.flen, .fid, .odlen, .odget, .fenc],
    exec i State.reset = .next { State.reset with status := 0x0001#16, result := 0xFFFF#16 }) ∧
  exec .nrzi State.reset = .next { State.reset with status := 0x0001#16 } ∧
  exec .brev State.reset = .next { State.reset with status := 0x0001#16 } ∧
  exec .unstf State.reset = .next { State.reset with status := 0x0015#16, result := 1 } ∧
  (∃ t, exec .crcchk State.reset = .next t ∧ t.status = 0x0009#16 ∧ t.result = 2 ∧ t.axlen = 9) ∧
  (∃ t, exec .ax25 State.reset = .next t ∧ t.status = 0x0015#16 ∧ t.result = 1 ∧ t.axlen = 11)

/-! ### The Frame Codec -/

/-- 40 R109: FLEN, every case. -/
def Obligations.FlenRule : Prop :=
  ∀ s : State,
    (LengthTooBig s .flen → exec .flen s = .next { s with status := 0x0041#16 }) ∧
    (¬ LengthTooBig s .flen → ¬ CallsignOk s →
      exec .flen s = .next { s with status := 0x0001#16, result := 0xFFFF#16 }) ∧
    (¬ LengthTooBig s .flen → CallsignOk s →
      exec .flen s = .next { s with
        status := 0x0001#16,
        result := BitVec.ofNat 16 (s.c + 1 + (if s.n > 0 then 1 + s.n else 0) +
          (if s.pwP = true then s.p + (if s.n = 0 then 1 else 0) + (16 - (1 + s.n + s.p) % 16) else 0)) })

/-- 40 R111: with a password, what FLEN counts after callsign and function id is a positive multiple of 16. -/
def Obligations.FlenCountsWholeBlocks : Prop :=
  ∀ s : State, FcpLengthsOk s → CallsignOk s → s.pwP = true →
    ∃ t, exec .flen s = .next t ∧ (t.result.toNat - s.c - 1) % 16 = 0 ∧ 16 ≤ t.result.toNat - s.c - 1

/-- 41 R120, 40 R102, R112: the preamble FID, ODLEN and ODGET share, in its order. -/
def Obligations.ParserPreamble : Prop :=
  ∀ (s : State) (i : Instr), i ∈ [Instr.fid, .odlen, .odget] →
    (LengthTooBig s i → exec i s = .next { s with status := 0x0041#16 }) ∧
    (¬ LengthTooBig s i → ¬ CallsignOk s → exec i s = .next { s with status := 0x0001#16, result := 0xFFFF#16 }) ∧
    (¬ LengthTooBig s i → CallsignOk s → s.frameLen < s.c + 1 →
      exec i s = .next { s with status := 0x0001#16, result := 0xFFFE#16 })

/-- 41 R121: FID, every case. The result is the frame's byte at index `c`, zero-extended, whatever the first `c` bytes, buffer CS, KEY_P
and PW_P are. -/
def Obligations.FidResult : Prop :=
  ∀ s : State,
    (LengthTooBig s .fid → exec .fid s = .next { s with status := 0x0041#16 }) ∧
    (¬ LengthTooBig s .fid → ¬ CallsignOk s → exec .fid s = .next { s with status := 0x0001#16, result := 0xFFFF#16 }) ∧
    (¬ LengthTooBig s .fid → CallsignOk s → s.frameLen < s.c + 1 →
      exec .fid s = .next { s with status := 0x0001#16, result := 0xFFFE#16 }) ∧
    (∀ f : Byte, ¬ LengthTooBig s .fid → CallsignOk s → s.c + 1 ≤ s.frameLen → s.fr.read s.c = some f →
      exec .fid s = .next { s with status := 0x0001#16, result := f.setWidth 16 })

/-- 41 R122: ODLEN on the unencrypted path, both cases; the length byte is at index `c + 1` and is compared as an integer. -/
def Obligations.OdlenClear : Prop :=
  ∀ s : State, ¬ LengthTooBig s .odlen → CallsignOk s → ¬ Encrypted s →
    (s.frameLen = s.c + 1 → exec .odlen s = .next { s with status := 0x0001#16, result := 0 }) ∧
    (∀ d : Byte, s.c + 1 < s.frameLen → s.fr.read (s.c + 1) = some d →
      exec .odlen s = .next { s with
        status := 0x0001#16,
        result := if d.toNat = s.frameLen - s.c - 2 then d.setWidth 16 else 0xFFFC#16 })

/-- 41 R123, R124: ODLEN on the encrypted path: no section; a section too short for its length byte and password; and a section
that is decrypted, password first, then the declared length. `dec` is the free cipher function of `Config.core`. -/
def Obligations.OdlenEncrypted : Prop :=
  ∀ s : State, ¬ LengthTooBig s .odlen → CallsignOk s → Encrypted s →
    (s.frameLen = s.c + 1 → exec .odlen s = .next { s with status := 0x0001#16, result := 0 }) ∧
    (s.c + 1 < s.frameLen → s.frameLen - s.c - 1 < 1 + s.p →
      exec .odlen s = .next { s with status := 0x0001#16, result := 0xFFFE#16 }) ∧
    (∀ key ct pw : List Byte, Holds s .key 0 key → key.length = Config.core.keyBytes → Holds s .fr (s.c + 1) ct →
      s.c + 1 + ct.length = s.frameLen → Holds s .pw 0 pw → pw.length = s.p → 1 + s.p ≤ ct.length →
      exec .odlen s = .next { s with
        status := 0x0001#16,
        result :=
          if ((Config.core.dec key ct).drop 1).take s.p ≠ pw then 0xFFFD#16
          else if ((Config.core.dec key ct).headD 0).toNat < s.p then 0xFFFC#16
          else BitVec.ofNat 16 (((Config.core.dec key ct).headD 0).toNat - s.p) })

/-- 41 R125, R126: ODGET on the unencrypted path: callsign mismatch, no optional data, wrong length byte, success. -/
def Obligations.OdgetClear : Prop :=
  ∀ (s : State) (got want : List Byte), ¬ LengthTooBig s .odget → CallsignOk s → ¬ Encrypted s → s.c + 1 ≤ s.frameLen →
    Holds s .fr 0 got → got.length = s.c → Holds s .cs 0 want → want.length = s.c →
    (got ≠ want → exec .odget s = .next { s with status := 0x0001#16, result := 0xFFFF#16 }) ∧
    (got = want → s.frameLen = s.c + 1 →
      exec .odget s = .next { s with status := 0x0001#16, result := 0, optlen := 0 }) ∧
    (∀ d : Byte, got = want → s.c + 2 ≤ s.frameLen → s.fr.read (s.c + 1) = some d →
      (d.toNat ≠ s.frameLen - s.c - 2 →
        exec .odget s = .next { s with status := 0x0001#16, result := 0xFFFC#16 }) ∧
      (∀ payload : List Byte, d.toNat = s.frameLen - s.c - 2 → Holds s .fr (s.c + 2) payload → payload.length = d.toNat →
        ∃ m, exec .odget s = .next { s with status := 0x0001#16, result := 0, optlen := d, od := m } ∧
          Holds { s with od := m } .od 0 payload ∧ Untouched s { s with od := m } .od 0 d.toNat))

/-- 41 R125: ODGET on the encrypted path: no section; section too short; wrong password; declared length below the password's; declared
bytes that do not fit; success. The callsign bytes are not compared. -/
def Obligations.OdgetEncrypted : Prop :=
  ∀ s : State, ¬ LengthTooBig s .odget → CallsignOk s → Encrypted s →
    (s.frameLen = s.c + 1 → exec .odget s = .next { s with status := 0x0001#16, result := 0, optlen := 0 }) ∧
    (s.c + 1 < s.frameLen → s.frameLen - s.c - 1 < 1 + s.p →
      exec .odget s = .next { s with status := 0x0001#16, result := 0xFFFE#16 }) ∧
    (∀ key ct pw sec : List Byte, Holds s .key 0 key → key.length = Config.core.keyBytes → Holds s .fr (s.c + 1) ct →
      s.c + 1 + ct.length = s.frameLen → Holds s .pw 0 pw → pw.length = s.p → 1 + s.p ≤ ct.length →
      sec = Config.core.dec key ct →
      ∃ t, exec .odget s = .next t ∧
        (if (sec.drop 1).take s.p ≠ pw then t = { s with status := 0x0001#16, result := 0xFFFD#16 }
        else if (sec.headD 0).toNat < s.p then t = { s with status := 0x0001#16, result := 0xFFFC#16 }
        else if ct.length < 1 + (sec.headD 0).toNat then t = { s with status := 0x0001#16, result := 0xFFFE#16 }
        else
          t = { s with status := 0x0001#16, result := 0, optlen := t.optlen, od := t.od } ∧
          t.optlen.toNat = (sec.headD 0).toNat - s.p ∧
          (∀ k, k < (sec.headD 0).toNat - s.p → t.od.read k = sec[1 + s.p + k]?) ∧
          Untouched s t .od 0 ((sec.headD 0).toNat - s.p)))

/-- 42 R141: FENC's tests in their order. -/
def Obligations.FencTests : Prop :=
  ∀ s : State,
    (LengthTooBig s .fenc → exec .fenc s = .next { s with status := 0x0041#16 }) ∧
    (¬ LengthTooBig s .fenc → ¬ CallsignOk s →
      exec .fenc s = .next { s with status := 0x0001#16, result := 0xFFFF#16 }) ∧
    (¬ LengthTooBig s .fenc → CallsignOk s → ¬ (s.n > 0 ↔ s.odP = true) →
      exec .fenc s = .next { s with status := 0x0001#16, result := 0xFFFE#16 }) ∧
    (¬ LengthTooBig s .fenc → CallsignOk s → (s.n > 0 ↔ s.odP = true) → Encrypted s → s.n + s.p > 255 →
      exec .fenc s = .next { s with status := 0x0001#16, result := 0xFFFE#16 })

/-- 42 R142, 40 R100: the frame FENC builds on the unencrypted path, without and with optional data. -/
def Obligations.FencClear : Prop :=
  ∀ (s : State) (cs od frame : List Byte), ¬ LengthTooBig s .fenc → CallsignOk s → (s.n > 0 ↔ s.odP = true) →
    ¬ Encrypted s → Holds s .cs 0 cs → cs.length = s.c → Holds s .od 0 od → od.length = s.n →
    frame = (if s.n = 0 then cs ++ [s.fidr] else cs ++ [s.fidr] ++ [s.optlen] ++ od) →
    ∃ m, exec .fenc s = .next { s with
        status := 0x0001#16, result := 0, frlen := BitVec.ofNat 16 frame.length, fr := m } ∧
      Holds { s with fr := m } .fr 0 frame ∧ Untouched s { s with fr := m } .fr 0 frame.length

/-- 42 R143, 40 R101, R104, R107: the frame FENC builds on the encrypted path. The padding is the next `16 - ((1 + n + p) mod 16)`
bytes of the random port, free values; `enc` is the free cipher function of `Config.core`. -/
def Obligations.FencEncrypted : Prop :=
  ∀ (s : State) (cs pw od key pad frame : List Byte), ¬ LengthTooBig s .fenc → CallsignOk s →
    (s.n > 0 ↔ s.odP = true) → Encrypted s → s.n + s.p ≤ 255 →
    Holds s .cs 0 cs → cs.length = s.c → Holds s .pw 0 pw → pw.length = s.p → Holds s .od 0 od → od.length = s.n →
    Holds s .key 0 key → key.length = Config.core.keyBytes →
    pad = (List.range (16 - (1 + s.n + s.p) % 16)).map (fun j => Config.freePadByte (s.draws + j)) →
    frame = cs ++ [s.fidr] ++ Config.core.enc key ([BitVec.ofNat 8 (s.n + s.p)] ++ pw ++ od ++ pad) →
    ∃ m, exec .fenc s = .next { s with
        status := 0x0001#16, result := 0, frlen := BitVec.ofNat 16 frame.length, fr := m,
        draws := s.draws + pad.length } ∧
      Holds { s with fr := m } .fr 0 frame ∧ Untouched s { s with fr := m } .fr 0 frame.length

/-- 42 R147: the longest frame FENC builds, on each path: a section of at most 272 bytes, and every frame fits buffer FR. -/
def Obligations.FencFrameFits : Prop :=
  ∀ s t : State, exec .fenc s = .next t → t.status = 0x0001#16 → t.result = 0 →
    s.c ≤ Config.core.csMax ∧ s.c + 1 ≤ t.frlen.toNat ∧ t.frlen.toNat - s.c - 1 ≤ 272 ∧
    (¬ Encrypted s → t.frlen.toNat ≤ s.c + 257) ∧ t.frlen.toNat ≤ Config.core.frameMax

/-- 40 R113: with KEY_P = PW_P the length FLEN returns is the length of the frame FENC builds; with PW_P = 1 and KEY_P = 0 it is
not. -/
def Obligations.FlenAgreesWithFenc : Prop :=
  ∀ s t : State, exec .fenc s = .next t → t.status = 0x0001#16 → t.result = 0 →
    ∃ u, exec .flen s = .next u ∧ u.status = 0x0001#16 ∧ (s.keyP = s.pwP → u.result = t.frlen) ∧
      (s.pwP = true → s.keyP = false → u.result ≠ t.frlen)

/-- 42 R148: the round trip without encryption. After FENC succeeds, in every later state that keeps CS, CSLEN, FR and FRLEN, with the
callsign present and key and password absent, whatever else the host changed: FID, ODLEN and ODGET give back the function id,
the length and the optional data. -/
def Obligations.RoundTripClear : Prop :=
  ∀ s t w : State, s.keyP = false → s.pwP = false → exec .fenc s = .next t → t.status = 0x0001#16 → t.result = 0 →
    KeepsFrame t w → w.cs = t.cs → w.keyP = false → w.pwP = false →
    exec .fid w = .next { w with status := 0x0001#16, result := s.fidr.setWidth 16 } ∧
    exec .odlen w = .next { w with status := 0x0001#16, result := s.optlen.setWidth 16 } ∧
    ∃ u, exec .odget w = .next u ∧ u.status = 0x0001#16 ∧ u.result = 0 ∧ u.optlen = s.optlen ∧
      ∀ k, k < s.n → u.od.read k = s.od.read k

/-- 42 R149: the encrypted round trip, for every configuration whose cipher is a matched pair (40 R106) and whose longest frame fits the
16 bits of FRLEN (`C.csMax + 273 < 65536`, log 21), for every choice of the drawn padding, in every later state that keeps
CSLEN, FR, FRLEN, KEY, PW and PWLEN and all three present. `fencWith`, `fidWith`, `odlenWith` and `odgetWith` at `Config.core`
are the commands of `exec`. -/
def Obligations.RoundTripEncrypted : Prop :=
  ∀ (C : Config) (s t w : State), C.wf = true → C.csMax + 273 < 65536 → C.Matched →
    Encrypted s → fencWith C s = .next t → t.status = 0x0001#16 → t.result = 0 →
    KeepsFrame t w → Encrypted w → w.key = t.key → w.pw = t.pw → w.pwlen = t.pwlen →
    fidWith C w = .next { w with status := 0x0001#16, result := s.fidr.setWidth 16 } ∧
    odlenWith C w = .next { w with status := 0x0001#16, result := s.optlen.setWidth 16 } ∧
    ∃ u, odgetWith C w = .next u ∧ u.status = 0x0001#16 ∧ u.result = 0 ∧ u.optlen = s.optlen ∧
      ∀ k, k < s.n → u.od.read k = s.od.read k

/-- 42 R149, second part: under the same hypotheses (`C.csMax + 273 < 65536` among them, log 21) but with another password of the same
length, the decode of that frame gives ERR_INCORRECT_PASSWORD. -/
def Obligations.WrongPasswordRejected : Prop :=
  ∀ (C : Config) (s t w : State) (pw pw' : List Byte), C.wf = true → C.csMax + 273 < 65536 → C.Matched →
    Encrypted s → fencWith C s = .next t → t.status = 0x0001#16 → t.result = 0 → Holds s .pw 0 pw → pw.length = s.p →
    KeepsFrame t w → Encrypted w → w.key = t.key → w.pwlen = t.pwlen →
    Holds w .pw 0 pw' → pw'.length = w.p → pw' ≠ pw →
    odlenWith C w = .next { w with status := 0x0001#16, result := 0xFFFD#16 } ∧
    odgetWith C w = .next { w with status := 0x0001#16, result := 0xFFFD#16 }

/-- 60_exceptions R232: a negative RESULT after a Frame Codec command is one of the four codes; a non-negative one is a value, 0 after
ODGET and FENC, a byte after FID and ODLEN, after FLEN a length from c + 1 to `CS_MAX` + `PW_MAX` + 273 (40 R110 item 5). -/
def Obligations.FcpResultIsCodeOrValue : Prop :=
  ∀ (i : Instr) (s t : State), i ∈ [Instr.flen, .fid, .odlen, .odget, .fenc] → exec i s = .next t →
    t.status = 0x0001#16 →
    (t.result.toInt < 0 → t.result ∈ [0xFFFF#16, 0xFFFE#16, 0xFFFD#16, 0xFFFC#16]) ∧
    (0 ≤ t.result.toInt → (i = .odget ∨ i = .fenc → t.result = 0) ∧
      (i = .fid ∨ i = .odlen → t.result.toNat ≤ 255) ∧
      (i = .flen → s.c + 1 ≤ t.result.toNat ∧ t.result.toNat ≤ Config.core.csMax + Config.core.pwMax + 273))

/-! ### The link decoder -/

/-- 44 R170, R172, R173: NRZI on hexadecimal text. Input byte `i` is the two nibbles of characters `2i` (high) and `2i + 1`; output bit `j`
is 1 iff input bits `j - 1` and `j` are equal, the bit before the first being 0. -/
def Obligations.NrziResult : Prop :=
  ∀ (s : State) (text : List Byte) (raw : List Byte), s.niblen.toNat ≤ Config.core.nibMax → Holds s .bits 0 text →
    text.length = 2 * (s.niblen.toNat / 2) → raw.length = s.niblen.toNat / 2 →
    (∀ i, (h : i < raw.length) → (text[2 * i]?).bind nibval = some (raw[i].extractLsb' 4 4) ∧
      (text[2 * i + 1]?).bind nibval = some (raw[i].extractLsb' 0 4)) →
    ∃ (m : Mem) (out : List Byte),
      exec .nrzi s = .next { s with
        status := 0x0001#16, result := 0, nrzlen := BitVec.ofNat 16 (s.niblen.toNat / 2), nrz := m } ∧
      Holds { s with nrz := m } .nrz 0 out ∧ Untouched s { s with nrz := m } .nrz 0 out.length ∧
      out.length = raw.length ∧
      ∀ j, j < 8 * raw.length →
        (bitsOf out)[j]? = some ((bitsOf raw).getD j false == (if j = 0 then false else (bitsOf raw).getD (j - 1) false))

/-- 44 R171: malformed input text. NIBLEN above `NIB_MAX`: BAD_LENGTH, before the characters are looked at. A character that is not a
hexadecimal digit among the first `2 * floor(NIBLEN / 2)`: BAD_CHAR, STATUS only. An odd last character is ignored: the command
does what it does with NIBLEN one less. -/
def Obligations.MalformedHexText : Prop :=
  ∀ (i : Instr) (s : State), i = .nrzi ∨ i = .ax25 →
    (LengthTooBig s i → exec i s = .next { s with status := 0x0041#16 }) ∧
    (∀ (text : List Byte) (ch : Byte), s.niblen.toNat ≤ Config.core.nibMax → Holds s .bits 0 (text ++ [ch]) →
      text.length < 2 * (s.niblen.toNat / 2) → nibval ch = none → exec i s = .next { s with status := 0x0061#16 }) ∧
    (∀ t, s.niblen.toNat ≤ Config.core.nibMax → s.niblen.toNat % 2 = 1 →
      exec i { s with niblen := s.niblen - 1 } = .next t → exec i s = .next { t with niblen := s.niblen })

/-- 44 R176: the transform of NRZI undoes NRZ-S encoding started from level 0, for every bit sequence, hence for every byte sequence. -/
def Obligations.NrziUndoesNrzs : Prop :=
  (∀ d : List Bool, nrziBits false (nrzsBits false d) = d) ∧
  ∀ line : List Byte, nrziBytes (nrzsBytes line) = line ∧ (nrzsBytes line).length = line.length

/-- 44 R177, R179: the synchword example, and that NRZI applied twice is not the identity. -/
def Obligations.NrziTwiceIsNotIdentity : Prop :=
  nrzsBytes [0x7E#8, 0x49#8, 0x39#8] = [0xFE#8, 0xDB#8, 0x7B#8] ∧
  nrziBytes [0xFE#8, 0xDB#8, 0x7B#8] = [0x7E#8, 0x49#8, 0x39#8] ∧
  nrziBytes [0x7E#8, 0x49#8, 0x39#8] = [0xBE#8, 0x92#8, 0x5A#8] ∧
  nrziBytes [0xBE#8, 0x92#8, 0x5A#8] = [0x1E#8, 0x24#8, 0x88#8] ∧ ¬ ∀ raw, nrziBytes (nrziBytes raw) = raw

/-- 45 R186: UNSTF completes whenever its input bytes after the first are there; it answers 0 or 1 in RESULT, BITSTUFF and LST alike, and
writes the complete bytes and their count in either case. -/
def Obligations.UnstfCompletes : Prop :=
  ∀ (s : State) (bytes : List Byte), s.nrzlen.toNat ≤ Config.core.bytesMax → Holds s .nrz 1 bytes → bytes.length = s.nrzlen.toNat - 1 →
    ∃ (m : Mem) (out : List Byte) (bad : Bool),
      exec .unstf s = .next { s with
        status := if bad then 0x0015#16 else 0x0001#16, result := if bad then 1 else 0,
        uslen := BitVec.ofNat 16 out.length, us := m } ∧
      (bad, out) = unstuff bytes ∧ out.length ≤ s.nrzlen.toNat - 1 ∧
      Holds { s with us := m } .us 0 out ∧ Untouched s { s with us := m } .us 0 out.length

/-- 45 R185: with a closing flag after the stuffed bits `d`, the unstuffer reports success exactly when `d` is a whole number of bytes, and
its output is the whole bytes of `d` followed by the flag's six emitted bits. -/
def Obligations.UnstuffAlignment : Prop :=
  ∀ (d tail : List Bool) (bytes : List Byte), bitsOf bytes = stuff d ++ flagBits ++ tail →
    unstuff bytes = (decide (d.length % 8 ≠ 0), pack (d ++ [false, true, true, true, true, true]))

/-- 45 R192: UNSTF inverts HDLC stuffing of whole bytes, whatever the skipped first byte and the bits after the flag. -/
def Obligations.UnstfInvertsStuffing : Prop :=
  ∀ (s : State) (first : Byte) (data : List Byte) (tail : List Bool) (line : List Bool),
    line = stuff (bitsOf data) ++ [false, true, true, true, true, true, true, false] ++ tail → line.length % 8 = 0 →
    Holds s .nrz 0 (first :: pack line) → s.nrzlen.toNat = 1 + (pack line).length → s.nrzlen.toNat ≤ Config.core.bytesMax →
    ∃ t, exec .unstf s = .next t ∧ t.status = 0x0001#16 ∧ t.result = 0 ∧ t.uslen.toNat = data.length ∧ Holds t .us 0 data

/-- 45 R188, R189: no closing flag, FRAME_ERROR. The scanned bits hold no six consecutive ones (they end before any flag, or right after
five ones); or six ones end the input; or seven ones come. And R187: US and USLEN hold the complete bytes of the bits emitted,
which are `d` where the input ends with the stuffed bits of `d`, and `d` and five ones where the run of ones that ends the scan
stands after a stuffed `d` that does not itself end in a one. -/
def Obligations.NoClosingFlagIsFrameError : Prop :=
  ∀ (s : State) (bytes : List Byte), s.nrzlen.toNat ≤ Config.core.bytesMax → Holds s .nrz 1 bytes →
    bytes.length = s.nrzlen.toNat - 1 →
    ((∀ before after : List Bool, bitsOf bytes ≠ before ++ List.replicate 6 true ++ after) ∨
        (∃ d, bitsOf bytes = stuff d ++ List.replicate 6 true) ∨
        (∃ d tail, bitsOf bytes = stuff d ++ List.replicate 7 true ++ tail) →
      ∃ t, exec .unstf s = .next t ∧ t.status = 0x0015#16 ∧ t.result = 1) ∧
    (∀ d emitted : List Bool,
      (bitsOf bytes = stuff d ∧ emitted = d) ∨
        ((stuff d).getLast? ≠ some true ∧ emitted = d ++ List.replicate 5 true ∧
          (bitsOf bytes = stuff d ++ List.replicate 5 true ∨ bitsOf bytes = stuff d ++ List.replicate 6 true ∨
            ∃ tail, bitsOf bytes = stuff d ++ List.replicate 7 true ++ tail)) →
      ∃ m, exec .unstf s = .next { s with
          status := 0x0015#16, result := 1, uslen := BitVec.ofNat 16 (pack emitted).length, us := m } ∧
        Holds { s with us := m } .us 0 (pack emitted) ∧ Untouched s { s with us := m } .us 0 (pack emitted).length)

/-- 46 R196: BREV, every case. Bit `k` of each output byte is bit `7 - k` of the input byte; the order of the bytes stays; US stays. -/
def Obligations.BrevResult : Prop :=
  ∀ s : State,
    (LengthTooBig s .brev → exec .brev s = .next { s with status := 0x0041#16 }) ∧
    (∀ bytes : List Byte, s.uslen.toNat ≤ Config.core.bytesMax → Holds s .us 0 bytes → bytes.length = s.uslen.toNat →
      ∃ (m : Mem) (out : List Byte),
        exec .brev s = .next { s with status := 0x0001#16, result := 0, axlen := s.uslen, ax := m } ∧
        Holds { s with ax := m } .ax 0 out ∧ Untouched s { s with ax := m } .ax 0 out.length ∧ out.length = bytes.length ∧
        ∀ j k, (h : j < bytes.length) → k < 8 → (out.getD j 0).getLsbD k = (bytes[j]).getLsbD (7 - k))

/-- 46 R199: the values the rule lists for `crc16`, the published check value among them. -/
def Obligations.CrcValues : Prop :=
  crc16 [] = 0xFFFF#16 ∧ crc16 [0x00#8] = 0xE1F0#16 ∧ crc16 [0xFF#8] = 0xFF00#16 ∧ crc16 [0x41#8] = 0xB915#16 ∧
  crc16 [0x92#8, 0x9C#8] = 0x21B3#16 ∧ crc16 [0xFF#8, 0x1F#8, 0xF8#8] = 0x7EA5#16 ∧
  crc16 [0x31#8, 0x32#8, 0x33#8, 0x34#8, 0x35#8, 0x36#8, 0x37#8, 0x38#8, 0x39#8] = 0x29B1#16

/-- 46 R201 to R204: CRCCHK, every case: too few bytes, mismatch, match. -/
def Obligations.CrcchkRule : Prop :=
  ∀ s : State,
    (LengthTooBig s .crcchk → exec .crcchk s = .next { s with status := 0x0041#16 }) ∧
    (s.axlen.toNat < 2 →
      ∃ m, exec .crcchk s = .next { s with
          status := 0x0009#16, result := 2, axlen := 9, crcr := 0, fcsr := 0, ax := m } ∧
        Holds { s with ax := m } .ax 0 [0x43#8, 0x52#8, 0x43#8, 0x20#8, 0x65#8, 0x72#8, 0x72#8, 0x6F#8, 0x72#8] ∧
        Untouched s { s with ax := m } .ax 0 9) ∧
    (∀ (payload : List Byte) (hi lo : Byte), s.axlen.toNat ≤ Config.core.axMax → s.axlen.toNat = payload.length + 2 →
      Holds s .ax 0 (payload ++ [hi, lo]) →
      ((crc16 payload).toNat = hi.toNat * 256 + lo.toNat →
        exec .crcchk s = .next { s with
          status := 0x0001#16, result := 0, axlen := BitVec.ofNat 16 payload.length, crcr := crc16 payload,
          fcsr := crc16 payload }) ∧
      ((crc16 payload).toNat ≠ hi.toNat * 256 + lo.toNat →
        ∃ m, exec .crcchk s = .next { s with
            status := 0x0009#16, result := 2, axlen := 9, crcr := crc16 payload,
            fcsr := BitVec.ofNat 16 (hi.toNat * 256 + lo.toNat), ax := m } ∧
          Holds { s with ax := m } .ax 0 [0x43#8, 0x52#8, 0x43#8, 0x20#8, 0x65#8, 0x72#8, 0x72#8, 0x6F#8, 0x72#8] ∧
          Untouched s { s with ax := m } .ax 0 9))

/-- 46 R205: in a buffer that passes, any other trailer with the same payload, and any change within one byte of the payload, is reported
as CRC_ERROR (a single flipped bit of either among them). -/
def Obligations.CorruptedFrameDetected : Prop :=
  ∀ (s t : State) (m : Mem) (payload payload' : List Byte) (hi lo hi' lo' : Byte), s.axlen.toNat = payload.length + 2 →
    Holds s .ax 0 (payload ++ [hi, lo]) → exec .crcchk s = .next t → t.status = 0x0001#16 →
    Holds { s with ax := m } .ax 0 (payload' ++ [hi', lo']) →
    (payload' = payload ∧ (hi', lo') ≠ (hi, lo)) ∨
      ((hi', lo') = (hi, lo) ∧
        ∃ (pre post : List Byte) (v v' : Byte), payload = pre ++ [v] ++ post ∧ payload' = pre ++ [v'] ++ post ∧ v ≠ v') →
    ∃ u, exec .crcchk { s with ax := m } = .next u ∧ u.lst = 2 ∧ u.result = 2

/-- 47 R211, R215: AX25 equals NRZI, UNSTF, BREV, then CRCCHK if BITSTUFF read 0, else "Frame error". -/
def Obligations.Ax25IsTheStages : Prop :=
  ∀ s t1 : State, exec .nrzi s = .next t1 → t1.status = 0x0001#16 →
    ∃ t2 t3, exec .unstf t1 = .next t2 ∧ exec .brev t2 = .next t3 ∧
      (t2.bitstuff = false → exec .ax25 s = exec .crcchk t3) ∧
      (t2.bitstuff = true →
        ∃ m, exec .ax25 s = .next { t3 with
            status := 0x0015#16, result := 1, axlen := 11, crcr := 0, fcsr := 0, ax := m } ∧
          Holds { t3 with ax := m } .ax 0
            [0x46#8, 0x72#8, 0x61#8, 0x6D#8, 0x65#8, 0x20#8, 0x65#8, 0x72#8, 0x72#8, 0x6F#8, 0x72#8] ∧
          Untouched t3 { t3 with ax := m } .ax 0 11)

/-- 47 R211, R212, R221: AX25 completes on every hexadecimal capture, in exactly one of three ways that LST, RESULT, BITSTUFF and AX
report alike. -/
def Obligations.Ax25ThreeOutcomes : Prop :=
  ∀ (s : State) (text : List Byte), s.niblen.toNat ≤ Config.core.nibMax → Holds s .bits 0 text →
    text.length = 2 * (s.niblen.toNat / 2) → (∀ ch ∈ text, nibval ch ≠ none) →
    ∃ t, exec .ax25 s = .next t ∧ t.nrzlen.toNat = s.niblen.toNat / 2 ∧ t.uslen.toNat ≤ t.nrzlen.toNat - 1 ∧
      ((t.status = 0x0001#16 ∧ t.result = 0 ∧ t.axlen.toNat + 2 = t.uslen.toNat ∧ t.crcr = t.fcsr) ∨
       (t.status = 0x0015#16 ∧ t.result = 1 ∧ t.axlen = 11 ∧ t.crcr = 0 ∧ t.fcsr = 0 ∧ Holds t .ax 0 frameErrorText) ∨
       (t.status = 0x0009#16 ∧ t.result = 2 ∧ t.axlen = 9 ∧ (t.crcr ≠ t.fcsr ∨ t.uslen.toNat < 2) ∧
         Holds t .ax 0 crcErrorText))

/-- 47 R218: the end-to-end property. A frame with its CRC trailer, bit-reversed, stuffed, between flags, NRZ-S encoded from level 0 and
written as upper-case hexadecimal text decodes to the frame; the first channel byte is 0xFE. -/
def Obligations.Ax25EndToEnd : Prop :=
  ∀ (s : State) (frame : List Byte) (fill : List Bool), (lineBits frame fill).length % 8 = 0 →
    Holds s .bits 0 (hexText (channelBytes frame fill)) →
    s.niblen.toNat = (hexText (channelBytes frame fill)).length → s.niblen.toNat ≤ Config.core.nibMax →
    (channelBytes frame fill).head? = some 0xFE#8 ∧ ∃ t, exec .ax25 s = .next t ∧ t.status = 0x0001#16 ∧ t.result = 0 ∧ t.axlen.toNat = frame.length ∧
      Holds t .ax 0 frame ∧ t.crcr = crc16 frame ∧ t.fcsr = crc16 frame

/-! ### Frames: what each command leaves unchanged -/

/-- 10_state R35: FLEN, FID and ODLEN write STATUS and RESULT only; every byte of memory stays. -/
def Obligations.LengthCommandsFrame : Prop :=
  ∀ (i : Instr) (s t : State), i ∈ [Instr.flen, .fid, .odlen] → exec i s = .next t →
    t = { s with status := t.status, result := t.result } ∧ ∀ b k, (t.buf b).read k = (s.buf b).read k

/-- 10_state R35, 41 R125: ODGET writes STATUS, RESULT, OPTLEN and OD; OD only from index 0 to the count it reports, and neither OD nor
OPTLEN unless it succeeds. -/
def Obligations.OdgetFrame : Prop :=
  ∀ s t : State, exec .odget s = .next t →
    t = { s with status := t.status, result := t.result, optlen := t.optlen, od := t.od } ∧
    (t.status ≠ 0x0001#16 ∨ t.result ≠ 0 → t.optlen = s.optlen ∧ ∀ k, t.od.read k = s.od.read k) ∧
    (t.status = 0x0001#16 → t.result = 0 → Untouched s t .od 0 t.optlen.toNat)

/-- 10_state R35, 42 R144: FENC writes STATUS, RESULT, FRLEN and FR (and the model's count of drawn bytes); FR only from index 0 to the
length it reports, and neither FR nor FRLEN unless it succeeds. -/
def Obligations.FencFrame : Prop :=
  ∀ s t : State, exec .fenc s = .next t →
    t = { s with status := t.status, result := t.result, frlen := t.frlen, fr := t.fr, draws := t.draws } ∧
    (t.status ≠ 0x0001#16 ∨ t.result ≠ 0 → t.frlen = s.frlen ∧ t.draws = s.draws ∧ ∀ k, t.fr.read k = s.fr.read k) ∧
    (t.status = 0x0001#16 → t.result = 0 → Untouched s t .fr 0 t.frlen.toNat)

/-- 10_state R35, 20_memory R72: NRZI, UNSTF and BREV write STATUS, RESULT, their output length and their output buffer, that from index 0
to the length they write and no byte above. -/
def Obligations.StageFrames : Prop :=
  ∀ s t : State,
    (exec .nrzi s = .next t →
      t = { s with status := t.status, result := t.result, nrzlen := t.nrzlen, nrz := t.nrz } ∧
      Untouched s t .nrz 0 t.nrzlen.toNat) ∧
    (exec .unstf s = .next t →
      t = { s with status := t.status, result := t.result, uslen := t.uslen, us := t.us } ∧
      Untouched s t .us 0 t.uslen.toNat) ∧
    (exec .brev s = .next t →
      t = { s with status := t.status, result := t.result, axlen := t.axlen, ax := t.ax } ∧
      Untouched s t .ax 0 t.axlen.toNat)

/-- 10_state R35, 46 R203, R204: CRCCHK writes STATUS, RESULT, AXLEN, CRCR, FCSR, and of AX the first nine bytes on CRC_ERROR, else
none. -/
def Obligations.CrcchkFrame : Prop :=
  ∀ s t : State, exec .crcchk s = .next t →
    t = { s with
      status := t.status, result := t.result, axlen := t.axlen, crcr := t.crcr, fcsr := t.fcsr, ax := t.ax } ∧
    Untouched s t .ax 0 9 ∧ (t.lst ≠ 2 → ∀ k, t.ax.read k = s.ax.read k)

/-- 10_state R35, 47 R213, R214: AX25 writes STATUS, RESULT, NRZLEN, USLEN, AXLEN, CRCR, FCSR and the buffers NRZ, US and AX; NRZ and US up to
the lengths it writes; AX up to USLEN (stage 3) and, on an error, up to the text's length. -/
def Obligations.Ax25Frame : Prop :=
  ∀ s t : State, exec .ax25 s = .next t →
    t = { s with
      status := t.status, result := t.result, nrzlen := t.nrzlen, uslen := t.uslen, axlen := t.axlen, crcr := t.crcr,
      fcsr := t.fcsr, nrz := t.nrz, us := t.us, ax := t.ax } ∧
    Untouched s t .nrz 0 t.nrzlen.toNat ∧ Untouched s t .us 0 t.uslen.toNat ∧
    Untouched s t .ax 0 (max t.uslen.toNat (if t.lst = 0 then 0 else t.axlen.toNat)) ∧
    (t.sf ≠ 0 → t = { s with status := t.status })

/-! ### Rules of the whole machine -/

/-- 10_state R24, 93 U4: every command leaves DONE = 1, BUSY = 0, LST other than 3, SF at most 3, and the reserved bits 0. -/
def Obligations.EveryCommandWritesStatus : Prop :=
  ∀ (i : Instr) (s t : State), exec i s = .next t →
    t.done = true ∧ t.busy = false ∧ t.lst ≠ 3 ∧ t.sf.toNat ≤ 3 ∧ t.status.extractLsb' 8 8 = 0 ∧
    (t.bitstuff = true → i = .unstf ∨ i = .ax25) ∧ (t.lst ≠ 0 → i = .unstf ∨ i = .crcchk ∨ i = .ax25)

/-- 60_exceptions R225: a command that ends in a shell fault has changed STATUS only, and cleared LST and BITSTUFF. -/
def Obligations.ShellFaultChangesStatusOnly : Prop :=
  ∀ (i : Instr) (s t : State), exec i s = .next t → t.sf ≠ 0 →
    t = { s with status := t.status } ∧ t.done = true ∧ t.lst = 0 ∧ t.bitstuff = false

/-- 60_exceptions R225, R226: BAD_LENGTH is reported exactly under the conditions of the table, before any other test, and changes STATUS
only. -/
def Obligations.BadLengthExactly : Prop :=
  ∀ (i : Instr) (s : State),
    (LengthTooBig s i → exec i s = .next { s with status := 0x0041#16 }) ∧
    (∀ t, ¬ LengthTooBig s i → exec i s = .next t → t.sf ≠ 2)

/-- 10_state R25, 60_exceptions R221: after a link command without a shell fault RESULT holds the link status, zero-extended, and the
unstuffer's failure is FRAME_ERROR. -/
def Obligations.LinkResultIsLinkStatus : Prop :=
  ∀ (i : Instr) (s t : State), i ∈ [Instr.nrzi, .unstf, .brev, .crcchk, .ax25] → exec i s = .next t → t.sf = 0 →
    t.result = t.lst.setWidth 16 ∧ (t.bitstuff = true ↔ t.lst = 1)

/-- 10_state R21, R27, 20_memory R61: no command writes PRESENT, CSLEN, PWLEN, FIDR, NIBLEN or the buffers CS, PW, KEY, BITS, nor the host's
side of the port. -/
def Obligations.OperandsNeverWritten : Prop :=
  ∀ (i : Instr) (s t : State), exec i s = .next t →
    t.present = s.present ∧ t.cslen = s.cslen ∧ t.pwlen = s.pwlen ∧ t.fidr = s.fidr ∧ t.niblen = s.niblen ∧
    t.cs = s.cs ∧ t.pw = s.pw ∧ t.key = s.key ∧ t.bits = s.bits ∧ t.host = s.host ∧ t.hostData = s.hostData ∧
    t.resets = s.resets

/-- 10_state R34, R31: no command reads STATUS, CRCR, FCSR or RESULT. With another STATUS the whole outcome is the same; with other
values in the three diagnostic registers it is the same but for those registers where the command does not write them. -/
def Obligations.ResultsAreNeverRead : Prop :=
  (∀ (i : Instr) (s : State) (w : Word), exec i { s with status := w } = exec i s) ∧
  ∀ (i : Instr) (s t : State) (c f r : Word), exec i s = .next t →
    ∃ t', exec i { s with crcr := c, fcsr := f, result := r } = .next t' ∧
      t' = { t with crcr := t'.crcr, fcsr := t'.fcsr, result := t'.result } ∧
      (t'.crcr = t.crcr ∨ (t'.crcr = c ∧ t.crcr = s.crcr)) ∧ (t'.fcsr = t.fcsr ∨ (t'.fcsr = f ∧ t.fcsr = s.fcsr)) ∧
      (t'.result = t.result ∨ (t'.result = r ∧ t.result = s.result ∧ t.sf ≠ 0))

/-- 20_memory R73 (and R70, its instance the source states): changing bytes of a buffer at or above the length register that describes it
changes no command's outcome: not what it stops on, no register, no other buffer, and no byte of that buffer below its length. -/
def Obligations.ReadsStayBelowLength : Prop :=
  ∀ (i : Instr) (s : State) (b : BufId) (m : Mem), (∀ k, k < readBound s b → Mem.read m k = (s.buf b).read k) →
    SameBut b (exec i s) (exec i (s.setBuf b m))

/-- 10_state R38, 20_memory R73: a command stops only on a byte that nothing has written, below the length register that describes its
buffer, and is refused never. -/
def Obligations.StopsOnlyOnUnwrittenByte : Prop :=
  ∀ (i : Instr) (s : State),
    (∀ b k, exec i s = .fault (.unwrittenRead b k) → (s.buf b).read k = none ∧ k < readBound s b) ∧
    ∀ r, exec i s ≠ .refused r

/-- The invariant holds right after reset. -/
def Obligations.InvariantAtReset : Prop := Inv State.reset

/-- 20_memory R61, R62, 10_state R24, R25, 93 U4: from every state that meets the invariant, every step gives one that meets it: each
buffer in canonical form and within its capacity, STATUS a word a command can leave, RESULT in its range. -/
def Obligations.StepKeepsInvariant : Prop :=
  ∀ s t : State, Inv s → step s = .next t → Inv t

/-! ### The telemetry companion views -/

/-- 43 R157: an absent buffer, and a field that does not fit the buffer, yield 0. R158, R159, R160: the value of every field of the
FOSSA-1 layout that fits the buffer, exactly, whatever the buffer's length. -/
def Obligations.TelemetryValues : Prop :=
  (∀ f, tlmValue none f = 0) ∧
  (∀ (od : List Byte) (f : TlmField), od.length < tlmOffset f + tlmWidth (tlmShape f) → tlmValue (some od) f = 0) ∧
  ∀ od : List Byte,
    let u := fun o : Nat => (((od.getD o 0).toNat : Int) : Rat)
    let s2 := fun o : Nat =>
      (((if (od.getD (o + 1) 0).toNat < 128
          then ((od.getD o 0).toNat : Int) + 256 * ((od.getD (o + 1) 0).toNat : Int)
          else ((od.getD o 0).toNat : Int) + 256 * ((od.getD (o + 1) 0).toNat : Int) - 65536) : Int) : Rat)
    (1 ≤ od.length → tlmValue (some od) .batteryChargingVoltage = u 0 * 20 / 1000) ∧
    (3 ≤ od.length → tlmValue (some od) .batteryChargingCurrent = s2 1 * 10 / 1000000) ∧
    (4 ≤ od.length → tlmValue (some od) .batteryVoltage = u 3 * 20 / 1000) ∧
    (5 ≤ od.length → tlmValue (some od) .solarCellVoltage1 = u 4 * 20 / 1000) ∧
    (6 ≤ od.length → tlmValue (some od) .solarCellVoltage2 = u 5 * 20 / 1000) ∧
    (7 ≤ od.length → tlmValue (some od) .solarCellVoltage3 = u 6 * 20 / 1000) ∧
    (9 ≤ od.length → tlmValue (some od) .batteryTemperature = s2 7 * 10 / 1000) ∧
    (11 ≤ od.length → tlmValue (some od) .boardTemperature = s2 9 * 10 / 1000) ∧
    (12 ≤ od.length → tlmValue (some od) .mcuTemperature = (((od.getD 11 0).toInt : Int) : Rat)) ∧
    (14 ≤ od.length → tlmValue (some od) .resetCounter = s2 12) ∧
    (15 ≤ od.length → tlmValue (some od) .powerConfiguration = u 14)

/-- 43 R155, R157: a view of CORE's OD. Not produced by a successful ODGET, or OPTLEN below the field's offset plus its width: 0, whatever
has been written in OD. Otherwise the field's own bytes, and they alone, decide: if they hold what `od` has there, the view is
the field's value in `od`; a byte of them that nothing has written refuses the view (10_state R38; log 15). -/
def Obligations.TelemetryViewReadsItsField : Prop :=
  ∀ (C : Config) (s : State) (f : TlmField), C.hasTlm = true →
    tlmView C s .fossa1 false f = .ok 0 ∧
    (∀ produced, s.n < tlmOffset f + tlmWidth (tlmShape f) → tlmView C s .fossa1 produced f = .ok 0) ∧
    (∀ od : List Byte, tlmOffset f + tlmWidth (tlmShape f) ≤ s.n → od.length = s.n →
      (∀ k, tlmOffset f ≤ k → k < tlmOffset f + tlmWidth (tlmShape f) → s.od.read k = od[k]?) →
      tlmView C s .fossa1 true f = .ok (tlmValue (some od) f)) ∧
    (∀ k, tlmOffset f + tlmWidth (tlmShape f) ≤ s.n → tlmOffset f ≤ k → k < tlmOffset f + tlmWidth (tlmShape f) →
      s.od.read k = none → ∃ i, tlmView C s .fossa1 true f = .error (.unwritten i) ∧ tlmOffset f ≤ i ∧ i ≤ k)
end

