-- ==== Sys2Proof/Laws/Mem.lean ====
section
/-! SUPPORT. The laws of a buffer's storage: read after write, runs, and that every write keeps the canonical form and the
capacity. -/

namespace Sys2Proof.Machine

@[simp] theorem Mem.read_nil (a : Nat) : Mem.read [] a = none := rfl

theorem Mem.read_cons (k : Nat) (v : Byte) (m : Mem) (a : Nat) :
    Mem.read ((k, v) :: m) a = if a = k then some v else Mem.read m a := rfl

/-- Reading the index just written gives the byte written. -/
@[simp] theorem Mem.read_write_same (m : Mem) (a : Nat) (b : Byte) : (Mem.write m a b).read a = some b := by
  induction m with
  | nil => simp [Mem.write, Mem.read]
  | cons c m ih =>
    obtain ⟨k, v⟩ := c
    simp only [Mem.write]
    split
    · simp [Mem.read]
    · split
      · simp [Mem.read]
      · rename_i h
        simp [Mem.read, h, ih]

/-- A write leaves every other index alone. -/
theorem Mem.read_write_ne (m : Mem) {a a' : Nat} (b : Byte) (h : a' ≠ a) :
    (Mem.write m a b).read a' = Mem.read m a' := by
  induction m with
  | nil => simp [Mem.write, Mem.read, h]
  | cons c m ih =>
    obtain ⟨k, v⟩ := c
    simp only [Mem.write]
    split
    · simp [Mem.read, h]
    · split
      · rename_i h2
        subst h2
        simp [Mem.read, h]
      · simp [Mem.read, ih]

/-- Every index a write lists is the written one or was listed. -/
theorem Mem.mem_write {m : Mem} {a : Nat} {b : Byte} {c : Host.Cell} (h : c ∈ Mem.write m a b) :
    c = (a, b) ∨ c ∈ m := by
  induction m with
  | nil => simpa [Mem.write] using h
  | cons d m ih =>
    obtain ⟨k, v⟩ := d
    simp only [Mem.write] at h
    split at h
    · simpa using h
    · split at h
      · simp only [List.mem_cons] at h ⊢
        tauto
      · simp only [List.mem_cons] at h ⊢
        rcases h with h | h
        · exact .inr (.inl h)
        · rcases ih h with h | h
          · exact .inl h
          · exact .inr (.inr h)

/-- A write keeps the canonical form. -/
theorem Mem.write_wf {m : Mem} (h : m.wf) (a : Nat) (b : Byte) : (Mem.write m a b).wf := by
  induction m with
  | nil => simp [Mem.write, Mem.wf]
  | cons d m ih =>
    obtain ⟨k, v⟩ := d
    simp only [Mem.wf, List.pairwise_cons] at h
    simp only [Mem.write]
    split
    · simp only [Mem.wf, List.pairwise_cons]
      refine ⟨fun c hc => ?_, h⟩
      rcases List.mem_cons.1 hc with rfl | hc
      · assumption
      · exact Nat.lt_trans ‹a < k› (h.1 c hc)
    · split
      · rename_i h2
        subst h2
        simp only [Mem.wf, List.pairwise_cons]
        exact h
      · simp only [Mem.wf, List.pairwise_cons]
        refine ⟨fun c hc => ?_, ih h.2⟩
        rcases Mem.mem_write hc with rfl | hc
        · exact show k < a by omega
        · exact h.1 c hc

/-- A write below the capacity keeps every listed index below it. -/
theorem Mem.write_within {m : Mem} {cap a : Nat} (h : m.within cap) (b : Byte) (ha : a < cap) :
    (Mem.write m a b).within cap := by
  intro c hc
  rcases Mem.mem_write hc with rfl | hc
  · exact ha
  · exact h c hc

theorem Mem.writeRun_wf {m : Mem} (h : m.wf) (a : Nat) (bs : List Byte) : (m.writeRun a bs).wf := by
  induction bs generalizing m a with
  | nil => exact h
  | cons b bs ih => exact ih (Mem.write_wf h a b) (a + 1)

theorem Mem.writeRun_within {m : Mem} {cap : Nat} (h : m.within cap) (a : Nat) (bs : List Byte)
    (hc : a + bs.length ≤ cap) : (m.writeRun a bs).within cap := by
  induction bs generalizing m a with
  | nil => exact h
  | cons b bs ih =>
    simp only [List.length_cons] at hc
    exact ih (Mem.write_within h b (by omega)) (a + 1) (by omega)

/-- A run leaves every index outside it alone. -/
theorem Mem.read_writeRun_outside (m : Mem) (a : Nat) (bs : List Byte) {k : Nat} (h : k < a ∨ a + bs.length ≤ k) :
    (m.writeRun a bs).read k = m.read k := by
  induction bs generalizing m a with
  | nil => rfl
  | cons b bs ih =>
    simp only [List.length_cons] at h
    rw [Mem.writeRun, ih _ _ (by omega), Mem.read_write_ne _ _ (by omega)]

/-- Inside a run every index reads the byte written there. -/
theorem Mem.read_writeRun_inside (m : Mem) (a : Nat) (bs : List Byte) {j : Nat} (h : j < bs.length) :
    (m.writeRun a bs).read (a + j) = some bs[j] := by
  induction bs generalizing m a j with
  | nil => simp at h
  | cons b bs ih =>
    cases j with
    | zero => rw [Mem.writeRun, Mem.read_writeRun_outside _ _ _ (by omega)]; simp
    | succ j =>
      have := ih (m.write a b) (a + 1) (j := j) (by simpa using h)
      rw [Mem.writeRun, show a + (j + 1) = a + 1 + j by omega, this]
      simp

/-- What a run of reads answers: the bytes, each the one its index holds. -/
theorem Mem.readRun_eq_ok {m : Mem} {a n : Nat} {bs : List Byte} :
    m.readRun a n = .ok bs ↔ bs.length = n ∧ ∀ j (h : j < bs.length), m.read (a + j) = some bs[j] := by
  induction n generalizing a bs with
  | zero =>
    simp only [Mem.readRun, Except.ok.injEq]
    constructor
    · rintro rfl; simp
    · rintro ⟨h, -⟩; exact (List.eq_nil_of_length_eq_zero h).symm
  | succ n ih =>
    simp only [Mem.readRun]
    constructor
    · intro h
      split at h
      · cases h
      · rename_i v hv
        split at h
        · rename_i vs hvs
          obtain ⟨hl, hj⟩ := ih.1 hvs
          cases h
          refine ⟨by simp [hl], fun j h => ?_⟩
          cases j with
          | zero => simpa using hv
          | succ j =>
            have := hj j (by simpa using h)
            rw [show a + (j + 1) = a + 1 + j by omega, this]
            simp
        · cases h
    · rintro ⟨hl, hj⟩
      cases bs with
      | nil => simp at hl
      | cons b bs =>
        have h0 := hj 0 (by simp)
        simp only [Nat.add_zero, List.getElem_cons_zero] at h0
        have h1 : m.readRun (a + 1) n = .ok bs := ih.2 ⟨by simpa using hl, fun j h => by
          have := hj (j + 1) (by simpa using h)
          rw [show a + 1 + j = a + (j + 1) by omega, this]
          simp⟩
        rw [h0]
        simp [h1]

/-- When a run of reads stops, it stops at an index of the run that holds no value. -/
theorem Mem.readRun_eq_error {m : Mem} {a n i : Nat} (h : m.readRun a n = .error i) :
    a ≤ i ∧ i < a + n ∧ m.read i = none := by
  induction n generalizing a with
  | zero => cases h
  | succ n ih =>
    simp only [Mem.readRun] at h
    split at h
    · rename_i hv
      cases h
      exact ⟨Nat.le_refl _, by omega, hv⟩
    · split at h
      · cases h
      · rename_i hvs
        cases h
        obtain ⟨h1, h2, h3⟩ := ih hvs
        exact ⟨by omega, by omega, h3⟩

/-- It stops at the first such index. -/
theorem Mem.readRun_error_first {m : Mem} {a n i k : Nat} (h : m.readRun a n = .error i) (ha : a ≤ k) (hk : m.read k = none) :
    i ≤ k := by
  induction n generalizing a with
  | zero => cases h
  | succ n ih =>
    simp only [Mem.readRun] at h
    split at h
    · cases h; exact ha
    · rename_i v hv
      have hne : a ≠ k := fun e => by rw [e, hk] at hv; cases hv
      split at h
      · cases h
      · rename_i j hj
        cases h
        exact ih hj (by omega)

/-- Reading back a run just written. -/
theorem Mem.readRun_writeRun (m : Mem) (a : Nat) (bs : List Byte) : (m.writeRun a bs).readRun a bs.length = .ok bs :=
  Mem.readRun_eq_ok.2 ⟨rfl, fun _ h => Mem.read_writeRun_inside m a bs h⟩

/-- Reading part of a run just written. -/
theorem Mem.readRun_writeRun_part (m : Mem) (bs : List Byte) (a n : Nat) (h : a + n ≤ bs.length) :
    (m.writeRun 0 bs).readRun a n = .ok ((bs.drop a).take n) := by
  refine Mem.readRun_eq_ok.2 ⟨by simp; omega, fun j hj => ?_⟩
  have hj' : a + j < bs.length := by simp at hj; omega
  have := Mem.read_writeRun_inside m 0 bs hj'
  simp only [Nat.zero_add] at this
  simp [this]

/-- Runs of reads agree on memories that agree on the run. -/
theorem Mem.readRun_congr {m m' : Mem} {a n : Nat} (h : ∀ k, a ≤ k → k < a + n → m'.read k = m.read k) :
    m'.readRun a n = m.readRun a n := by
  induction n generalizing a with
  | zero => rfl
  | succ n ih =>
    simp only [Mem.readRun]
    rw [h a (Nat.le_refl _) (by omega), ih (fun k h1 h2 => h k (by omega) (by omega))]

/-- An index at or above a bound on all listed ones holds no value. -/
theorem Mem.read_none_of_within {m : Mem} {cap a : Nat} (h : m.within cap) (ha : cap ≤ a) : m.read a = none := by
  induction m with
  | nil => rfl
  | cons c m ih =>
    obtain ⟨k, v⟩ := c
    have hk := h (k, v) (by simp)
    simp only at hk
    rw [Mem.read_cons, if_neg (by omega)]
    exact ih fun c hc => h c (by simp [hc])

end Sys2Proof.Machine
end

