-- ==== Sys2Proof/Laws/Ops.lean ====
section
/-! SUPPORT. What each shared operation can do: reading operands, completing, failing, and the fields of STATUS. -/

namespace Sys2Proof.Machine

theorem withBytes_of_ok {s : State} {b : BufId} {a n : Nat} {bs : List Byte} {k : List Byte → Out}
    (h : (s.buf b).readRun a n = .ok bs) : withBytes s b a n k = k bs := by simp [withBytes, h]

/-- A read of a run goes on with the bytes the indices hold, or faults at an index of the run that holds none. -/
theorem withBytes_cases (s : State) (b : BufId) (a n : Nat) (k : List Byte → Out) :
    (∃ bs, (s.buf b).readRun a n = .ok bs ∧ withBytes s b a n k = k bs) ∨
    (∃ i, a ≤ i ∧ i < a + n ∧ (s.buf b).read i = none ∧ withBytes s b a n k = .fault (.unwrittenRead b i)) := by
  unfold withBytes
  split
  · rename_i bs h
    exact .inl ⟨bs, h, rfl⟩
  · rename_i i h
    obtain ⟨h1, h2, h3⟩ := Mem.readRun_eq_error h
    exact .inr ⟨i, h1, h2, h3, rfl⟩

/-- If a read of a run ends in a next state, its bytes were there. -/
theorem withBytes_next {s t : State} {b : BufId} {a n : Nat} {k : List Byte → Out} (h : withBytes s b a n k = .next t) :
    ∃ bs, (s.buf b).readRun a n = .ok bs ∧ k bs = .next t := by
  rcases withBytes_cases s b a n k with ⟨bs, h1, h2⟩ | ⟨i, -, -, -, h2⟩
  · exact ⟨bs, h1, h2 ▸ h⟩
  · rw [h2] at h; cases h

theorem withByte_of_some {s : State} {b : BufId} {a : Nat} {v : Byte} {k : Byte → Out}
    (h : (s.buf b).read a = some v) : withByte s b a k = k v := by simp [withByte, h]

/-- If a read of a byte ends in a next state, the byte was there. -/
theorem withByte_next {s t : State} {b : BufId} {a : Nat} {k : Byte → Out} (h : withByte s b a k = .next t) :
    ∃ v, (s.buf b).read a = some v ∧ k v = .next t := by
  unfold withByte at h
  split at h
  · rename_i v hv
    exact ⟨v, hv, h⟩
  · cases h

@[simp] theorem complete_eq (s : State) (r : Word) : complete s r = .next (s.finish .ok false r) := rfl

@[simp] theorem fail_eq (s : State) (e : FcpError) : fail s e = .next (s.finish .ok false (errCode e)) := rfl

@[simp] theorem shellFault_eq (s : State) (f : ShellFault) :
    shellFault s f = .next { s with status := statusOfFault f } := rfl

theorem statusOf_ok : statusOf .ok false = 0x0001#16 := by decide
theorem statusOf_frameError : statusOf .frameError true = 0x0015#16 := by decide
theorem statusOf_crcError : statusOf .crcError false = 0x0009#16 := by decide
theorem statusOfFault_illegalCmd : statusOfFault .illegalCmd = 0x0021#16 := by decide
theorem statusOfFault_badLength : statusOfFault .badLength = 0x0041#16 := by decide
theorem statusOfFault_badChar : statusOfFault .badChar = 0x0061#16 := by decide

theorem errCode_callsignInvalid : errCode .callsignInvalid = 0xFFFF#16 := by decide
theorem errCode_frameInvalid : errCode .frameInvalid = 0xFFFE#16 := by decide
theorem errCode_incorrectPassword : errCode .incorrectPassword = 0xFFFD#16 := by decide
theorem errCode_lengthMismatch : errCode .lengthMismatch = 0xFFFC#16 := by decide

@[simp] theorem core_csMax : Config.core.csMax = 32 := rfl
@[simp] theorem core_pwMax : Config.core.pwMax = 32 := rfl
@[simp] theorem core_keyBytes : Config.core.keyBytes = 16 := rfl
@[simp] theorem core_frameMax : Config.core.frameMax = 512 := rfl
@[simp] theorem core_nibMax : Config.core.nibMax = 1024 := rfl
@[simp] theorem core_bytesMax : Config.core.bytesMax = 512 := rfl
@[simp] theorem core_axMax : Config.core.axMax = 512 := rfl

@[simp] theorem enc_length (C : Config) (key sec : List Byte) : (C.enc key sec).length = sec.length := by simp [Config.enc]

@[simp] theorem dec_length (C : Config) (key sec : List Byte) : (C.dec key sec).length = sec.length := by simp [Config.dec]

/-- The padding is a whole number of bytes from 1 to 16 that completes a block (R104). -/
theorem padlen_spec (n p : Nat) : 1 ≤ padlen n p ∧ padlen n p ≤ 16 ∧ (1 + n + p + padlen n p) % 16 = 0 := by
  unfold padlen
  omega

@[simp] theorem byteBits_length (v : Byte) : (byteBits v).length = 8 := rfl

@[simp] theorem bitsOf_length (bytes : List Byte) : (bitsOf bytes).length = 8 * bytes.length := by
  induction bytes with
  | nil => rfl
  | cons v vs ih => simp [bitsOf, ih]; omega

theorem bitsOf_append (a b : List Byte) : bitsOf (a ++ b) = bitsOf a ++ bitsOf b := by
  induction a with
  | nil => rfl
  | cons v vs ih => simp [bitsOf, ih]

/-- `pack` undoes one byte's bits. -/
theorem pack_byteBits_append (v : Byte) (rest : List Bool) : pack (byteBits v ++ rest) = v :: pack rest := by
  have h : byteOf (v.getLsbD 7) (v.getLsbD 6) (v.getLsbD 5) (v.getLsbD 4) (v.getLsbD 3) (v.getLsbD 2) (v.getLsbD 1)
      (v.getLsbD 0) = v := by
    revert v
    decide +kernel
  simp only [byteBits, List.cons_append, List.nil_append, pack, h]

/-- `pack` is the inverse of `bits` (00_scope R12). -/
theorem pack_bitsOf (bytes : List Byte) : pack (bitsOf bytes) = bytes := by
  induction bytes with
  | nil => rfl
  | cons v vs ih => rw [bitsOf, pack_byteBits_append, ih]

theorem pack_length (bits : List Bool) : (pack bits).length = bits.length / 8 := by
  induction bits using pack.induct with
  | case1 b7 b6 b5 b4 b3 b2 b1 b0 rest ih => simp only [pack, List.length_cons, ih]; omega
  | case2 bits h =>
    rw [pack.eq_2 _ h]
    rcases bits with _ | ⟨a, _ | ⟨b, _ | ⟨c, _ | ⟨d, _ | ⟨e, _ | ⟨f, _ | ⟨g, _ | ⟨x, l⟩⟩⟩⟩⟩⟩⟩⟩
    case cons.cons.cons.cons.cons.cons.cons.cons => exact absurd rfl (h _ _ _ _ _ _ _ _ _)
    all_goals simp

theorem byteBits_byteOf (b7 b6 b5 b4 b3 b2 b1 b0 : Bool) :
    byteBits (byteOf b7 b6 b5 b4 b3 b2 b1 b0) = [b7, b6, b5, b4, b3, b2, b1, b0] := by
  revert b7 b6 b5 b4 b3 b2 b1 b0
  decide +kernel

/-- `bits` undoes `pack` on sequences whose length is a multiple of 8 (00_scope R12). -/
theorem bitsOf_pack (bits : List Bool) (h : bits.length % 8 = 0) : bitsOf (pack bits) = bits := by
  induction bits using pack.induct with
  | case1 b7 b6 b5 b4 b3 b2 b1 b0 rest ih =>
    simp only [pack, bitsOf, byteBits_byteOf]
    rw [ih (by simp only [List.length_cons] at h; omega)]
    rfl
  | case2 bits hb =>
    rcases bits with _ | ⟨a, _ | ⟨b, _ | ⟨c, _ | ⟨d, _ | ⟨e, _ | ⟨f, _ | ⟨g, _ | ⟨x, l⟩⟩⟩⟩⟩⟩⟩⟩
    case cons.cons.cons.cons.cons.cons.cons.cons => exact absurd rfl (hb _ _ _ _ _ _ _ _ _)
    case nil => rfl
    all_goals exact absurd h (by simp)

end Sys2Proof.Machine
end

