-- ==== Sys2Proof/Laws/State.lean ====
section
/-! SUPPORT. One lemma per field for each update of the state that the meanings share: `finish`, `setBuf`, and the link stages'
own fields. -/

namespace Sys2Proof.Machine

section Finish
variable (s : State) (l : LinkStatus) (b : Bool) (r : Word)

@[simp] theorem State.finish_status : (s.finish l b r).status = statusOf l b := rfl
@[simp] theorem State.finish_result : (s.finish l b r).result = r := rfl
@[simp] theorem State.finish_present : (s.finish l b r).present = s.present := rfl
@[simp] theorem State.finish_cslen : (s.finish l b r).cslen = s.cslen := rfl
@[simp] theorem State.finish_pwlen : (s.finish l b r).pwlen = s.pwlen := rfl
@[simp] theorem State.finish_frlen : (s.finish l b r).frlen = s.frlen := rfl
@[simp] theorem State.finish_fidr : (s.finish l b r).fidr = s.fidr := rfl
@[simp] theorem State.finish_optlen : (s.finish l b r).optlen = s.optlen := rfl
@[simp] theorem State.finish_niblen : (s.finish l b r).niblen = s.niblen := rfl
@[simp] theorem State.finish_nrzlen : (s.finish l b r).nrzlen = s.nrzlen := rfl
@[simp] theorem State.finish_uslen : (s.finish l b r).uslen = s.uslen := rfl
@[simp] theorem State.finish_axlen : (s.finish l b r).axlen = s.axlen := rfl
@[simp] theorem State.finish_crcr : (s.finish l b r).crcr = s.crcr := rfl
@[simp] theorem State.finish_fcsr : (s.finish l b r).fcsr = s.fcsr := rfl
@[simp] theorem State.finish_cs : (s.finish l b r).cs = s.cs := rfl
@[simp] theorem State.finish_pw : (s.finish l b r).pw = s.pw := rfl
@[simp] theorem State.finish_key : (s.finish l b r).key = s.key := rfl
@[simp] theorem State.finish_fr : (s.finish l b r).fr = s.fr := rfl
@[simp] theorem State.finish_od : (s.finish l b r).od = s.od := rfl
@[simp] theorem State.finish_bits : (s.finish l b r).bits = s.bits := rfl
@[simp] theorem State.finish_nrz : (s.finish l b r).nrz = s.nrz := rfl
@[simp] theorem State.finish_us : (s.finish l b r).us = s.us := rfl
@[simp] theorem State.finish_ax : (s.finish l b r).ax = s.ax := rfl
@[simp] theorem State.finish_host : (s.finish l b r).host = s.host := rfl
@[simp] theorem State.finish_hostData : (s.finish l b r).hostData = s.hostData := rfl
@[simp] theorem State.finish_draws : (s.finish l b r).draws = s.draws := rfl
@[simp] theorem State.finish_resets : (s.finish l b r).resets = s.resets := rfl

@[simp] theorem State.finish_buf (n : BufId) : (s.finish l b r).buf n = s.buf n := by cases n <;> rfl

end Finish

section SetBuf
variable (s : State) (b : BufId) (m : Mem)

@[simp] theorem State.setBuf_status : (s.setBuf b m).status = s.status := by cases b <;> rfl
@[simp] theorem State.setBuf_result : (s.setBuf b m).result = s.result := by cases b <;> rfl
@[simp] theorem State.setBuf_present : (s.setBuf b m).present = s.present := by cases b <;> rfl
@[simp] theorem State.setBuf_cslen : (s.setBuf b m).cslen = s.cslen := by cases b <;> rfl
@[simp] theorem State.setBuf_pwlen : (s.setBuf b m).pwlen = s.pwlen := by cases b <;> rfl
@[simp] theorem State.setBuf_frlen : (s.setBuf b m).frlen = s.frlen := by cases b <;> rfl
@[simp] theorem State.setBuf_fidr : (s.setBuf b m).fidr = s.fidr := by cases b <;> rfl
@[simp] theorem State.setBuf_optlen : (s.setBuf b m).optlen = s.optlen := by cases b <;> rfl
@[simp] theorem State.setBuf_niblen : (s.setBuf b m).niblen = s.niblen := by cases b <;> rfl
@[simp] theorem State.setBuf_nrzlen : (s.setBuf b m).nrzlen = s.nrzlen := by cases b <;> rfl
@[simp] theorem State.setBuf_uslen : (s.setBuf b m).uslen = s.uslen := by cases b <;> rfl
@[simp] theorem State.setBuf_axlen : (s.setBuf b m).axlen = s.axlen := by cases b <;> rfl
@[simp] theorem State.setBuf_crcr : (s.setBuf b m).crcr = s.crcr := by cases b <;> rfl
@[simp] theorem State.setBuf_fcsr : (s.setBuf b m).fcsr = s.fcsr := by cases b <;> rfl
@[simp] theorem State.setBuf_host : (s.setBuf b m).host = s.host := by cases b <;> rfl
@[simp] theorem State.setBuf_hostData : (s.setBuf b m).hostData = s.hostData := by cases b <;> rfl
@[simp] theorem State.setBuf_draws : (s.setBuf b m).draws = s.draws := by cases b <;> rfl
@[simp] theorem State.setBuf_resets : (s.setBuf b m).resets = s.resets := by cases b <;> rfl

@[simp] theorem State.buf_setBuf_same : (s.setBuf b m).buf b = m := by cases b <;> rfl

theorem State.buf_setBuf_ne {n : BufId} (h : n ≠ b) : (s.setBuf b m).buf n = s.buf n := by
  cases n <;> cases b <;> first | rfl | exact absurd rfl h

@[simp] theorem State.setBuf_buf : s.setBuf b (s.buf b) = s := by cases b <;> rfl

end SetBuf

section Stages
variable (s : State) (bytes : List Byte)

@[simp] theorem nrziStage_nrz : (nrziStage s bytes).nrz = s.nrz.writeRun 0 (nrziBytes bytes) := rfl
@[simp] theorem nrziStage_nrzlen : (nrziStage s bytes).nrzlen = BitVec.ofNat 16 bytes.length := rfl
@[simp] theorem nrziStage_us : (nrziStage s bytes).us = s.us := rfl
@[simp] theorem nrziStage_uslen : (nrziStage s bytes).uslen = s.uslen := rfl
@[simp] theorem nrziStage_ax : (nrziStage s bytes).ax = s.ax := rfl
@[simp] theorem nrziStage_axlen : (nrziStage s bytes).axlen = s.axlen := rfl
@[simp] theorem unstfStage_us : (unstfStage s bytes).us = s.us.writeRun 0 (unstuff bytes).2 := rfl
@[simp] theorem unstfStage_uslen : (unstfStage s bytes).uslen = BitVec.ofNat 16 (unstuff bytes).2.length := rfl
@[simp] theorem unstfStage_nrz : (unstfStage s bytes).nrz = s.nrz := rfl
@[simp] theorem unstfStage_nrzlen : (unstfStage s bytes).nrzlen = s.nrzlen := rfl
@[simp] theorem unstfStage_ax : (unstfStage s bytes).ax = s.ax := rfl
@[simp] theorem unstfStage_axlen : (unstfStage s bytes).axlen = s.axlen := rfl
@[simp] theorem brevStage_ax : (brevStage s bytes).ax = s.ax.writeRun 0 (bytes.map brev8) := rfl
@[simp] theorem brevStage_axlen : (brevStage s bytes).axlen = s.uslen := rfl
@[simp] theorem brevStage_nrz : (brevStage s bytes).nrz = s.nrz := rfl
@[simp] theorem brevStage_nrzlen : (brevStage s bytes).nrzlen = s.nrzlen := rfl
@[simp] theorem brevStage_us : (brevStage s bytes).us = s.us := rfl
@[simp] theorem brevStage_uslen : (brevStage s bytes).uslen = s.uslen := rfl
@[simp] theorem crcError_ax : (crcError s).ax = s.ax.writeRun 0 crcErrorText := rfl
@[simp] theorem crcError_axlen : (crcError s).axlen = 9 := rfl
@[simp] theorem crcError_status : (crcError s).status = statusOf .crcError false := rfl
@[simp] theorem crcError_result : (crcError s).result = 2 := rfl
@[simp] theorem crcError_crcr : (crcError s).crcr = s.crcr := rfl
@[simp] theorem crcError_fcsr : (crcError s).fcsr = s.fcsr := rfl
@[simp] theorem frameError_ax : (frameError s).ax = s.ax.writeRun 0 frameErrorText := rfl
@[simp] theorem frameError_axlen : (frameError s).axlen = 11 := rfl
@[simp] theorem frameError_status : (frameError s).status = statusOf .frameError true := rfl
@[simp] theorem frameError_result : (frameError s).result = 1 := rfl
@[simp] theorem frameError_crcr : (frameError s).crcr = 0 := rfl
@[simp] theorem frameError_fcsr : (frameError s).fcsr = 0 := rfl

end Stages

end Sys2Proof.Machine
end

