-- ==== Sys2Proof/Laws/Fcp.lean ====
section
/-! SUPPORT. What each Frame Codec command can do: the inversion of its shared parts and one lemma per command, over any
configuration. -/

namespace Sys2Proof.Machine

/-- FLEN always completes or ends in BAD_LENGTH. -/
theorem flenWith_cases (C : Config) (s : State) :
    ((csTooLong C s || pwTooLong C s) = true ∧ flenWith C s = .next { s with status := statusOfFault .badLength }) ∨
    ((csTooLong C s || pwTooLong C s) = false ∧ s.csValid = false ∧
      flenWith C s = .next (s.finish .ok false (errCode .callsignInvalid))) ∨
    ((csTooLong C s || pwTooLong C s) = false ∧ s.csValid = true ∧
      flenWith C s = .next (s.finish .ok false (BitVec.ofNat 16 (frameLength s.c s.n s.p s.pwP)))) := by
  unfold flenWith
  cases h1 : (csTooLong C s || pwTooLong C s)
  · cases h2 : s.csValid
    · exact .inr (.inl ⟨rfl, rfl, by simp⟩)
    · exact .inr (.inr ⟨rfl, rfl, by simp⟩)
  · exact .inl ⟨rfl, by simp⟩

/-- What FID can do. -/
theorem fidWith_next {C : Config} {s t : State} (h : fidWith C s = .next t) :
    t = { s with status := statusOfFault .badLength } ∨
    (csTooLong C s = false ∧ frTooLong C s = false ∧
      (t = s.finish .ok false (errCode .callsignInvalid) ∨
       t = s.finish .ok false (errCode .frameInvalid) ∨
       (s.csValid = true ∧ s.c + 1 ≤ s.frameLen ∧ ∃ f, s.fr.read s.c = some f ∧ t = s.finish .ok false (f.setWidth 16)))) := by
  unfold fidWith at h
  split at h
  · cases h; exact .inl rfl
  · rename_i h1
    simp only [Bool.or_eq_true, not_or, Bool.not_eq_true] at h1
    refine .inr ⟨h1.1, h1.2, ?_⟩
    split at h
    · cases h; exact .inl rfl
    · rename_i h2
      split at h
      · cases h; exact .inr (.inl rfl)
      · obtain ⟨f, hf, h⟩ := withByte_next h
        cases h
        exact .inr (.inr ⟨by simpa using h2, by omega, f, hf, rfl⟩)

/-- The shared preamble of ODLEN and ODGET (R120): a shell fault, one of two codes, or on with the frame long enough. -/
theorem parsePre_next {C : Config} {s t : State} {k : Out} (h : parsePre C s k = .next t) :
    t = { s with status := statusOfFault .badLength } ∨
    t = s.finish .ok false (errCode .callsignInvalid) ∨
    t = s.finish .ok false (errCode .frameInvalid) ∨
    (csTooLong C s = false ∧ pwTooLong C s = false ∧ frTooLong C s = false ∧ s.csValid = true ∧
      s.c + 1 ≤ s.frameLen ∧ k = .next t) := by
  unfold parsePre at h
  split at h
  · cases h; exact .inl rfl
  · rename_i h1
    simp only [Bool.or_eq_true, not_or, Bool.not_eq_true] at h1
    split at h
    · cases h; exact .inr (.inl rfl)
    · rename_i h2
      split at h
      · cases h; exact .inr (.inr (.inl rfl))
      · exact .inr (.inr (.inr ⟨h1.1.1, h1.1.2, h1.2, by simpa using h2, by omega, h⟩))

/-- The shared part of the encrypted path (R123): a code, or on with the decrypted section and a declared length that covers the
password and is a byte. -/
theorem withSec_next {C : Config} {s t : State} {k : List Byte → Nat → Out} (h : withSec C s k = .next t) :
    (∃ e, t = s.finish .ok false (errCode e)) ∨
    (1 + s.p ≤ s.frameLen - s.c - 1 ∧ ∃ key enc pw d, s.key.readRun 0 C.keyBytes = .ok key ∧
      s.fr.readRun (s.c + 1) (s.frameLen - s.c - 1) = .ok enc ∧ s.pw.readRun 0 s.p = .ok pw ∧
      ((C.dec key enc).drop 1).take s.p = pw ∧ ((C.dec key enc).headD 0).toNat = d ∧ s.p ≤ d ∧ d < 256 ∧
      k (C.dec key enc) d = .next t) := by
  unfold withSec at h
  split at h
  · cases h; exact .inl ⟨_, rfl⟩
  · obtain ⟨key, hk, h⟩ := withBytes_next h
    obtain ⟨enc, he, h⟩ := withBytes_next h
    obtain ⟨pw, hp, h⟩ := withBytes_next h
    split at h
    · cases h; exact .inl ⟨_, rfl⟩
    · rename_i h1
      split at h
      · cases h; exact .inl ⟨_, rfl⟩
      · exact .inr ⟨by omega, key, enc, pw, _, hk, he, hp, by simpa using h1, rfl, by omega, BitVec.isLt _, h⟩

/-- The shared part of the unencrypted path (R122): ERR_LENGTH_MISMATCH, or on with the length byte. -/
theorem withLengthByte_next {s t : State} {k : Byte → Out} (h : withLengthByte s k = .next t) :
    t = s.finish .ok false (errCode .lengthMismatch) ∨
    ∃ d, s.fr.read (s.c + 1) = some d ∧ d.toNat = s.frameLen - s.c - 2 ∧ k d = .next t := by
  obtain ⟨d, hd, h⟩ := withByte_next h
  split at h
  · cases h; exact .inl rfl
  · rename_i h1
    exact .inr ⟨d, hd, by simpa using h1, h⟩

/-- What ODLEN can do: a shell fault, a code, or a length that fits a byte; STATUS and RESULT only. -/
theorem odlenWith_next {C : Config} {s t : State} (h : odlenWith C s = .next t) :
    t = { s with status := statusOfFault .badLength } ∨ (∃ e, t = s.finish .ok false (errCode e)) ∨
    ∃ n, n < 256 ∧ t = s.finish .ok false (BitVec.ofNat 16 n) := by
  rcases parsePre_next h with h | h | h | ⟨-, -, -, -, -, h⟩
  · exact .inl h
  · exact .inr (.inl ⟨_, h⟩)
  · exact .inr (.inl ⟨_, h⟩)
  · split at h
    · cases h; exact .inr (.inr ⟨0, by decide, rfl⟩)
    · split at h
      · rcases withSec_next h with h | ⟨-, key, enc, pw, d, -, -, -, -, -, -, hd, h⟩
        · exact .inr (.inl h)
        · cases h; exact .inr (.inr ⟨d - s.p, by omega, rfl⟩)
      · rcases withLengthByte_next h with h | ⟨d, -, -, h⟩
        · exact .inr (.inl ⟨_, h⟩)
        · cases h
          refine .inr (.inr ⟨d.toNat, d.isLt, ?_⟩)
          rw [show BitVec.ofNat 16 d.toNat = d.setWidth 16 from BitVec.eq_of_toNat_eq (by simp)]

/-- What ODGET can do: a shell fault, a code, or success with a payload of at most 255 bytes. -/
theorem odgetWith_next {C : Config} {s t : State} (h : odgetWith C s = .next t) :
    t = { s with status := statusOfFault .badLength } ∨ (∃ e, t = s.finish .ok false (errCode e)) ∨
    ∃ payload : List Byte, payload.length ≤ 255 ∧
      t = { s with od := s.od.writeRun 0 payload, optlen := BitVec.ofNat 8 payload.length }.finish .ok false 0 := by
  have body : ∀ {t}, odgetBody C s = .next t → (∃ e, t = s.finish .ok false (errCode e)) ∨
      ∃ payload : List Byte, payload.length ≤ 255 ∧
        t = { s with od := s.od.writeRun 0 payload, optlen := BitVec.ofNat 8 payload.length }.finish .ok false 0 := by
    intro t h
    unfold odgetBody at h
    split at h
    · cases h; exact .inr ⟨[], by simp, rfl⟩
    · split at h
      · rcases withSec_next h with h | ⟨-, key, enc, pw, d, -, -, -, -, -, -, hd, h⟩
        · exact .inl h
        · split at h
          · cases h; exact .inl ⟨_, rfl⟩
          · cases h; exact .inr ⟨_, by rw [List.length_take]; omega, rfl⟩
      · rcases withLengthByte_next h with h | ⟨d, -, -, h⟩
        · exact .inl ⟨_, h⟩
        · obtain ⟨payload, hp, h⟩ := withBytes_next h
          cases h
          have := (Mem.readRun_eq_ok.1 hp).1
          have := d.isLt
          exact .inr ⟨payload, by omega, rfl⟩
  rcases parsePre_next h with h | h | h | ⟨-, -, -, -, -, h⟩
  · exact .inl h
  · exact .inr (.inl ⟨_, h⟩)
  · exact .inr (.inl ⟨_, h⟩)
  · split at h
    · exact .inr (body h)
    · obtain ⟨got, -, h⟩ := withBytes_next h
      obtain ⟨want, -, h⟩ := withBytes_next h
      split at h
      · cases h; exact .inr (.inl ⟨_, rfl⟩)
      · exact .inr (body h)

@[simp] theorem drawn_length (C : Config) (s : State) (k : Nat) : (drawn C s k).length = k := by simp [drawn]

/-- What FENC can do: a shell fault, a code, or success with a frame on one of the two paths (R142, R143). -/
theorem fencWith_next {C : Config} {s t : State} (h : fencWith C s = .next t) :
    t = { s with status := statusOfFault .badLength } ∨ (∃ e, t = s.finish .ok false (errCode e)) ∨
    (csTooLong C s = false ∧ pwTooLong C s = false ∧ s.csValid = true ∧ (0 < s.n ↔ s.odP = true) ∧
      ∃ cs, s.cs.readRun 0 s.c = .ok cs ∧
      ((s.encPath = true ∧ s.n + s.p ≤ 255 ∧ ∃ pw od key, s.pw.readRun 0 s.p = .ok pw ∧ s.od.readRun 0 s.n = .ok od ∧
          s.key.readRun 0 C.keyBytes = .ok key ∧
          fencDone s (cs ++ s.fidr :: C.enc key (secPlain pw od (drawn C s (padlen s.n s.p)))) (padlen s.n s.p) = .next t) ∨
       (s.encPath = false ∧ 0 < s.n ∧ ∃ od, s.od.readRun 0 s.n = .ok od ∧
          fencDone s (cs ++ s.fidr :: s.optlen :: od) 0 = .next t) ∨
       (s.encPath = false ∧ s.n = 0 ∧ fencDone s (cs ++ [s.fidr]) 0 = .next t))) := by
  unfold fencWith at h
  split at h
  · cases h; exact .inl rfl
  · rename_i h1
    simp only [Bool.or_eq_true, not_or, Bool.not_eq_true] at h1
    split at h
    · cases h; exact .inr (.inl ⟨_, rfl⟩)
    · rename_i h2
      split at h
      · cases h; exact .inr (.inl ⟨_, rfl⟩)
      · rename_i h3
        split at h
        · cases h; exact .inr (.inl ⟨_, rfl⟩)
        · rename_i h4
          obtain ⟨cs, hcs, h⟩ := withBytes_next h
          refine .inr (.inr ⟨h1.1, h1.2, by simpa using h2, ?_, cs, hcs, ?_⟩)
          · simp only [bne_iff_ne, ne_eq, Decidable.not_not] at h3
            rw [← h3]; simp
          · split at h
            · rename_i h5
              simp only [h5, Bool.true_and, decide_eq_true_eq, Nat.not_lt] at h4
              obtain ⟨pw, hpw, h⟩ := withBytes_next h
              obtain ⟨od, hod, h⟩ := withBytes_next h
              obtain ⟨key, hkey, h⟩ := withBytes_next h
              exact .inl ⟨h5, h4, pw, od, key, hpw, hod, hkey, h⟩
            · rename_i h5
              simp only [Bool.not_eq_true] at h5
              split at h
              · obtain ⟨od, hod, h⟩ := withBytes_next h
                exact .inr (.inl ⟨h5, ‹_›, od, hod, h⟩)
              · exact .inr (.inr ⟨h5, by omega, h⟩)

end Sys2Proof.Machine
end

