-- ==== Sys2Proof/Laws/Link.lean ====
section
/-! SUPPORT. What each link command can do: one inversion lemma per command, over any configuration, and the lengths of what the
stages produce. -/

namespace Sys2Proof.Machine

/-- What a scan of hexadecimal text answers when every character is a digit. -/
theorem hexValues_eq_ok {m : Mem} {a n : Nat} {vs : List (BitVec 4)} :
    hexValues m a n = .ok vs ↔ vs.length = n ∧ ∀ j (h : j < vs.length), (m.read (a + j)).bind nibval = some vs[j] := by
  induction n generalizing a vs with
  | zero =>
    simp only [hexValues, Except.ok.injEq]
    constructor
    · rintro rfl; simp
    · rintro ⟨h, -⟩; exact (List.eq_nil_of_length_eq_zero h).symm
  | succ n ih =>
    simp only [hexValues]
    constructor
    · intro h
      split at h
      · cases h
      · rename_i ch hch
        split at h
        · cases h
        · rename_i v hv
          split at h
          · rename_i ws hws
            obtain ⟨hl, hj⟩ := ih.1 hws
            cases h
            refine ⟨by simp [hl], fun j h => ?_⟩
            cases j with
            | zero => simp [hch, hv]
            | succ j =>
              have := hj j (by simpa using h)
              rw [show a + (j + 1) = a + 1 + j by omega, this]
              simp
          · cases h
    · rintro ⟨hl, hj⟩
      cases vs with
      | nil => simp at hl
      | cons v vs =>
        have h0 := hj 0 (by simp)
        simp only [Nat.add_zero, List.getElem_cons_zero] at h0
        have h1 : hexValues m (a + 1) n = .ok vs := ih.2 ⟨by simpa using hl, fun j h => by
          have := hj (j + 1) (by simpa using h)
          rw [show a + 1 + j = a + (j + 1) by omega, this]
          simp⟩
        cases hm : m.read a with
        | none => simp [hm] at h0
        | some ch =>
          rw [hm, Option.bind_some] at h0
          simp [h0, h1]

/-- A scan stopped by an unwritten character stopped at one of its indices. -/
theorem hexValues_unwritten {m : Mem} {a n i : Nat} (h : hexValues m a n = .error (.unwritten i)) :
    a ≤ i ∧ i < a + n ∧ m.read i = none := by
  induction n generalizing a with
  | zero => cases h
  | succ n ih =>
    simp only [hexValues] at h
    split at h
    · rename_i hv
      cases h
      exact ⟨Nat.le_refl _, by omega, hv⟩
    · split at h
      · cases h
      · split at h
        · cases h
        · rename_i hvs
          cases h
          obtain ⟨h1, h2, h3⟩ := ih hvs
          exact ⟨by omega, by omega, h3⟩

/-- Scans of hexadecimal text agree on memories that agree on the scanned indices. -/
theorem hexValues_congr {m m' : Mem} {a n : Nat} (h : ∀ k, a ≤ k → k < a + n → m'.read k = m.read k) :
    hexValues m' a n = hexValues m a n := by
  induction n generalizing a with
  | zero => rfl
  | succ n ih =>
    simp only [hexValues]
    rw [h a (Nat.le_refl _) (by omega), ih (fun k h1 h2 => h k (by omega) (by omega))]

theorem nibblePairs_length (vs : List (BitVec 4)) : (nibblePairs vs).length = vs.length / 2 := by
  induction vs using nibblePairs.induct with
  | case1 hi lo rest ih => simp only [nibblePairs, List.length_cons, ih]; omega
  | case2 vs h =>
    rw [nibblePairs.eq_2 _ h]
    rcases vs with _ | ⟨a, _ | ⟨b, l⟩⟩
    · rfl
    · simp
    · exact absurd rfl (h _ _ _)

/-- The shared front of NRZI and AX25 (R171): a shell fault, the bytes of the capture, or a stop at an unwritten character. -/
theorem withRaw_cases (C : Config) (s : State) (k : List Byte → Out) :
    (C.nibMax < s.niblen.toNat ∧ withRaw C s k = .next { s with status := statusOfFault .badLength }) ∨
    (s.niblen.toNat ≤ C.nibMax ∧ ∃ vs, hexValues s.bits 0 (2 * s.rawLen) = .ok vs ∧
      (nibblePairs vs).length = s.rawLen ∧ withRaw C s k = k (nibblePairs vs)) ∨
    (s.niblen.toNat ≤ C.nibMax ∧ hexValues s.bits 0 (2 * s.rawLen) = .error .badChar ∧
      withRaw C s k = .next { s with status := statusOfFault .badChar }) ∨
    (s.niblen.toNat ≤ C.nibMax ∧ ∃ i, i < s.niblen.toNat ∧ s.bits.read i = none ∧
      withRaw C s k = .fault (.unwrittenRead .bits i)) := by
  unfold withRaw
  split
  · exact .inl ⟨‹_›, rfl⟩
  · have hle : s.niblen.toNat ≤ C.nibMax := by omega
    split
    · rename_i vs hvs
      refine .inr (.inl ⟨hle, vs, hvs, ?_, rfl⟩)
      have := (hexValues_eq_ok.1 hvs).1
      rw [nibblePairs_length]
      omega
    · exact .inr (.inr (.inl ⟨hle, ‹_›, rfl⟩))
    · rename_i i hi
      obtain ⟨-, h2, h3⟩ := hexValues_unwritten hi
      refine .inr (.inr (.inr ⟨hle, i, ?_, h3, rfl⟩))
      unfold State.rawLen at h2
      omega

@[simp] theorem nrziBits_length (prev : Bool) (bits : List Bool) : (nrziBits prev bits).length = bits.length := by
  induction bits generalizing prev with
  | nil => rfl
  | cons b bs ih => simp [nrziBits, ih]

@[simp] theorem nrziBytes_length (raw : List Byte) : (nrziBytes raw).length = raw.length := by
  simp [nrziBytes, pack_length]

/-- The bits of NRZI's output are the transform of its input's bits. -/
theorem bitsOf_nrziBytes (raw : List Byte) : bitsOf (nrziBytes raw) = nrziBits false (bitsOf raw) :=
  bitsOf_pack _ (by simp)

/-- Each emitted bit takes one free position: `8 * bytes out + 8 - FP` counts the emitted bits (R182). -/
def emitted (x : UnstuffScan) : Nat := 8 * x.out.length + (8 - x.fp)

/-- The fill pointer's range where it is tested (R182). -/
def fpOk (x : UnstuffScan) : Prop := 1 ≤ x.fp ∧ x.fp ≤ 8

theorem emitBit_fpOk {x : UnstuffScan} (h : fpOk x) (b : Bool) : fpOk (emitBit x b) := by
  unfold fpOk at *
  by_cases h1 : x.fp = 1
  · simp [emitBit, h1]
  · simp only [emitBit, h1, if_false]; omega

theorem emitBit_emitted {x : UnstuffScan} (h : fpOk x) (b : Bool) : emitted (emitBit x b) = emitted x + 1 := by
  unfold fpOk at h
  by_cases h1 : x.fp = 1
  · simp [emitBit, emitted, h1]; omega
  · simp only [emitBit, emitted, h1, if_false]; omega

/-- A scan emits at most the bits it is given (R193). -/
theorem unstuffScan_emitted (bits : List Bool) (x : UnstuffScan) (h : fpOk x) :
    fpOk (unstuffScan bits x).2 ∧ emitted (unstuffScan bits x).2 ≤ emitted x + bits.length := by
  fun_induction unstuffScan bits x with
  | case1 x => exact ⟨h, by simp⟩
  | case2 b1 x hones => exact ⟨emitBit_fpOk h b1, by simp [emitBit_emitted h]⟩
  | case3 b1 x hones rest' ih =>
    have ih := ih (emitBit_fpOk h b1)
    have he : emitted { emitBit x b1 with ones := 0 } = emitted x + 1 := emitBit_emitted h b1
    refine ⟨ih.1, Nat.le_trans ih.2 ?_⟩
    change emitted { emitBit x b1 with ones := 0 } + rest'.length ≤ _
    rw [he, List.length_cons, List.length_cons]
    omega
  | case4 b1 x hones => exact ⟨emitBit_fpOk h b1, by simp [emitBit_emitted h]⟩
  | case5 b1 x hones b3 tail => exact ⟨emitBit_fpOk h b1, by simp [emitBit_emitted h]⟩
  | case6 b1 rest x hones ih =>
    have ih := ih (emitBit_fpOk h b1)
    rw [emitBit_emitted h] at ih
    refine ⟨ih.1, ?_⟩
    have := ih.2
    simp only [List.length_cons]
    omega

/-- The unstuffer's output is never longer than its input (R193). -/
theorem unstuff_length (bytes : List Byte) : (unstuff bytes).2.length ≤ bytes.length := by
  have h := unstuffScan_emitted (bitsOf bytes) scanStart ⟨by decide, by decide⟩
  have h0 : emitted scanStart = 0 := rfl
  unfold emitted fpOk at h
  have : (unstuff bytes).2 = (unstuffScan (bitsOf bytes) scanStart).2.out := rfl
  rw [this]
  have h1 := h.1
  have h2 := h.2
  rw [bitsOf_length] at h2
  unfold emitted at h0
  omega

/-- What NRZI can do. -/
theorem nrziWith_next {C : Config} {s t : State} (h : nrziWith C s = .next t) :
    (t = { s with status := statusOfFault .badLength } ∧ C.nibMax < s.niblen.toNat) ∨
    (t = { s with status := statusOfFault .badChar } ∧ s.niblen.toNat ≤ C.nibMax) ∨
    (s.niblen.toNat ≤ C.nibMax ∧ ∃ vs, hexValues s.bits 0 (2 * s.rawLen) = .ok vs ∧
      (nibblePairs vs).length = s.rawLen ∧ t = (nrziStage s (nibblePairs vs)).finish .ok false 0) := by
  unfold nrziWith at h
  rcases withRaw_cases C s (fun raw => complete (nrziStage s raw) 0) with
    ⟨h1, h2⟩ | ⟨h1, vs, h2, h3, h4⟩ | ⟨h1, -, h2⟩ | ⟨h1, i, -, -, h2⟩
  · rw [h2] at h; cases h; exact .inl ⟨rfl, h1⟩
  · rw [h4] at h; cases h; exact .inr (.inr ⟨h1, vs, h2, h3, rfl⟩)
  · rw [h2] at h; cases h; exact .inr (.inl ⟨rfl, h1⟩)
  · rw [h2] at h; cases h

/-- What UNSTF can do. -/
theorem unstfWith_next {C : Config} {s t : State} (h : unstfWith C s = .next t) :
    (t = { s with status := statusOfFault .badLength } ∧ C.bytesMax < s.nrzlen.toNat) ∨
    (s.nrzlen.toNat ≤ C.bytesMax ∧ ∃ bytes, s.nrz.readRun 1 (s.nrzlen.toNat - 1) = .ok bytes ∧
      ((unstuff bytes).1 = true ∧ t = (unstfStage s bytes).finish .frameError true 1 ∨
       (unstuff bytes).1 = false ∧ t = (unstfStage s bytes).finish .ok false 0)) := by
  unfold unstfWith at h
  split at h
  · cases h; exact .inl ⟨rfl, ‹_›⟩
  · obtain ⟨bytes, hb, h⟩ := withBytes_next h
    refine .inr ⟨by omega, bytes, hb, ?_⟩
    split at h <;> rename_i hc
    · cases h; exact .inl ⟨hc, rfl⟩
    · cases h; exact .inr ⟨by simpa using hc, rfl⟩

/-- What BREV can do. -/
theorem brevWith_next {C : Config} {s t : State} (h : brevWith C s = .next t) :
    (t = { s with status := statusOfFault .badLength } ∧ C.bytesMax < s.uslen.toNat) ∨
    (s.uslen.toNat ≤ C.bytesMax ∧ ∃ bytes, s.us.readRun 0 s.uslen.toNat = .ok bytes ∧
      t = (brevStage s bytes).finish .ok false 0) := by
  unfold brevWith at h
  split at h
  · cases h; exact .inl ⟨rfl, ‹_›⟩
  · obtain ⟨bytes, hb, h⟩ := withBytes_next h
    cases h
    exact .inr ⟨by omega, bytes, hb, rfl⟩

/-- What the CRC stage can do. -/
theorem crcStage_next {s t : State} (h : crcStage s = .next t) :
    (s.axlen.toNat < 2 ∧ t = crcError { s with crcr := 0, fcsr := 0 }) ∨
    (2 ≤ s.axlen.toNat ∧ ∃ payload hi lo, s.ax.readRun 0 (s.axlen.toNat - 2) = .ok payload ∧
      s.ax.read (s.axlen.toNat - 2) = some hi ∧ s.ax.read (s.axlen.toNat - 1) = some lo ∧
      (crc16 payload ≠ hi ++ lo ∧ t = crcError { s with crcr := crc16 payload, fcsr := hi ++ lo } ∨
       crc16 payload = hi ++ lo ∧
        t = { s with crcr := crc16 payload, fcsr := hi ++ lo, axlen := s.axlen - 2 }.finish .ok false 0)) := by
  unfold crcStage at h
  split at h
  · cases h; exact .inl ⟨‹_›, rfl⟩
  · obtain ⟨payload, hp, h⟩ := withBytes_next h
    obtain ⟨hi, hhi, h⟩ := withByte_next h
    obtain ⟨lo, hlo, h⟩ := withByte_next h
    refine .inr ⟨by omega, payload, hi, lo, hp, hhi, hlo, ?_⟩
    split at h <;> rename_i hc
    · cases h; exact .inl ⟨hc, rfl⟩
    · cases h; exact .inr ⟨by simpa using hc, rfl⟩

/-- What CRCCHK can do. -/
theorem crcchkWith_next {C : Config} {s t : State} (h : crcchkWith C s = .next t) :
    (t = { s with status := statusOfFault .badLength } ∧ C.axMax < s.axlen.toNat) ∨
    (s.axlen.toNat ≤ C.axMax ∧ crcStage s = .next t) := by
  unfold crcchkWith at h
  split at h
  · cases h; exact .inl ⟨rfl, ‹_›⟩
  · exact .inr ⟨by omega, h⟩

/-- What stage 2 of AX25 scans: NRZ[1..NRZLEN) of the buffer stage 1 just wrote. -/
theorem withScanned_nrziStage (s : State) (raw : List Byte) (hlen : raw.length < 2 ^ 16) (k : List Byte → Out) :
    withScanned (nrziStage s raw) k = k ((nrziBytes raw).drop 1) := by
  have hn : (nrziStage s raw).nrzlen.toNat = raw.length := by
    rw [nrziStage_nrzlen, BitVec.toNat_ofNat, Nat.mod_eq_of_lt hlen]
  rcases Nat.eq_zero_or_pos raw.length with h0 | h0
  · refine withBytes_of_ok (Mem.readRun_eq_ok.2 ⟨?_, fun j hj => ?_⟩)
    · rw [List.length_drop, nrziBytes_length, hn]
    · simp at hj; omega
  · refine withBytes_of_ok ?_
    rw [hn]
    have := Mem.readRun_writeRun_part s.nrz (nrziBytes raw) 1 (raw.length - 1) (by simp; omega)
    rw [List.take_of_length_le (by simp)] at this
    exact this

/-- What stage 3 of AX25 reads: the buffer stage 2 just wrote. -/
theorem withBytes_unstfStage (s : State) (bytes : List Byte) (hlen : bytes.length < 2 ^ 16) (k : List Byte → Out) :
    withBytes (unstfStage s bytes) .us 0 (unstfStage s bytes).uslen.toNat k = k (unstuff bytes).2 := by
  have h := unstuff_length bytes
  refine withBytes_of_ok ?_
  have hn : (unstfStage s bytes).uslen.toNat = (unstuff bytes).2.length := by
    simp only [unstfStage_uslen, BitVec.toNat_ofNat]
    exact Nat.mod_eq_of_lt (by omega)
  rw [hn]
  exact Mem.readRun_writeRun _ _ _

/-- The state of AX25 after its first three stages on the capture `raw`. -/
def ax25Stages (s : State) (raw : List Byte) : State :=
  brevStage (unstfStage (nrziStage s raw) ((nrziBytes raw).drop 1)) (unstuff ((nrziBytes raw).drop 1)).2

/-- AX25 on a capture whose characters are all digits (R211): three stages, then "Frame error" or the CRC stage. -/
theorem ax25With_of_raw {C : Config} {s : State} {vs : List (BitVec 4)} (hn : s.niblen.toNat ≤ C.nibMax)
    (hv : hexValues s.bits 0 (2 * s.rawLen) = .ok vs) :
    ax25With C s =
      if (unstuff ((nrziBytes (nibblePairs vs)).drop 1)).1 then .next (frameError (ax25Stages s (nibblePairs vs)))
      else crcStage (ax25Stages s (nibblePairs vs)) := by
  have hl : (nibblePairs vs).length < 2 ^ 16 := by
    have := (hexValues_eq_ok.1 hv).1
    have h2 := s.niblen.isLt
    rw [nibblePairs_length]
    unfold State.rawLen at this
    omega
  have hraw : ∀ k, withRaw C s k = k (nibblePairs vs) := fun k => by
    simp [withRaw, Nat.not_lt.2 hn, hv]
  rw [ax25With, hraw, withScanned_nrziStage _ _ hl, withBytes_unstfStage _ _ (by simp; omega)]
  rfl

/-- What AX25 can do. -/
theorem ax25With_next {C : Config} {s t : State} (h : ax25With C s = .next t) :
    (t = { s with status := statusOfFault .badLength } ∧ C.nibMax < s.niblen.toNat) ∨
    (t = { s with status := statusOfFault .badChar } ∧ s.niblen.toNat ≤ C.nibMax) ∨
    (s.niblen.toNat ≤ C.nibMax ∧ ∃ vs, hexValues s.bits 0 (2 * s.rawLen) = .ok vs ∧
      (nibblePairs vs).length = s.rawLen ∧
      ((unstuff ((nrziBytes (nibblePairs vs)).drop 1)).1 = true ∧ t = frameError (ax25Stages s (nibblePairs vs)) ∨
       (unstuff ((nrziBytes (nibblePairs vs)).drop 1)).1 = false ∧
        crcStage (ax25Stages s (nibblePairs vs)) = .next t)) := by
  rcases withRaw_cases C s (fun raw =>
      withScanned (nrziStage s raw) fun scanned =>
      withBytes (unstfStage (nrziStage s raw) scanned) .us 0 (unstfStage (nrziStage s raw) scanned).uslen.toNat
        fun bytes =>
      if (unstuff scanned).1 then .next (frameError (brevStage (unstfStage (nrziStage s raw) scanned) bytes))
      else crcStage (brevStage (unstfStage (nrziStage s raw) scanned) bytes)) with
    ⟨h1, h2⟩ | ⟨h1, vs, h2, h3, -⟩ | ⟨h1, -, h2⟩ | ⟨h1, i, -, -, h2⟩
  · rw [ax25With, h2] at h; cases h; exact .inl ⟨rfl, h1⟩
  · rw [ax25With_of_raw h1 h2] at h
    refine .inr (.inr ⟨h1, vs, h2, h3, ?_⟩)
    split at h <;> rename_i hc
    · cases h; exact .inl ⟨hc, rfl⟩
    · exact .inr ⟨by simpa using hc, h⟩
  · rw [ax25With, h2] at h; cases h; exact .inr (.inl ⟨rfl, h1⟩)
  · rw [ax25With, h2] at h; cases h

end Sys2Proof.Machine
end

