-- ==== Sys2Proof/Laws/PerInstr.lean ====
section
/-! SUPPORT. Per-instruction laws: family ZeroField, the word of every command is well-formed (30_encoding R80): its field ZERO is
zero and its field OP is one R82 assigns. -/

namespace Sys2Proof.Laws.ZeroField

/-- The command's word has ZERO = 0b0000 and an assigned OP (R80, R82). -/
abbrev Statement (i : Instr) : Prop := wordWf (encode i) = true ∧ i.wf = true

theorem flen : Statement .flen := by decide +kernel
theorem fid : Statement .fid := by decide +kernel
theorem odlen : Statement .odlen := by decide +kernel
theorem odget : Statement .odget := by decide +kernel
theorem fenc : Statement .fenc := by decide +kernel
theorem nrzi : Statement .nrzi := by decide +kernel
theorem unstf : Statement .unstf := by decide +kernel
theorem brev : Statement .brev := by decide +kernel
theorem crcchk : Statement .crcchk := by decide +kernel
theorem ax25 : Statement .ax25 := by decide +kernel

end Sys2Proof.Laws.ZeroField
end

