-- ==== Sys2Proof/Machine/Script.lean ====
section
/-! DEFINITION. The host-script notation of 30_encoding R86 and R87: each line is one host transaction, each
pseudo-instruction a sequence of lines. A notation for programs of transactions, not state or a command of CORE. -/

namespace Sys2Proof.Machine

/-- The lines of R86 (comments apart). -/
inductive ScriptLine where
  | setReg (r : RegName) (v : Word)
  | getReg (r : RegName)
  | put (b : BufId) (i : Nat) (v : Byte)
  | see (b : BufId) (i : Nat)
  | command (i : Instr)
  | reset
  deriving DecidableEq, Repr

/-- The transaction a line stands for (R86). -/
def lineTxn : ScriptLine → HostTxn
  | .setReg r v => .regWrite (numOfReg r) v
  | .getReg r => .regRead (numOfReg r)
  | .put b i v => .bufWrite (numOfBuf b) i v
  | .see b i => .bufRead (numOfBuf b) i
  | .command i => .regWrite 0 ((encode i).setWidth 16)
  | .reset => .reset

/-- The pseudo-instructions of R87; a text stands for its ASCII bytes. -/
inductive Pseudo where
  | load (b : BufId) (bytes : List Byte)
  | loadCs (bytes : List Byte)
  | loadPw (bytes : List Byte)
  | loadKey (bytes : List Byte)
  | loadOd (bytes : List Byte)
  | loadBits (bytes : List Byte)
  | dump (b : BufId) (n : Nat)
  deriving DecidableEq, Repr

/-- `PUT b[a + j] = bytes[j]` for every `j`. -/
def putLines (b : BufId) : Nat → List Byte → List ScriptLine
  | _, [] => []
  | a, v :: vs => .put b a v :: putLines b (a + 1) vs

/-- `SEE b[0]` to `SEE b[n-1]`. -/
def seeLines (b : BufId) (n : Nat) : List ScriptLine := (List.range n).map (.see b)

/-- Adding a bit to PRESENT: a GET of the old value and a SET with the bit added (R87). -/
def addPresent (old bit : BitVec 4) : List ScriptLine :=
  [.getReg .present, .setReg .present ((old ||| bit).setWidth 16)]

/-- The expansion of a pseudo-instruction (R87); `old` is the value the host's GET PRESENT returns. -/
def expand (old : BitVec 4) : Pseudo → List ScriptLine
  | .load b bytes => putLines b 0 bytes
  | .loadCs bytes => putLines .cs 0 bytes ++ .setReg .cslen (BitVec.ofNat 16 bytes.length) :: addPresent old 0b0001#4
  | .loadPw bytes => putLines .pw 0 bytes ++ .setReg .pwlen (BitVec.ofNat 16 bytes.length) :: addPresent old 0b0010#4
  | .loadKey bytes => putLines .key 0 bytes ++ addPresent old 0b0100#4
  | .loadOd bytes => putLines .od 0 bytes ++ .setReg .optlen (BitVec.ofNat 16 bytes.length) :: addPresent old 0b1000#4
  | .loadBits bytes => putLines .bits 0 bytes ++ [.setReg .niblen (BitVec.ofNat 16 bytes.length)]
  | .dump b n => seeLines b n

end Sys2Proof.Machine
end

