-- ==== Sys2Proof/Tests/Slice0.lean ====
section
/-! SUPPORT. Tests from the spec's own vectors (95_test_vectors), each about one step, and for every obligation with hypotheses a
named theorem that meets them. The encrypted vectors use the identity cipher and the drawn bytes A0, A1, ... of 95's preamble. -/

namespace Sys2Proof.Machine.Tests

set_option Elab.async false

/-- The reference cipher of 40 R106 (identity both ways) and 95's drawn bytes. -/
def vectors : Config :=
  { Config.core with
    encByte := fun _ sec i => sec.getD i 0
    decByte := fun _ sec i => sec.getD i 0
    drawByte := fun j => BitVec.ofNat 8 (0xA0 + j) }

/-- A buffer that holds `bytes` from index 0 and nothing else. -/
def fill (bytes : List Byte) : Mem := Mem.writeRun [] 0 bytes

/-- STATUS, RESULT and one more value of the state a command ends in; `none` where it stops. -/
def outcome {α : Type} (o : Out) (f : State → α) : Option (Word × Word × α) :=
  match o with
  | .next t => some (t.status, t.result, f t)
  | .fault _ => none
  | .refused _ => none

/-- The state a command ends in. -/
def after (o : Out) : State :=
  match o with
  | .next t => t
  | .fault _ => State.reset
  | .refused _ => State.reset

/-- Whether a command completes. -/
def completes (o : Out) : Bool :=
  match o with
  | .next _ => true
  | .fault _ => false
  | .refused _ => false

theorem next_after {o : Out} (h : completes o = true) : o = .next (after o) := by
  cases o <;> first | rfl | cases h

/-- CS1, "FOSSASAT-1". -/
def cs1 : List Byte := [0x46#8, 0x4F#8, 0x53#8, 0x53#8, 0x41#8, 0x53#8, 0x41#8, 0x54#8, 0x2D#8, 0x31#8]

/-- PW1, "password". -/
def pw1 : List Byte := [0x70#8, 0x61#8, 0x73#8, 0x73#8, 0x77#8, 0x6F#8, 0x72#8, 0x64#8]

/-- The 15-byte frame of V8 and V10. -/
def frame15 : List Byte := cs1 ++ [0x13#8, 0x03#8, 0x01#8, 0x02#8, 0x03#8]

/-- The 27-byte frame of V9 row 2. -/
def frame27 : List Byte :=
  cs1 ++ [0x21#8, 0x0B#8] ++ pw1 ++ [0x10#8, 0x20#8, 0x30#8, 0xA0#8, 0xA1#8, 0xA2#8, 0xA3#8]

/-- Callsign CS1 loaded. -/
def withCs : State := { State.reset with cs := fill cs1, cslen := 10, present := 0b0001#4 }

/-- P1's operands before FENC. -/
def txState : State := { withCs with present := 0b1001#4, fidr := 0x13#8, optlen := 3, od := fill [0x01#8, 0x02#8, 0x03#8] }

/-- V9 row 2's operands. -/
def txEnc : State :=
  { withCs with
    present := 0b1111#4, fidr := 0x21#8, optlen := 3, od := fill [0x10#8, 0x20#8, 0x30#8], pw := fill pw1, pwlen := 8,
    key := fill (List.replicate 16 0#8) }

/-- V10's operands with FRLEN = `n`. -/
def rxState (n : Word) : State := { withCs with fr := fill frame15, frlen := n }

/-- V11's operands with FRLEN = `n`. -/
def rxEnc (n : Word) : State :=
  { withCs with
    present := 0b0111#4, fr := fill frame27, frlen := n, pw := fill pw1, pwlen := 8, key := fill (List.replicate 16 0#8) }

/-- The text "FEDB7BADDCFE" of V17 A. -/
def textA : List Byte :=
  [0x46#8, 0x45#8, 0x44#8, 0x42#8, 0x37#8, 0x42#8, 0x41#8, 0x44#8, 0x44#8, 0x43#8, 0x46#8, 0x45#8]

/-- V17 A's capture. -/
def captureA : State := { State.reset with bits := fill textA, niblen := 12 }

/-- V17 E's capture, "FE555555555555". -/
def captureE : State :=
  { State.reset with bits := fill ([0x46#8, 0x45#8] ++ List.replicate 12 0x35#8), niblen := 14 }

/-- NRZ holding the bytes given. -/
def nrzState (bytes : List Byte) (n : Word) : State := { State.reset with nrz := fill bytes, nrzlen := n }

/-- AX holding the bytes given. -/
def axState (bytes : List Byte) (n : Word) : State := { State.reset with ax := fill bytes, axlen := n }

/-! ### Well-formedness: one ill-formed term for each check, refused -/

theorem test_wf_core : Config.core.wf = true := by decide +kernel
theorem test_wf_refuses_csMax : { Config.core with csMax := 0 }.wf = false := by decide +kernel
theorem test_wf_refuses_pwMax : { Config.core with pwMax := 256 }.wf = false := by decide +kernel
theorem test_wf_refuses_keyBytes : { Config.core with keyBytes := 0 }.wf = false := by decide +kernel
theorem test_wf_refuses_frameMax : { Config.core with frameMax := 304 }.wf = false := by decide +kernel
theorem test_wf_refuses_odd_nibMax : { Config.core with nibMax := 1023 }.wf = false := by decide +kernel
theorem test_wf_refuses_small_nibMax : { Config.core with nibMax := 0 }.wf = false := by decide +kernel
theorem test_wf_refuses_zero_field : wordWf 0x11#8 = false := by decide +kernel
theorem test_wf_refuses_op : wordWf 0x07#8 = false := by decide +kernel

/-! ### Decoding: words written out from R80 and R82 (ZERO then OP), and words R84 calls illegal -/

theorem test_decode_flen : decode (0b0000#4 ++ 0b0001#4) = .ok .flen := by decide +kernel
theorem test_decode_fid : decode (0b0000#4 ++ 0b0010#4) = .ok .fid := by decide +kernel
theorem test_decode_odlen : decode (0b0000#4 ++ 0b0011#4) = .ok .odlen := by decide +kernel
theorem test_decode_odget : decode (0b0000#4 ++ 0b0100#4) = .ok .odget := by decide +kernel
theorem test_decode_fenc : decode (0b0000#4 ++ 0b0101#4) = .ok .fenc := by decide +kernel
theorem test_decode_nrzi : decode (0b0000#4 ++ 0b1000#4) = .ok .nrzi := by decide +kernel
theorem test_decode_unstf : decode (0b0000#4 ++ 0b1001#4) = .ok .unstf := by decide +kernel
theorem test_decode_brev : decode (0b0000#4 ++ 0b1010#4) = .ok .brev := by decide +kernel
theorem test_decode_crcchk : decode (0b0000#4 ++ 0b1011#4) = .ok .crcchk := by decide +kernel
theorem test_decode_ax25 : decode (0b0000#4 ++ 0b1100#4) = .ok .ax25 := by decide +kernel
theorem test_decode_illegal :
    [0x00#8, 0x06#8, 0x07#8, 0x0D#8, 0x0E#8, 0x0F#8].all (fun w => decode w = .error (.opNotAssigned w)) ∧
    [0x10#8, 0x11#8, 0x8C#8, 0xFF#8].all (fun w => decode w = .error (.zeroFieldNotZero w)) := by decide +kernel
theorem test_decodeTableWord : decodeTableWord 8 0x0C = some .ax25 ∧ decodeTableWord 8 0x0D = none := by decide +kernel

/-! ### The commands on the spec's vectors -/

/-- V6: `c` = 10, `n` = 7, `p` = 8: a whole block of padding. -/
theorem test_flen_whole_block : outcome (execFlen { withCs with present := 0b0011#4, optlen := 7, pwlen := 8 })
    (fun _ => ()) = some (0x0001#16, 43#16, ()) := by decide +kernel
/-- V6: CSLEN = 33: BAD_LENGTH, RESULT unchanged. -/
theorem test_flen_bad_length : outcome (execFlen { withCs with cslen := 33, result := 5 }) (fun _ => ()) =
    some (0x0041#16, 5#16, ()) := by decide +kernel
/-- V7: the shortest accepted frame. -/
theorem test_fid_shortest : outcome (execFid (rxState 11)) (fun _ => ()) = some (0x0001#16, 0x0013#16, ()) := by
  decide +kernel
/-- V7: FRLEN = 10. -/
theorem test_fid_too_short : outcome (execFid (rxState 10)) (fun _ => ()) = some (0x0001#16, 0xFFFE#16, ()) := by
  decide +kernel
/-- V10: FRLEN = 300 with length byte 3: compared as integers. -/
theorem test_odlen_no_wrap : outcome (execOdlen (rxState 300)) (fun _ => ()) = some (0x0001#16, 0xFFFC#16, ()) := by
  decide +kernel
/-- V11: identity cipher, FRLEN = 20: ODLEN does not bound the declared length by the section. -/
theorem test_odlen_encrypted : outcome (odlenWith vectors (rxEnc 20)) (fun _ => ()) = some (0x0001#16, 3#16, ()) := by
  decide +kernel
/-- V10: FRLEN = 15. -/
theorem test_odget_clear : outcome (execOdget (rxState 15)) (fun t => (t.optlen, t.od)) =
    some (0x0001#16, 0#16, 3#8, [(0, 0x01#8), (1, 0x02#8), (2, 0x03#8)]) := by decide +kernel
/-- V11: FRLEN = 22: the declared bytes do not fit. -/
theorem test_odget_encrypted_short : outcome (odgetWith vectors (rxEnc 22)) (fun t => t.od) =
    some (0x0001#16, 0xFFFE#16, []) := by decide +kernel
/-- V8: three bytes of optional data. -/
theorem test_fenc_clear : outcome (execFenc txState) (fun t => (t.frlen, t.fr)) =
    some (0x0001#16, 0#16, 15#16, fill frame15) := by decide +kernel
/-- V9 row 2. -/
theorem test_fenc_encrypted : outcome (fencWith vectors txEnc) (fun t => (t.frlen, t.fr)) =
    some (0x0001#16, 0#16, 27#16, fill frame27) := by decide +kernel
/-- V13, V1: FE DB 7B AD DC FE gives 7E 49 39 84 CD 7E. -/
theorem test_nrzi : outcome (execNrzi captureA) (fun t => (t.nrzlen, t.nrz)) =
    some (0x0001#16, 0#16, 6#16, fill [0x7E#8, 0x49#8, 0x39#8, 0x84#8, 0xCD#8, 0x7E#8]) := by decide +kernel
/-- V12: "FEZZ": BAD_CHAR, nothing written. -/
theorem test_nrzi_bad_char :
    outcome (execNrzi { State.reset with bits := fill [0x46#8, 0x45#8, 0x5A#8, 0x5A#8], niblen := 4 }) (fun t => t.nrz) =
    some (0x0061#16, 0#16, []) := by decide +kernel
/-- R190: four stuffed zeros around a data byte 0x7E. -/
theorem test_unstf_stuffed :
    outcome (execUnstf (nrzState [0x7E#8, 0xFB#8, 0xEE#8, 0x07#8, 0xCF#8, 0xAA#8, 0x57#8, 0xE0#8] 8)) (fun t => (t.uslen, t.us)) =
    some (0x0001#16, 0#16, 5#16, fill [0xFF#8, 0xF8#8, 0x1F#8, 0x7E#8, 0xA5#8]) := by decide +kernel
/-- R190: a flag off the byte boundary. -/
theorem test_unstf_misaligned :
    outcome (execUnstf (nrzState [0x7E#8, 0xFB#8, 0xEF#8, 0xBF#8, 0x7E#8] 5)) (fun t => (t.uslen, t.us)) =
    some (0x0015#16, 1#16, 2#16, fill [0xFF#8, 0xFF#8]) := by decide +kernel
/-- V15. -/
theorem test_brev :
    outcome (execBrev { State.reset with us := fill [0xFF#8, 0xF8#8, 0x1F#8, 0x7E#8, 0xA5#8], uslen := 5 })
      (fun t => (t.axlen, t.ax)) =
    some (0x0001#16, 0#16, 5#16, fill [0xFF#8, 0x1F#8, 0xF8#8, 0x7E#8, 0xA5#8]) := by decide +kernel
/-- V18: USLEN = 600. -/
theorem test_brev_bad_length : outcome (execBrev { State.reset with uslen := 600 }) (fun _ => ()) =
    some (0x0041#16, 0#16, ()) := by decide +kernel
/-- V16 row 1: the trailer bytes stay in AX. -/
theorem test_crcchk_ok : outcome (execCrcchk (axState [0x92#8, 0x9C#8, 0x21#8, 0xB3#8] 4)) (fun t => ([t.axlen, t.crcr], t.ax)) =
    some (0x0001#16, 0#16, [2#16, 0x21B3#16], fill [0x92#8, 0x9C#8, 0x21#8, 0xB3#8]) := by decide +kernel
/-- V16 row 3: the trailer bytes swapped. -/
theorem test_crcchk_swapped : outcome (execCrcchk (axState [0x92#8, 0x9C#8, 0xB3#8, 0x21#8] 4)) (fun t => (t.axlen, t.crcr, t.fcsr)) =
    some (0x0009#16, 2#16, 9#16, 0x21B3#16, 0xB321#16) := by decide +kernel
/-- V17 A. -/
theorem test_ax25_ok : outcome (execAx25 captureA) (fun t => ([t.axlen, t.uslen, t.fcsr], t.ax)) =
    some (0x0001#16, 0#16, [2#16, 4#16, 0x21B3#16], fill [0x92#8, 0x9C#8, 0x21#8, 0xB3#8]) := by decide +kernel
/-- V17 E: no flag. -/
theorem test_ax25_frame_error : outcome (execAx25 captureE) (fun t => ([t.axlen, t.uslen], t.ax)) =
    some (0x0015#16, 1#16, [11#16, 6#16], fill frameErrorText) := by decide +kernel

/-! ### Host port, scripts, telemetry -/

/-- V18: bits above 7 of a write to CMD are dropped, so 0x010C runs AX25. -/
theorem test_cmd_high_bits : outcome (step { State.reset with host := [.regWrite 0 0x010C#16] }) (fun t => t.axlen) =
    some (0x0015#16, 1#16, 11#16) := by decide +kernel
/-- V18: `RegWrite(0, 0x11)`. -/
theorem test_cmd_illegal : outcome (step { State.reset with host := [.regWrite 0 0x0011#16] }) (fun _ => ()) =
    some (0x0021#16, 0#16, ()) := by decide +kernel
/-- R20 U3: UNSTF on a byte nothing has written stops. -/
theorem test_unwritten_read :
    (match execUnstf { State.reset with nrzlen := 2 } with | .fault r => some r | _ => none) = some (.unwrittenRead .nrz 1) := by
  decide +kernel
/-- P1's expansion of `LOADOD 01 02 03` with PRESENT = 0b0001. -/
theorem test_script_loadod : (expand 0b0001#4 (.loadOd [1#8, 2#8, 3#8])).map lineTxn =
    [.bufWrite 4 0 1#8, .bufWrite 4 1 2#8, .bufWrite 4 2 3#8, .regWrite 8 3#16, .regRead 3, .regWrite 3 0b1001#16] := by
  decide +kernel
/-- V3: `voltage_field(50) = 1`, `temperature_field(250) = 5/2`, `temperature_field(-100) = -1`. -/
theorem test_telemetry_scale :
    tlmScaled 50 (20, 1000) = 1 ∧ tlmScaled 250 (10, 1000) = 5 / 2 ∧ tlmScaled (-100) (10, 1000) = -1 := by decide +kernel
/-- V3's buffer: board temperature 0xFF9C, MCU temperature 0xF6. -/
theorem test_telemetry_buffer :
    let od : List Byte := [0xC8#8, 0x10#8, 0x27#8, 0xBE#8, 0x32#8, 0#8, 0xFF#8, 0xFA#8, 0#8, 0x9C#8, 0xFF#8, 0xF6#8, 5#8, 0#8, 0xF#8]
    tlmValue (some od) .boardTemperature = -1 ∧ tlmValue (some od) .mcuTemperature = -10 ∧
    tlmValue (some od) .batteryChargingCurrent = 1 / 10 ∧ tlmValue (some (od.take 9)) .boardTemperature = 0 := by
  decide +kernel

/-- R157, V3's scale: OPTLEN = 5 with unwritten bytes below it. A field that does not fit is 0; one whose own byte is written has its
value. -/
theorem test_telemetry_view :
    let C : Config := { Config.core with hasTlm := true }
    let s : State := { State.reset with optlen := 5, od := [(3, 50#8)] }
    (tlmView C s .fossa1 true .boardTemperature).toOption = some 0 ∧
    (tlmView C s .fossa1 true .batteryVoltage).toOption = some 1 := by
  decide +kernel

/-! ### Witnesses: concrete states that meet the hypotheses of the obligations, each clause -/

theorem witness_StepRunsDecodedCommand : ∃ (s : State) (v : Word) (rest : List HostTxn) (i : Instr),
    s.host = .regWrite 0 v :: rest ∧ decode (v.setWidth 8) = .ok i :=
  ⟨{ State.reset with host := [.regWrite 0 0x010C#16] }, 0x010C#16, [], .ax25, rfl, by decide +kernel⟩
theorem witness_IllegalWordIsShellFault : ∃ (s : State) (v : Word) (rest : List HostTxn), s.host = .regWrite 0 v :: rest ∧
    v.setWidth 8 ∉ [0x01#8, 0x02#8, 0x03#8, 0x04#8, 0x05#8, 0x08#8, 0x09#8, 0x0A#8, 0x0B#8, 0x0C#8] :=
  ⟨{ State.reset with host := [.regWrite 0 0x0107#16, .reset] }, 0x0107#16, [.reset], rfl, by decide +kernel⟩
theorem witness_RegisterWrites : ∀ n : Fin 16, ∃ (s : State) (v : Word) (rest : List HostTxn), s.host = .regWrite n v :: rest :=
  fun n => ⟨{ State.reset with host := [.regWrite n 0xFFFF#16] }, 0xFFFF#16, [], rfl⟩
theorem witness_RegisterReads : ∀ n : Fin 16, ∃ (s : State) (rest : List HostTxn), s.host = .regRead n :: rest :=
  fun n => ⟨{ withCs with host := [.regRead n] }, [], rfl⟩
/-- In range at the last index, out of range at the first, and an id above 8. -/
theorem witness_BufferWrites :
    (∃ (s : State) (v : Byte), s.host = [.bufWrite 8 511 v] ∧ 8 = numOfBuf .ax ∧ 511 < capacity Config.core .ax) ∧
    (∃ (s : State) (v : Byte), s.host = [.bufWrite 4 255 v] ∧ 4 = numOfBuf .od ∧ capacity Config.core .od ≤ 255) ∧
    (∃ (s : State) (v : Byte), s.host = [.bufWrite 9 0 v] ∧ 8 < 9) :=
  ⟨⟨{ State.reset with host := [.bufWrite 8 511 7#8] }, 7#8, rfl, rfl, by decide⟩,
    ⟨{ State.reset with host := [.bufWrite 4 255 7#8] }, 7#8, rfl, rfl, by decide⟩,
    ⟨{ State.reset with host := [.bufWrite 9 0 7#8] }, 7#8, rfl, by decide⟩⟩
theorem witness_BufferReads :
    (∃ s : State, s.host = [.bufRead 0 9] ∧ 9 < capacity Config.core .cs ∧ (s.buf .cs).read 9 = some 0x31#8) ∧
    (∃ s : State, s.host = [.bufRead 0 32] ∧ capacity Config.core .cs ≤ 32) ∧ (∃ s : State, s.host = [.bufRead 9 0]) :=
  ⟨⟨{ withCs with host := [.bufRead 0 9] }, rfl, by decide, by decide +kernel⟩,
    ⟨{ withCs with host := [.bufRead 0 32] }, rfl, by decide⟩, ⟨{ withCs with host := [.bufRead 9 0] }, rfl⟩⟩
theorem witness_ResetLeavesZeros : ∃ (s : State) (rest : List HostTxn), s.host = .reset :: rest :=
  ⟨{ withCs with host := [.reset] }, [], rfl⟩
theorem witness_FlenRule :
    (∃ s, LengthTooBig s .flen) ∧ (∃ s, ¬ LengthTooBig s .flen ∧ ¬ CallsignOk s) ∧
    (∃ s, ¬ LengthTooBig s .flen ∧ CallsignOk s ∧ s.c = 32) :=
  ⟨⟨{ withCs with cslen := 33 }, by decide +kernel⟩, ⟨{ withCs with cslen := 0 }, by decide +kernel⟩,
    ⟨{ withCs with cslen := 32 }, by decide +kernel⟩⟩
theorem witness_FlenCountsWholeBlocks : ∃ s, FcpLengthsOk s ∧ CallsignOk s ∧ s.pwP = true :=
  ⟨rxEnc 27, by decide +kernel⟩
theorem witness_ParserPreamble :
    (∃ s, LengthTooBig s .fid ∧ LengthTooBig s .odlen ∧ LengthTooBig s .odget) ∧
    (∃ s, ¬ LengthTooBig s .odlen ∧ ¬ LengthTooBig s .fid ∧ ¬ CallsignOk s) ∧
    (∃ s, ¬ LengthTooBig s .odlen ∧ ¬ LengthTooBig s .fid ∧ CallsignOk s ∧ s.frameLen < s.c + 1) :=
  ⟨⟨rxState 513, by decide +kernel⟩, ⟨{ rxState 512 with present := 0 }, by decide +kernel⟩, ⟨rxState 10, by decide +kernel⟩⟩
theorem witness_FidResult : (∃ s, LengthTooBig s .fid) ∧ (∃ s, ¬ LengthTooBig s .fid ∧ ¬ CallsignOk s) ∧
    (∃ s, ¬ LengthTooBig s .fid ∧ CallsignOk s ∧ s.frameLen < s.c + 1) ∧
    ∃ (s : State) (f : Byte), ¬ LengthTooBig s .fid ∧ CallsignOk s ∧ s.c + 1 ≤ s.frameLen ∧ s.fr.read s.c = some f :=
  ⟨⟨rxState 513, by decide +kernel⟩, ⟨{ rxState 512 with cslen := 0 }, by decide +kernel⟩, ⟨rxState 10, by decide +kernel⟩,
    ⟨rxState 11, 0x13#8, by decide +kernel⟩⟩
theorem witness_OdlenClear :
    (∃ s, ¬ LengthTooBig s .odlen ∧ CallsignOk s ∧ ¬ Encrypted s ∧ s.frameLen = s.c + 1) ∧
    (∃ (s : State) (d : Byte), ¬ LengthTooBig s .odlen ∧ CallsignOk s ∧ ¬ Encrypted s ∧ s.c + 1 < s.frameLen ∧
      s.fr.read (s.c + 1) = some d) :=
  ⟨⟨rxState 11, by decide +kernel⟩, ⟨rxState 12, 3#8, by decide +kernel⟩⟩
/-- Also the hypotheses of `OdgetEncrypted`, with `sec` the decrypted section. -/
theorem witness_OdlenEncrypted :
    (∃ s, ¬ LengthTooBig s .odlen ∧ CallsignOk s ∧ Encrypted s ∧ s.frameLen = s.c + 1) ∧
    (∃ s, ¬ LengthTooBig s .odlen ∧ CallsignOk s ∧ Encrypted s ∧ s.c + 1 < s.frameLen ∧ s.frameLen - s.c - 1 < 1 + s.p) ∧
    (∃ (s : State) (key ct pw : List Byte), ¬ LengthTooBig s .odlen ∧ CallsignOk s ∧ Encrypted s ∧ Holds s .key 0 key ∧
      key.length = Config.core.keyBytes ∧ Holds s .fr (s.c + 1) ct ∧ s.c + 1 + ct.length = s.frameLen ∧ Holds s .pw 0 pw ∧ pw.length = s.p ∧
      1 + s.p ≤ ct.length) :=
  ⟨⟨rxEnc 11, by decide +kernel⟩, ⟨rxEnc 19, by decide +kernel⟩,
    ⟨rxEnc 20, List.replicate 16 0#8, (frame27.drop 11).take 9, pw1, by decide +kernel⟩⟩
theorem witness_OdgetEncrypted :
    (∃ s, ¬ LengthTooBig s .odget ∧ CallsignOk s ∧ Encrypted s ∧ s.frameLen = s.c + 1) ∧
    (∃ s, ¬ LengthTooBig s .odget ∧ CallsignOk s ∧ Encrypted s ∧ s.c + 1 < s.frameLen ∧ s.frameLen - s.c - 1 < 1 + s.p) ∧
    (∃ (s : State) (key ct pw sec : List Byte), ¬ LengthTooBig s .odget ∧ CallsignOk s ∧ Encrypted s ∧ Holds s .key 0 key ∧
      key.length = Config.core.keyBytes ∧ Holds s .fr (s.c + 1) ct ∧ s.c + 1 + ct.length = s.frameLen ∧ Holds s .pw 0 pw ∧ pw.length = s.p ∧
      1 + s.p ≤ ct.length ∧ sec = Config.core.dec key ct) :=
  ⟨⟨rxEnc 11, by decide +kernel⟩, ⟨rxEnc 19, by decide +kernel⟩,
    ⟨rxEnc 27, List.replicate 16 0#8, frame27.drop 11, pw1, _, by decide +kernel, by decide +kernel, by decide +kernel,
      by decide +kernel, by decide, by decide +kernel, by decide +kernel, by decide +kernel, by decide +kernel, by decide +kernel, rfl⟩⟩
/-- The chain of outcomes of the encrypted path, each reached under the identity cipher: success, wrong password, declared length
below the password's, declared bytes that do not fit (V11). -/
theorem witness_encrypted_outcomes :
    (outcome (odgetWith vectors (rxEnc 23)) (fun t => t.optlen)) = some (0x0001#16, 0#16, 3#8) ∧
    (outcome (odgetWith vectors { rxEnc 27 with pw := fill (pw1.take 7 ++ [0x65#8]) }) (fun _ => ())) = some (0x0001#16, 0xFFFD#16, ()) ∧
    (outcome (odgetWith vectors { rxEnc 27 with fr := fill (frame27.set 11 5#8) }) (fun _ => ())) = some (0x0001#16, 0xFFFC#16, ()) ∧
    (outcome (odgetWith vectors { rxEnc 27 with fr := fill (frame27.set 11 0x10#8) }) (fun _ => ())) = some (0x0001#16, 0xFFFE#16, ()) := by
  decide +kernel
theorem witness_OdgetClear :
    (∃ (s : State) (got want : List Byte), ¬ LengthTooBig s .odget ∧ CallsignOk s ∧ ¬ Encrypted s ∧ s.c + 1 ≤ s.frameLen ∧
      Holds s .fr 0 got ∧ got.length = s.c ∧ Holds s .cs 0 want ∧ want.length = s.c ∧ got ≠ want) ∧
    (∃ (s : State) (got want : List Byte), ¬ LengthTooBig s .odget ∧ CallsignOk s ∧ ¬ Encrypted s ∧ s.c + 1 ≤ s.frameLen ∧
      Holds s .fr 0 got ∧ got.length = s.c ∧ Holds s .cs 0 want ∧ want.length = s.c ∧ got = want ∧ s.frameLen = s.c + 1) ∧
    (∃ (s : State) (got want : List Byte) (d : Byte), ¬ LengthTooBig s .odget ∧ CallsignOk s ∧ ¬ Encrypted s ∧
      Holds s .fr 0 got ∧ got.length = s.c ∧ Holds s .cs 0 want ∧ want.length = s.c ∧ got = want ∧ s.c + 2 ≤ s.frameLen ∧
      s.fr.read (s.c + 1) = some d ∧ d.toNat ≠ s.frameLen - s.c - 2) ∧
    (∃ (s : State) (got want payload : List Byte) (d : Byte), ¬ LengthTooBig s .odget ∧ CallsignOk s ∧ ¬ Encrypted s ∧
      Holds s .fr 0 got ∧ got.length = s.c ∧ Holds s .cs 0 want ∧ want.length = s.c ∧ got = want ∧ s.c + 2 ≤ s.frameLen ∧
      s.fr.read (s.c + 1) = some d ∧ d.toNat = s.frameLen - s.c - 2 ∧ Holds s .fr (s.c + 2) payload ∧
      payload.length = d.toNat) :=
  ⟨⟨{ rxState 11 with cs := fill (cs1.take 9 ++ [0x32#8]) }, cs1, cs1.take 9 ++ [0x32#8], by decide +kernel⟩,
    ⟨rxState 11, cs1, cs1, by decide +kernel⟩, ⟨rxState 16, cs1, cs1, 3#8, by decide +kernel⟩,
    ⟨rxState 15, cs1, cs1, [1#8, 2#8, 3#8], 3#8, by decide +kernel⟩⟩
theorem witness_FencTests :
    (∃ s, LengthTooBig s .fenc) ∧ (∃ s, ¬ LengthTooBig s .fenc ∧ ¬ CallsignOk s) ∧
    (∃ s, ¬ LengthTooBig s .fenc ∧ CallsignOk s ∧ ¬ (s.n > 0 ↔ s.odP = true)) ∧
    (∃ s, ¬ LengthTooBig s .fenc ∧ CallsignOk s ∧ (s.n > 0 ↔ s.odP = true) ∧ Encrypted s ∧ s.n + s.p > 255) :=
  ⟨⟨{ txState with cslen := 33 }, by decide +kernel⟩, ⟨{ txState with cslen := 0 }, by decide +kernel⟩,
    ⟨{ txState with optlen := 0 }, by decide +kernel⟩, ⟨{ txEnc with optlen := 248 }, by decide +kernel⟩⟩
theorem witness_FencClear :
    (∃ (s : State) (cs od : List Byte), ¬ LengthTooBig s .fenc ∧ CallsignOk s ∧ (s.n > 0 ↔ s.odP = true) ∧ ¬ Encrypted s ∧
      Holds s .cs 0 cs ∧ cs.length = s.c ∧ Holds s .od 0 od ∧ od.length = s.n ∧ s.n > 0) ∧
    (∃ (s : State) (cs od : List Byte), ¬ LengthTooBig s .fenc ∧ CallsignOk s ∧ (s.n > 0 ↔ s.odP = true) ∧ ¬ Encrypted s ∧
      Holds s .cs 0 cs ∧ cs.length = s.c ∧ Holds s .od 0 od ∧ od.length = s.n ∧ s.n = 0) :=
  ⟨⟨txState, cs1, [1#8, 2#8, 3#8], by decide +kernel⟩, ⟨withCs, cs1, [], by decide +kernel⟩⟩
theorem witness_FencEncrypted : ∃ (s : State) (cs pw od key : List Byte), ¬ LengthTooBig s .fenc ∧ CallsignOk s ∧
    (s.n > 0 ↔ s.odP = true) ∧ Encrypted s ∧ s.n + s.p ≤ 255 ∧ Holds s .cs 0 cs ∧ cs.length = s.c ∧ Holds s .pw 0 pw ∧
    pw.length = s.p ∧ Holds s .od 0 od ∧ od.length = s.n ∧ Holds s .key 0 key ∧ key.length = Config.core.keyBytes :=
  ⟨txEnc, cs1, pw1, [0x10#8, 0x20#8, 0x30#8], List.replicate 16 0#8, by decide +kernel⟩
/-- Also the hypotheses of `FlenAgreesWithFenc` and `FencFrame`; then a password without a key. -/
theorem witness_FencFrameFits :
    (∃ s t, s.keyP = false ∧ s.pwP = false ∧ ¬ Encrypted s ∧ exec .fenc s = .next t ∧ t.status = 0x0001#16 ∧ t.result = 0) ∧
    (∃ s t, s.keyP = false ∧ s.pwP = true ∧ exec .fenc s = .next t ∧ t.status = 0x0001#16 ∧ t.result = 0) :=
  ⟨⟨txState, _, by decide +kernel, by decide +kernel, by decide +kernel, next_after (by decide +kernel), by decide +kernel⟩,
    ⟨{ txState with present := 0b1011#4, pwlen := 8 }, _, by decide +kernel, by decide +kernel, next_after (by decide +kernel),
      by decide +kernel⟩⟩

/-- The host has changed registers and buffers that R148 does not name. -/
theorem witness_RoundTripClear : ∃ s t w : State, s.keyP = false ∧ s.pwP = false ∧ exec .fenc s = .next t ∧
    t.status = 0x0001#16 ∧ t.result = 0 ∧ KeepsFrame t w ∧ w.cs = t.cs ∧ w.keyP = false ∧ w.pwP = false ∧
    w.optlen ≠ t.optlen ∧ w.pwlen ≠ t.pwlen ∧ w.od ≠ t.od :=
  ⟨txState, _, { after (exec .fenc txState) with optlen := 7, pwlen := 99, od := [], present := 0b0001#4 },
    by decide +kernel, by decide +kernel, next_after (by decide +kernel), by decide +kernel⟩

/-- The reference cipher is a matched pair. -/
theorem vectors_matched : vectors.Matched := by
  have h : ∀ key sec, vectors.dec key sec = sec := fun key sec => by
    apply List.ext_getElem
    · simp
    · intro i h1 h2
      simp [Config.dec, vectors, h2]
  intro key sec
  rw [h]
  exact h key sec

theorem witness_RoundTripEncrypted : ∃ (C : Config) (s t w : State), C.wf = true ∧ C.csMax + 273 < 65536 ∧ C.Matched ∧
    Encrypted s ∧ fencWith C s = .next t ∧ t.status = 0x0001#16 ∧ t.result = 0 ∧ KeepsFrame t w ∧ Encrypted w ∧
    w.key = t.key ∧ w.pw = t.pw ∧ w.pwlen = t.pwlen ∧ w.od ≠ t.od ∧ w.cs ≠ t.cs :=
  ⟨vectors, txEnc, _, { after (fencWith vectors txEnc) with od := [], cs := [] }, by decide +kernel, by decide, vectors_matched,
    by decide +kernel, next_after (by decide +kernel), by decide +kernel⟩
/-- The password "passwore". -/
theorem witness_WrongPasswordRejected : ∃ (C : Config) (s t w : State) (pw pw' : List Byte), C.wf = true ∧
    C.csMax + 273 < 65536 ∧ C.Matched ∧ Encrypted s ∧ fencWith C s = .next t ∧ t.status = 0x0001#16 ∧ t.result = 0 ∧
    Holds s .pw 0 pw ∧ pw.length = s.p ∧ KeepsFrame t w ∧ Encrypted w ∧ w.key = t.key ∧ w.pwlen = t.pwlen ∧
    Holds w .pw 0 pw' ∧ pw'.length = w.p ∧ pw' ≠ pw :=
  ⟨vectors, txEnc, _, { after (fencWith vectors txEnc) with pw := fill (pw1.take 7 ++ [0x65#8]) }, pw1, pw1.take 7 ++ [0x65#8],
    by decide +kernel, by decide, vectors_matched, by decide +kernel, next_after (by decide +kernel), by decide +kernel⟩
theorem witness_FcpResultIsCodeOrValue :
    (∃ s t, exec .odlen s = .next t ∧ t.status = 0x0001#16 ∧ t.result.toInt < 0) ∧
    (∃ s t, exec .flen s = .next t ∧ t.status = 0x0001#16 ∧ 0 ≤ t.result.toInt) ∧
    (∃ s t, exec .fid s = .next t ∧ t.status = 0x0001#16 ∧ 0 ≤ t.result.toInt) ∧
    (∃ s t, exec .odget s = .next t ∧ t.status = 0x0001#16 ∧ 0 ≤ t.result.toInt) :=
  ⟨⟨rxState 12, _, next_after (by decide +kernel), by decide +kernel⟩,
    ⟨withCs, _, next_after (by decide +kernel), by decide +kernel⟩,
    ⟨rxState 11, _, next_after (by decide +kernel), by decide +kernel⟩,
    ⟨rxState 15, _, next_after (by decide +kernel), by decide +kernel⟩⟩
theorem witness_NrziResult : ∃ (s : State) (text raw : List Byte), s.niblen.toNat ≤ Config.core.nibMax ∧ Holds s .bits 0 text ∧
    text.length = 2 * (s.niblen.toNat / 2) ∧ raw.length = s.niblen.toNat / 2 ∧
    ∀ i, (h : i < raw.length) → (text[2 * i]?).bind nibval = some (raw[i].extractLsb' 4 4) ∧
      (text[2 * i + 1]?).bind nibval = some (raw[i].extractLsb' 0 4) :=
  ⟨captureA, textA, [0xFE#8, 0xDB#8, 0x7B#8, 0xAD#8, 0xDC#8, 0xFE#8], by decide +kernel⟩
/-- NIBLEN above the capacity; a bad second character; an odd NIBLEN whose last character is not a digit. -/
theorem witness_MalformedHexText : (∃ s, LengthTooBig s .nrzi ∧ LengthTooBig s .ax25) ∧
    (∃ (s : State) (text : List Byte) (ch : Byte), s.niblen.toNat ≤ Config.core.nibMax ∧
      Holds s .bits 0 (text ++ [ch]) ∧ text.length < 2 * (s.niblen.toNat / 2) ∧ nibval ch = none) ∧
    (∃ s t : State, s.niblen.toNat ≤ Config.core.nibMax ∧ s.niblen.toNat % 2 = 1 ∧
      exec .nrzi { s with niblen := s.niblen - 1 } = .next t) ∧
    (∃ s t : State, s.niblen.toNat ≤ Config.core.nibMax ∧ s.niblen.toNat % 2 = 1 ∧
      exec .ax25 { s with niblen := s.niblen - 1 } = .next t) :=
  ⟨⟨{ State.reset with niblen := 1025 }, by decide +kernel⟩,
    ⟨{ State.reset with bits := fill [0x46#8, 0x47#8], niblen := 3 }, [0x46#8], 0x47#8, by decide +kernel⟩,
    ⟨{ State.reset with bits := fill [0x46#8, 0x45#8, 0x5A#8], niblen := 3 }, _, by decide +kernel, by decide +kernel,
      next_after (by decide +kernel)⟩,
    ⟨{ State.reset with bits := fill [0x46#8, 0x45#8, 0x5A#8], niblen := 3 }, _, by decide +kernel, by decide +kernel,
      next_after (by decide +kernel)⟩⟩
/-- Also the first case of `NoClosingFlagIsFrameError`: no six ones in a row because there are fewer than six ones. -/
theorem witness_UnstfCompletes : ∃ (s : State) (bytes : List Byte), s.nrzlen.toNat ≤ Config.core.bytesMax ∧ Holds s .nrz 1 bytes ∧
    bytes.length = s.nrzlen.toNat - 1 ∧
    ∀ before after : List Bool, bitsOf bytes ≠ before ++ List.replicate 6 true ++ after := by
  refine ⟨nrzState [0x7E#8, 0x1F#8] 2, [0x1F#8], by decide +kernel, by decide +kernel, by decide +kernel, fun b a h => ?_⟩
  have hc := congrArg (List.count true) h
  rw [show List.count true (bitsOf [0x1F#8]) = 5 by decide +kernel] at hc
  simp only [List.count_append, List.count_replicate_self] at hc
  omega
/-- The other two cases of `NoClosingFlagIsFrameError`: six ones at the end of the input, and seven ones. -/
theorem witness_NoClosingFlag :
    (∃ (s : State) (bytes : List Byte) (d : List Bool), s.nrzlen.toNat ≤ Config.core.bytesMax ∧ Holds s .nrz 1 bytes ∧
      bytes.length = s.nrzlen.toNat - 1 ∧ bitsOf bytes = stuff d ++ List.replicate 6 true) ∧
    (∃ (s : State) (bytes : List Byte) (d tail : List Bool), s.nrzlen.toNat ≤ Config.core.bytesMax ∧ Holds s .nrz 1 bytes ∧
      bytes.length = s.nrzlen.toNat - 1 ∧ bitsOf bytes = stuff d ++ List.replicate 7 true ++ tail) :=
  ⟨⟨nrzState [0x7E#8, 0x49#8, 0x3F#8] 3, [0x49#8, 0x3F#8], bitsOf [0x49#8] ++ [false, false], by decide +kernel⟩,
    ⟨nrzState [0x7E#8, 0x49#8, 0xFE#8] 3, [0x49#8, 0xFE#8], bitsOf [0x49#8], [false], by decide +kernel⟩⟩
/-- What `NoClosingFlagIsFrameError` says of US: input that ends with stuffed bits, after five ones, after six, and seven ones (R190). -/
theorem witness_NoClosingFlag_us :
    (∃ d, bitsOf [0x49#8, 0x38#8] = stuff d) ∧
    (∃ d, (stuff d).getLast? ≠ some true ∧ bitsOf [0x49#8, 0x1F#8] = stuff d ++ List.replicate 5 true) ∧
    (∃ d, (stuff d).getLast? ≠ some true ∧ bitsOf [0x49#8, 0x3F#8] = stuff d ++ List.replicate 6 true) ∧
    (∃ d tail, (stuff d).getLast? ≠ some true ∧ bitsOf [0x49#8, 0xFE#8, 0x00#8] = stuff d ++ List.replicate 7 true ++ tail) ∧
    Holds (nrzState [0x7E#8, 0x49#8, 0xFE#8, 0x00#8] 4) .nrz 1 [0x49#8, 0xFE#8, 0x00#8] :=
  ⟨⟨bitsOf [0x49#8, 0x38#8], by decide +kernel⟩, ⟨bitsOf [0x49#8] ++ List.replicate 3 false, by decide +kernel⟩,
    ⟨bitsOf [0x49#8] ++ List.replicate 2 false, by decide +kernel⟩,
    ⟨(bitsOf [0x49#8]).take 7, true :: List.replicate 9 false, by decide +kernel⟩, by decide +kernel⟩
/-- Aligned (eight data bits) and misaligned (seven). -/
theorem witness_UnstuffAlignment :
    (∃ (d tail : List Bool) (bytes : List Byte), bitsOf bytes = stuff d ++ flagBits ++ tail ∧ d.length % 8 = 0 ∧ d ≠ []) ∧
    (∃ (d tail : List Bool) (bytes : List Byte), bitsOf bytes = stuff d ++ flagBits ++ tail ∧ d.length % 8 ≠ 0) :=
  ⟨⟨bitsOf [0xF8#8], List.replicate 7 false, pack (stuff (bitsOf [0xF8#8]) ++ flagBits ++ List.replicate 7 false), by decide +kernel⟩,
    ⟨List.replicate 7 true, [], pack (stuff (List.replicate 7 true) ++ flagBits), by decide +kernel⟩⟩
theorem witness_UnstfInvertsStuffing : ∃ (s : State) (first : Byte) (data : List Byte) (tail line : List Bool),
    line = stuff (bitsOf data) ++ [false, true, true, true, true, true, true, false] ++ tail ∧ line.length % 8 = 0 ∧
    Holds s .nrz 0 (first :: pack line) ∧ s.nrzlen.toNat = 1 + (pack line).length ∧ s.nrzlen.toNat ≤ Config.core.bytesMax :=
  ⟨nrzState [0x7E#8, 0xFB#8, 0xEE#8, 0x07#8, 0xCF#8, 0xAA#8, 0x57#8, 0xE0#8] 8, 0x7E#8, [0xFF#8, 0xF8#8, 0x1F#8, 0x7E#8, 0xA5#8],
    List.replicate 4 false, _, rfl, by decide +kernel⟩
theorem witness_BrevResult : (∃ s, LengthTooBig s .brev) ∧ ∃ (s : State) (bytes : List Byte),
    s.uslen.toNat ≤ Config.core.bytesMax ∧ Holds s .us 0 bytes ∧ bytes.length = s.uslen.toNat :=
  ⟨⟨{ State.reset with uslen := 513 }, by decide +kernel⟩,
    ⟨{ State.reset with us := fill [0x49#8, 0x39#8], uslen := 2 }, [0x49#8, 0x39#8], by decide +kernel⟩⟩
/-- AXLEN 513, 1, and 2 with a passing and a failing trailer. -/
theorem witness_CrcchkRule :
    (∃ s : State, LengthTooBig s .crcchk) ∧ (∃ s : State, s.axlen.toNat < 2) ∧
    (∃ (s : State) (payload : List Byte) (hi lo : Byte), s.axlen.toNat ≤ Config.core.axMax ∧ s.axlen.toNat = payload.length + 2 ∧
      Holds s .ax 0 (payload ++ [hi, lo]) ∧ (crc16 payload).toNat = hi.toNat * 256 + lo.toNat) ∧
    (∃ (s : State) (payload : List Byte) (hi lo : Byte), s.axlen.toNat ≤ Config.core.axMax ∧ s.axlen.toNat = payload.length + 2 ∧
      Holds s .ax 0 (payload ++ [hi, lo]) ∧ (crc16 payload).toNat ≠ hi.toNat * 256 + lo.toNat) :=
  ⟨⟨axState [] 513, by decide +kernel⟩, ⟨axState [] 1, by decide +kernel⟩,
    ⟨axState [0xFF#8, 0xFF#8] 2, [], 0xFF#8, 0xFF#8, by decide +kernel⟩,
    ⟨axState [0x92#8, 0x9C#8, 0x21#8, 0xB2#8] 4, [0x92#8, 0x9C#8], 0x21#8, 0xB2#8, by decide +kernel⟩⟩
/-- A changed trailer byte, and a changed payload byte. -/
theorem witness_CorruptedFrameDetected :
    (∃ (s t : State) (m : Mem) (payload : List Byte) (hi lo hi' lo' : Byte),
      s.axlen.toNat = payload.length + 2 ∧ Holds s .ax 0 (payload ++ [hi, lo]) ∧ exec .crcchk s = .next t ∧
      t.status = 0x0001#16 ∧ Holds { s with ax := m } .ax 0 (payload ++ [hi', lo']) ∧ (hi', lo') ≠ (hi, lo)) ∧
    (∃ (s t : State) (m : Mem) (pre post : List Byte) (v v' hi lo : Byte),
      s.axlen.toNat = (pre ++ [v] ++ post).length + 2 ∧ Holds s .ax 0 (pre ++ [v] ++ post ++ [hi, lo]) ∧
      exec .crcchk s = .next t ∧ t.status = 0x0001#16 ∧ Holds { s with ax := m } .ax 0 (pre ++ [v'] ++ post ++ [hi, lo]) ∧ v ≠ v') :=
  ⟨⟨axState [0x92#8, 0x9C#8, 0x21#8, 0xB3#8] 4, _, fill [0x92#8, 0x9C#8, 0x21#8, 0xB2#8], [0x92#8, 0x9C#8], 0x21#8, 0xB3#8, 0x21#8,
      0xB2#8, by decide +kernel, by decide +kernel, next_after (by decide +kernel), by decide +kernel⟩,
    ⟨axState [0x92#8, 0x9C#8, 0x21#8, 0xB3#8] 4, _, fill [0x93#8, 0x9C#8, 0x21#8, 0xB3#8], [], [0x9C#8], 0x92#8, 0x93#8, 0x21#8, 0xB3#8,
      by decide +kernel, by decide +kernel, next_after (by decide +kernel), by decide +kernel⟩⟩
/-- A capture whose unstuffing succeeds and one whose unstuffing fails. -/
theorem witness_Ax25IsTheStages :
    (∃ s t1 t2, exec .nrzi s = .next t1 ∧ t1.status = 0x0001#16 ∧ exec .unstf t1 = .next t2 ∧ t2.bitstuff = false) ∧
    (∃ s t1 t2, exec .nrzi s = .next t1 ∧ t1.status = 0x0001#16 ∧ exec .unstf t1 = .next t2 ∧ t2.bitstuff = true) :=
  ⟨⟨captureA, _, _, next_after (by decide +kernel), by decide +kernel, next_after (by decide +kernel), by decide +kernel⟩,
    ⟨captureE, _, _, next_after (by decide +kernel), by decide +kernel, next_after (by decide +kernel), by decide +kernel⟩⟩
theorem witness_Ax25ThreeOutcomes : ∃ (s : State) (text : List Byte), s.niblen.toNat ≤ Config.core.nibMax ∧ Holds s .bits 0 text ∧
    text.length = 2 * (s.niblen.toNat / 2) ∧ ∀ ch ∈ text, nibval ch ≠ none :=
  ⟨captureA, textA, by decide +kernel⟩
/-- V5's second frame, with stuffing and four fill bits. -/
theorem witness_Ax25EndToEnd : ∃ (s : State) (frame : List Byte) (fill : List Bool), (lineBits frame fill).length % 8 = 0 ∧
    Holds s .bits 0 (hexText (channelBytes frame fill)) ∧ s.niblen.toNat = (hexText (channelBytes frame fill)).length ∧
    s.niblen.toNat ≤ Config.core.nibMax :=
  ⟨{ State.reset with bits := fill (hexText [0xFE#8, 0x07#8, 0xE1#8, 0x50#8, 0x20#8, 0x66#8, 0xCF#8, 0xEA#8]), niblen := 16 },
    [0xFF#8, 0x1F#8, 0xF8#8], List.replicate 4 false, by decide +kernel⟩
/-- The hypotheses of the frame statements and of the rules of the whole machine: every command completes somewhere with its own effect
(STATUS 0x0001). -/
theorem witness_every_command_completes : ∀ i : Instr, ∃ s t, exec i s = .next t ∧ t.status = 0x0001#16 ∧ t.sf = 0 := by
  intro i
  cases i
  · exact ⟨withCs, _, next_after (by decide +kernel), by decide +kernel⟩
  · exact ⟨rxState 15, _, next_after (by decide +kernel), by decide +kernel⟩
  · exact ⟨rxState 15, _, next_after (by decide +kernel), by decide +kernel⟩
  · exact ⟨rxState 15, _, next_after (by decide +kernel), by decide +kernel⟩
  · exact ⟨txState, _, next_after (by decide +kernel), by decide +kernel⟩
  · exact ⟨captureA, _, next_after (by decide +kernel), by decide +kernel⟩
  · exact ⟨nrzState [0x7E#8, 0x7E#8] 2, _, next_after (by decide +kernel), by decide +kernel⟩
  · exact ⟨{ State.reset with us := fill [0x49#8], uslen := 1 }, _, next_after (by decide +kernel), by decide +kernel⟩
  · exact ⟨axState [0x92#8, 0x9C#8, 0x21#8, 0xB3#8] 4, _, next_after (by decide +kernel), by decide +kernel⟩
  · exact ⟨captureA, _, next_after (by decide +kernel), by decide +kernel⟩
theorem witness_ShellFaultChangesStatusOnly : ∃ s t, exec .brev s = .next t ∧ t.sf ≠ 0 :=
  ⟨{ State.reset with uslen := 513 }, _, next_after (by decide +kernel), by decide +kernel⟩
/-- Each of the ten conditions of BAD_LENGTH is met at the first length above the capacity, and failed at the capacity. -/
theorem witness_BadLengthExactly : ∀ i : Instr,
    (∃ s, LengthTooBig s i) ∧ ∃ s t, ¬ LengthTooBig s i ∧ exec i s = .next t := by
  intro i
  cases i
  · exact ⟨⟨{ withCs with cslen := 33 }, by decide +kernel⟩, withCs, _, by decide +kernel, next_after (by decide +kernel)⟩
  · exact ⟨⟨rxState 513, by decide +kernel⟩, rxState 512, _, by decide +kernel, next_after (by decide +kernel)⟩
  · exact ⟨⟨rxState 513, by decide +kernel⟩, rxState 512, _, by decide +kernel, next_after (by decide +kernel)⟩
  · exact ⟨⟨rxState 513, by decide +kernel⟩, rxState 512, _, by decide +kernel, next_after (by decide +kernel)⟩
  · exact ⟨⟨{ txEnc with pwlen := 33 }, by decide +kernel⟩, txState, _, by decide +kernel, next_after (by decide +kernel)⟩
  · exact ⟨⟨{ State.reset with niblen := 1025 }, by decide +kernel⟩, captureA, _, by decide +kernel, next_after (by decide +kernel)⟩
  · exact ⟨⟨nrzState [] 513, by decide +kernel⟩, nrzState [] 1, _, by decide +kernel, next_after (by decide +kernel)⟩
  · exact ⟨⟨{ State.reset with uslen := 513 }, by decide +kernel⟩, State.reset, _, by decide +kernel, next_after (by decide +kernel)⟩
  · exact ⟨⟨axState [] 513, by decide +kernel⟩, State.reset, _, by decide +kernel, next_after (by decide +kernel)⟩
  · exact ⟨⟨{ State.reset with niblen := 1025 }, by decide +kernel⟩, captureA, _, by decide +kernel, next_after (by decide +kernel)⟩
theorem witness_ReadsStayBelowLength : ∃ (s : State) (m : Mem), m ≠ s.buf .fr ∧
    ∀ k, k < readBound s .fr → Mem.read m k = (s.buf .fr).read k :=
  ⟨rxState 11, fill (cs1 ++ [0x13#8, 0xFF#8]), by decide +kernel⟩
theorem witness_StopsOnlyOnUnwrittenByte : ∃ s : State, (s.buf .nrz).read 1 = none ∧ 1 < readBound s .nrz ∧
    (match exec .unstf s with | .fault r => some r | _ => none) = some (.unwrittenRead .nrz 1) :=
  ⟨nrzState [] 2, by decide +kernel⟩
/-- A state that meets the invariant and is not the one after reset, with a step that runs a command. -/
theorem witness_StepKeepsInvariant : ∃ s t, Inv s ∧ step s = .next t ∧ s.host = [.regWrite 0 0x05#16] :=
  ⟨{ txState with host := [.regWrite 0 0x05#16] }, _,
    ⟨fun b => by cases b <;> decide +kernel, fun b => by cases b <;> decide +kernel, by decide +kernel,
      by unfold resultInRange; decide +kernel⟩,
    next_after (by decide +kernel), rfl⟩
theorem witness_TelemetryValues : (∀ f, ∃ od : List Byte, tlmOffset f + tlmWidth (tlmShape f) = od.length) ∧
    ∀ f, ∃ od : List Byte, od.length < tlmOffset f + tlmWidth (tlmShape f) :=
  ⟨fun f => ⟨List.replicate (tlmOffset f + tlmWidth (tlmShape f)) 0#8, by simp⟩, fun f => ⟨[], by cases f <;> decide⟩⟩
/-- A companion's configuration, OPTLEN = 5: a field that does not fit, one that fits and is written, one that fits and is not. -/
theorem witness_TelemetryViewReadsItsField : ∃ (C : Config) (s : State) (od : List Byte), C.hasTlm = true ∧
    s.n < tlmOffset .boardTemperature + tlmWidth (tlmShape .boardTemperature) ∧ od.length = s.n ∧
    tlmOffset .batteryVoltage + tlmWidth (tlmShape .batteryVoltage) ≤ s.n ∧
    (∀ k, k < 4 → 3 ≤ k → s.od.read k = od[k]?) ∧
    tlmOffset .solarCellVoltage1 + tlmWidth (tlmShape .solarCellVoltage1) ≤ s.n ∧ s.od.read 4 = none :=
  ⟨{ Config.core with hasTlm := true }, { State.reset with optlen := 5, od := [(3, 50#8)] }, [0#8, 0#8, 0#8, 50#8, 0#8],
    by decide +kernel⟩

end Sys2Proof.Machine.Tests
end

section
/-! SUPPORT. What a step with a pending host transaction does, transaction by transaction (10_state R21, R23, R26, 20_memory R60), and
the statements about the host's register port. -/

namespace Sys2Proof.Machine

/-- CORE takes the oldest pending transaction, whole (20_memory R66, R67). -/
theorem step_of_host {s : State} {x : HostTxn} {rest : List HostTxn} (h : s.host = x :: rest) :
    step s = hostTransact { s with host := rest } x := by
  simp only [step, takeNext, h]

/-- A write to CMD of a word that decodes runs the command (R23). -/
theorem writeCmd_of_decode {s : State} {v : Word} {i : Instr} (h : decode (v.setWidth 8) = .ok i) :
    writeCmd s v = exec i s := by
  simp only [writeCmd, h]

/-- A write to any register but CMD stores under R26 and runs nothing. -/
theorem hostRegWrite_of_ne_cmd {s : State} {n : Fin 16} {v : Word} (h : regOfNum n ≠ .cmd) :
    hostRegWrite s n v = .next (hostRegStore s v (regOfNum n)) := by
  unfold hostRegWrite
  split
  · exact absurd ‹_› h
  · rfl

/-- Settles O3: the step takes the write, and the write to CMD runs what its low byte decodes to. -/
theorem stepRunsDecodedCommand : Obligations.StepRunsDecodedCommand := by
  intro s v rest i hs hi
  calc step s = hostTransact { s with host := rest } (.regWrite 0 v) := step_of_host hs
    _ = writeCmd { s with host := rest } v := rfl
    _ = exec i { s with host := rest } := writeCmd_of_decode hi

/-- Settles O5: every register number but 0 names a register other than CMD, and `hostRegStore` gives what it takes. -/
theorem registerWrites : Obligations.RegisterWrites := by
  intro s n v rest hs
  have store : regOfNum n ≠ .cmd → step s = .next (hostRegStore { s with host := rest } v (regOfNum n)) :=
    fun hn => (step_of_host hs).trans (hostRegWrite_of_ne_cmd hn)
  refine ⟨?_, ?_, ?_, ?_, ?_, ?_, ?_, ?_, ?_, ?_, ?_⟩
  case refine_11 => rintro (rfl | rfl | rfl | rfl | rfl) <;> exact store (by decide)
  all_goals rintro rfl; exact store (by decide)

/-- Settles O6: the value is `hostRegRead`'s, and zero extension keeps the number a narrow register holds. -/
theorem registerReads : Obligations.RegisterReads := by
  intro s n rest hs
  refine ⟨hostRegRead { s with host := rest } (regOfNum n), step_of_host hs, ?_, ?_, ?_, ?_, ?_, ?_, ?_, ?_, ?_, ?_, ?_, ?_,
    ?_, ?_, ?_⟩
  case refine_1 => rintro (rfl | rfl) <;> rfl
  case refine_4 => rintro rfl; exact BitVec.toNat_setWidth_of_le (by decide)
  case refine_8 => rintro rfl; exact BitVec.toNat_setWidth_of_le (by decide)
  case refine_9 => rintro rfl; exact BitVec.toNat_setWidth_of_le (by decide)
  all_goals rintro rfl; rfl

end Sys2Proof.Machine
end

section
/-! SUPPORT. The fields of STATUS in the two ways a command leaves it (10_state R24, 60_exceptions R225), and bytes a state change
leaves alone. -/

namespace Sys2Proof.Machine

section StatusWord
variable (l : BitVec 2) (b : Bool) (f : BitVec 3)

@[simp] theorem statusWord_done : (statusWord l b f).getLsbD 0 = true := by
  revert l b f; decide +kernel

@[simp] theorem statusWord_busy : (statusWord l b f).getLsbD 1 = false := by
  revert l b f; decide +kernel

@[simp] theorem statusWord_lst : (statusWord l b f).extractLsb' 2 2 = l := by
  revert l b f; decide +kernel

@[simp] theorem statusWord_bitstuff : (statusWord l b f).getLsbD 4 = b := by
  revert l b f; decide +kernel

@[simp] theorem statusWord_sf : (statusWord l b f).extractLsb' 5 3 = f := by
  revert l b f; decide +kernel

@[simp] theorem statusWord_reserved : (statusWord l b f).extractLsb' 8 8 = 0 := by
  revert l b f; decide +kernel

end StatusWord

section Finished
variable (s : State) (l : LinkStatus) (b : Bool) (r : Word)

@[simp] theorem State.finish_lst : (s.finish l b r).lst = lstCode l := statusWord_lst ..
@[simp] theorem State.finish_bitstuff : (s.finish l b r).bitstuff = b := statusWord_bitstuff ..
@[simp] theorem State.finish_sf : (s.finish l b r).sf = 0 := statusWord_sf ..

end Finished

/-- The state a shell fault leaves: STATUS alone is written (60_exceptions R225). -/
def State.faulted (s : State) (f : ShellFault) : State := { s with status := statusOfFault f }

section Faulted
variable (s : State) (f : ShellFault)

@[simp] theorem State.faulted_status : (s.faulted f).status = statusOfFault f := rfl
@[simp] theorem State.faulted_result : (s.faulted f).result = s.result := rfl
@[simp] theorem State.faulted_lst : (s.faulted f).lst = 0 := statusWord_lst ..
@[simp] theorem State.faulted_bitstuff : (s.faulted f).bitstuff = false := statusWord_bitstuff ..
@[simp] theorem State.faulted_sf : (s.faulted f).sf = sfCode f := statusWord_sf ..
@[simp] theorem State.faulted_buf (n : BufId) : (s.faulted f).buf n = s.buf n := by cases n <;> rfl

theorem statusOfFault_ne_ok : statusOfFault f ≠ 0x0001#16 := by revert f; rintro (_ | _ | _) <;> decide
theorem sfCode_ne_zero : sfCode f ≠ 0 := by cases f <;> decide
theorem sfCode_toNat_le : (sfCode f).toNat ≤ 3 := by cases f <;> decide

end Faulted

theorem errCode_ne_zero (e : FcpError) : errCode e ≠ 0 := by cases e <;> decide

theorem lstCode_ne_three (l : LinkStatus) : lstCode l ≠ 3 := by cases l <;> decide

/-- A buffer that reads as before is untouched in every range. -/
theorem Untouched.of_buf_eq {s t : State} {b : BufId} (h : t.buf b = s.buf b) (a n : Nat) : Untouched s t b a n :=
  fun k _ => by rw [h]

/-- A run written from index 0 leaves the bytes from its length on alone. -/
theorem Untouched.of_writeRun {s t : State} {b : BufId} {bs : List Byte} {n : Nat}
    (h : t.buf b = (s.buf b).writeRun 0 bs) (hn : bs.length ≤ n) : Untouched s t b 0 n :=
  fun k hk => by rw [h]; exact Mem.read_writeRun_outside _ _ _ (.inr (by omega))

end Sys2Proof.Machine
end

section
/-! SUPPORT. What a next state of each Frame Codec command is, in the terms of its frame (10_state R35), and the frame statements
of those commands. -/

namespace Sys2Proof.Machine

/-- FLEN, FID and ODLEN end in BAD_LENGTH or write STATUS and RESULT. -/
theorem lengthCommand_next {i : Instr} {s t : State} (hi : i ∈ [Instr.flen, .fid, .odlen]) (h : exec i s = .next t) :
    t = s.faulted .badLength ∨ ∃ r, t = s.finish .ok false r := by
  simp only [List.mem_cons, List.not_mem_nil, or_false] at hi
  rcases hi with rfl | rfl | rfl
  · rcases flenWith_cases Config.core s with ⟨-, hs⟩ | ⟨-, -, hs⟩ | ⟨-, -, hs⟩ <;> cases hs.symm.trans h
    · exact .inl rfl
    · exact .inr ⟨_, rfl⟩
    · exact .inr ⟨_, rfl⟩
  · rcases fidWith_next h with rfl | ⟨-, -, rfl | rfl | ⟨-, -, f, -, rfl⟩⟩
    · exact .inl rfl
    all_goals exact .inr ⟨_, rfl⟩
  · rcases odlenWith_next h with rfl | ⟨e, rfl⟩ | ⟨n, -, rfl⟩
    · exact .inl rfl
    all_goals exact .inr ⟨_, rfl⟩

/-- The callsign's length is within the capacity when the shell check passed and the callsign is valid. -/
theorem c_le_csMax {C : Config} {s : State} (hl : csTooLong C s = false) (hv : s.csValid = true) : s.c ≤ C.csMax := by
  simp only [State.csValid, Bool.and_eq_true] at hv
  simpa [csTooLong, hv.1] using hl

/-- The state FENC's success leaves (R144). -/
def State.withFrame (s : State) (frame : List Byte) (k : Nat) : State :=
  { s with fr := s.fr.writeRun 0 frame, frlen := BitVec.ofNat 16 frame.length, draws := s.draws + k }.finish .ok false 0

/-- FENC ends in BAD_LENGTH, in a code, or with a frame of at most `CS_MAX` + 1 + 272 bytes stored (R144, R147). -/
theorem fencWith_next_withFrame {C : Config} {s t : State} (h : fencWith C s = .next t) :
    t = s.faulted .badLength ∨ (∃ e, t = s.finish .ok false (errCode e)) ∨
    ∃ frame k, frame.length ≤ C.csMax + 273 ∧ t = s.withFrame frame k := by
  rcases fencWith_next h with h | h | ⟨hl, -, hv, -, cs, hcs, h⟩
  · exact .inl h
  · exact .inr (.inl h)
  have hc : cs.length ≤ C.csMax := (Mem.readRun_eq_ok.1 hcs).1 ▸ c_le_csMax hl hv
  rcases h with ⟨-, hnp, pw, od, key, hpw, hod, -, h⟩ | ⟨-, -, od, hod, h⟩ | ⟨-, -, h⟩
  all_goals cases h; refine .inr (.inr ⟨_, _, ?_, rfl⟩)
  · have hpw := (Mem.readRun_eq_ok.1 hpw).1
    have hod := (Mem.readRun_eq_ok.1 hod).1
    have hpad := padlen_spec s.n s.p
    simp only [secPlain, List.length_append, List.length_cons, enc_length, drawn_length]
    omega
  · have hod := (Mem.readRun_eq_ok.1 hod).1
    have hn : s.n < 256 := s.optlen.isLt
    simp only [List.length_append, List.length_cons]
    omega
  · simp only [List.length_append, List.length_cons, List.length_nil]
    omega

/-- Settles O43: each of the three ends in a shell fault or in `finish`, and neither touches a buffer. -/
theorem lengthCommandsFrame : Obligations.LengthCommandsFrame := by
  intro i s t hi h
  rcases lengthCommand_next hi h with rfl | ⟨r, rfl⟩
  · exact ⟨rfl, fun b k => by rw [State.faulted_buf]⟩
  · exact ⟨rfl, fun b k => by rw [State.finish_buf]⟩

/-- Settles O44: only success writes OPTLEN and OD, and a payload of at most 255 bytes has its length in OPTLEN's 8 bits. -/
theorem odgetFrame : Obligations.OdgetFrame := by
  intro s t h
  rcases odgetWith_next h with rfl | ⟨e, rfl⟩ | ⟨payload, hl, rfl⟩
  · exact ⟨rfl, fun _ => ⟨rfl, fun _ => rfl⟩, fun hs => absurd hs (statusOfFault_ne_ok _)⟩
  · exact ⟨rfl, fun _ => ⟨rfl, fun _ => rfl⟩, fun _ hr => absurd hr (errCode_ne_zero e)⟩
  · refine ⟨rfl, fun hne => ?_, fun _ _ => .of_writeRun rfl ?_⟩
    · simp [statusOf_ok] at hne
    · simp only [State.finish_optlen, BitVec.toNat_ofNat]
      omega

/-- Settles O45: only success writes FRLEN and FR, and the longest frame's length fits the 16 bits of FRLEN. -/
theorem fencFrame : Obligations.FencFrame := by
  intro s t h
  rcases fencWith_next_withFrame h with rfl | ⟨e, rfl⟩ | ⟨frame, k, hl, rfl⟩
  · exact ⟨rfl, fun _ => ⟨rfl, rfl, fun _ => rfl⟩, fun hs => absurd hs (statusOfFault_ne_ok _)⟩
  · exact ⟨rfl, fun _ => ⟨rfl, rfl, fun _ => rfl⟩, fun _ hr => absurd hr (errCode_ne_zero e)⟩
  · refine ⟨rfl, fun hne => ?_, fun _ _ => .of_writeRun rfl ?_⟩
    · simp [State.withFrame, statusOf_ok] at hne
    · simp only [core_csMax] at hl
      simp only [State.withFrame, State.finish_frlen, BitVec.toNat_ofNat]
      omega

end Sys2Proof.Machine
end

section
/-! SUPPORT. What a next state of each link command is, in the terms of its frame (10_state R35, 20_memory R72), and the frame
statements of those commands. -/

namespace Sys2Proof.Machine

/-- The CRC stage writes CRCR and FCSR and ends in "CRC error" or with the trailer taken off AXLEN (46 R201). -/
theorem crcStage_next_ends {s t : State} (h : crcStage s = .next t) :
    ∃ c f, t = crcError { s with crcr := c, fcsr := f } ∨
      t = { s with crcr := c, fcsr := f, axlen := s.axlen - 2 }.finish .ok false 0 := by
  rcases crcStage_next h with ⟨-, ht⟩ | ⟨-, payload, hi, lo, -, -, -, ⟨-, ht⟩ | ⟨-, ht⟩⟩
  · exact ⟨_, _, .inl ht⟩
  · exact ⟨_, _, .inl ht⟩
  · exact ⟨_, _, .inr ht⟩

@[simp] theorem crcError_lst (s : State) : (crcError s).lst = 2 := State.finish_lst ..
@[simp] theorem frameError_lst (s : State) : (frameError s).lst = 1 := State.finish_lst ..

/-- USLEN holds the unstuffer's output length: it is below the length of a buffer a 16-bit register describes. -/
theorem unstuff_length_ofNat_toNat {bytes : List Byte} (h : bytes.length < 2 ^ 16) :
    (BitVec.ofNat 16 (unstuff bytes).2.length).toNat = (unstuff bytes).2.length := by
  rw [BitVec.toNat_ofNat]
  exact Nat.mod_eq_of_lt (by have := unstuff_length bytes; omega)

theorem rawLen_lt (s : State) : s.rawLen < 2 ^ 16 := by
  have := s.niblen.isLt
  unfold State.rawLen
  omega

theorem nrziFrame {s t : State} (h : exec .nrzi s = .next t) :
    t = { s with status := t.status, result := t.result, nrzlen := t.nrzlen, nrz := t.nrz } ∧
    Untouched s t .nrz 0 t.nrzlen.toNat := by
  rcases nrziWith_next h with ⟨rfl, -⟩ | ⟨rfl, -⟩ | ⟨-, vs, -, hl, rfl⟩
  · exact ⟨rfl, .of_buf_eq rfl _ _⟩
  · exact ⟨rfl, .of_buf_eq rfl _ _⟩
  · refine ⟨rfl, .of_writeRun rfl ?_⟩
    have := rawLen_lt s
    simp only [State.finish_nrzlen, nrziStage_nrzlen, nrziBytes_length, BitVec.toNat_ofNat]
    omega

theorem unstfFrame {s t : State} (h : exec .unstf s = .next t) :
    t = { s with status := t.status, result := t.result, uslen := t.uslen, us := t.us } ∧
    Untouched s t .us 0 t.uslen.toNat := by
  rcases unstfWith_next h with ⟨rfl, -⟩ | ⟨-, bytes, hb, h⟩
  · exact ⟨rfl, .of_buf_eq rfl _ _⟩
  have hlen : bytes.length < 2 ^ 16 := by
    have := (Mem.readRun_eq_ok.1 hb).1
    have := s.nrzlen.isLt
    omega
  rcases h with ⟨-, rfl⟩ | ⟨-, rfl⟩
  all_goals exact ⟨rfl, .of_writeRun rfl (unstuff_length_ofNat_toNat hlen).ge⟩

theorem brevFrame {s t : State} (h : exec .brev s = .next t) :
    t = { s with status := t.status, result := t.result, axlen := t.axlen, ax := t.ax } ∧
    Untouched s t .ax 0 t.axlen.toNat := by
  rcases brevWith_next h with ⟨rfl, -⟩ | ⟨-, bytes, hb, rfl⟩
  · exact ⟨rfl, .of_buf_eq rfl _ _⟩
  · refine ⟨rfl, .of_writeRun rfl ?_⟩
    rw [List.length_map]
    exact (Mem.readRun_eq_ok.1 hb).1.le

/-- Settles O46: each stage writes a run from index 0 whose length is the one it leaves in its register. -/
theorem stageFrames : Obligations.StageFrames :=
  fun _ _ => ⟨nrziFrame, unstfFrame, brevFrame⟩

/-- Settles O47: AX is written on CRC_ERROR only, and then with the nine bytes of the text. -/
theorem crcchkFrame : Obligations.CrcchkFrame := by
  intro s t h
  rcases crcchkWith_next h with ⟨rfl, -⟩ | ⟨-, h⟩
  · exact ⟨rfl, .of_buf_eq rfl _ _, fun _ _ => rfl⟩
  obtain ⟨c, f, rfl | rfl⟩ := crcStage_next_ends h
  · exact ⟨rfl, .of_writeRun rfl (by decide), fun hl => absurd (crcError_lst _) hl⟩
  · exact ⟨rfl, .of_buf_eq rfl _ _, fun _ _ => rfl⟩

/-- Stages 1 to 3 of AX25 write the runs NRZ, US and AX, the last as long as US. -/
theorem ax25Stages_untouched {s : State} {raw : List Byte} (hl : raw.length < 2 ^ 16) :
    Untouched s (ax25Stages s raw) .nrz 0 (ax25Stages s raw).nrzlen.toNat ∧
    Untouched s (ax25Stages s raw) .us 0 (ax25Stages s raw).uslen.toNat ∧
    Untouched s (ax25Stages s raw) .ax 0 (ax25Stages s raw).uslen.toNat := by
  have hus : (ax25Stages s raw).uslen.toNat = (unstuff ((nrziBytes raw).drop 1)).2.length :=
    unstuff_length_ofNat_toNat (by simp; omega)
  refine ⟨.of_writeRun rfl ?_, .of_writeRun rfl hus.ge, .of_writeRun rfl ?_⟩
  · change (nrziBytes raw).length ≤ (BitVec.ofNat 16 raw.length).toNat
    rw [nrziBytes_length, BitVec.toNat_ofNat, Nat.mod_eq_of_lt hl]
  · rw [List.length_map, hus]

/-- How AX25 ends after its stages (47 R211): from `u` to `t` only STATUS, RESULT, AXLEN, CRCR, FCSR and AX change, there is no shell
fault, and AX changes below the text's length on an error, else not at all. -/
structure Ax25Ends (u t : State) : Prop where
  frame : t = { u with
    status := t.status, result := t.result, axlen := t.axlen, crcr := t.crcr, fcsr := t.fcsr, ax := t.ax }
  sf_zero : t.sf = 0
  ax_untouched : Untouched u t .ax 0 (if t.lst = 0 then 0 else t.axlen.toNat)

theorem ax25Ends_frameError (u : State) : Ax25Ends u (frameError u) where
  frame := rfl
  sf_zero := State.finish_sf ..
  ax_untouched := .of_writeRun rfl (by rw [frameError_lst, frameError_axlen]; decide)

theorem ax25Ends_of_crcStage {u t : State} (h : crcStage u = .next t) : Ax25Ends u t := by
  obtain ⟨c, f, rfl | rfl⟩ := crcStage_next_ends h
  · exact ⟨rfl, State.finish_sf .., .of_writeRun rfl (by rw [crcError_lst, crcError_axlen]; decide)⟩
  · exact ⟨rfl, State.finish_sf .., .of_buf_eq rfl _ _⟩

/-- AX25 ends in a shell fault, or its stages run on a capture `raw` and it ends as `Ax25Ends` says. -/
theorem ax25_next_ends {s t : State} (h : exec .ax25 s = .next t) :
    (∃ f, t = s.faulted f) ∨ ∃ raw : List Byte, raw.length < 2 ^ 16 ∧ Ax25Ends (ax25Stages s raw) t := by
  rcases ax25With_next h with ⟨ht, -⟩ | ⟨ht, -⟩ | ⟨-, vs, -, hl, h⟩
  · exact .inl ⟨_, ht⟩
  · exact .inl ⟨_, ht⟩
  · refine .inr ⟨_, hl ▸ rawLen_lt s, ?_⟩
    rcases h with ⟨-, rfl⟩ | ⟨-, h⟩
    · exact ax25Ends_frameError _
    · exact ax25Ends_of_crcStage h

/-- Untouched up to one bound and then up to another is untouched up to the larger. -/
theorem Untouched.trans_max {s t u : State} {b : BufId} {n m : Nat} (h1 : Untouched s t b 0 n) (h2 : Untouched t u b 0 m) :
    Untouched s u b 0 (max n m) :=
  fun k hk => (h2 k (.inr (by omega))).trans (h1 k (.inr (by omega)))

/-- Settles O48: the stages' runs stay as they are but for AX, over which an error writes its text. -/
theorem ax25Frame : Obligations.Ax25Frame := by
  intro s t h
  rcases ax25_next_ends h with ⟨f, rfl⟩ | ⟨raw, hl, hframe, hsf, hax'⟩
  · exact ⟨rfl, .of_buf_eq rfl _ _, .of_buf_eq rfl _ _, .of_buf_eq rfl _ _, fun _ => rfl⟩
  obtain ⟨hnrz, hus, hax⟩ := ax25Stages_untouched (s := s) hl
  refine ⟨by rw [hframe]; rfl, ?_, ?_, ?_, fun hne => absurd hsf hne⟩
  · rw [hframe]; exact hnrz
  · rw [hframe]; exact hus
  · have huslen : t.uslen = (ax25Stages s raw).uslen := by rw [hframe]
    rw [huslen]
    exact hax.trans_max hax'

end Sys2Proof.Machine
end

section
/-! SUPPORT. How every command ends (10_state R24, R25, R225), which STATUS that leaves, and what no command writes (R21). -/

namespace Sys2Proof.Machine

/-- The link statuses a command can report (60_exceptions R221): a failed unstuffing by UNSTF and AX25, a CRC error by CRCCHK and
AX25. -/
def CanReport (i : Instr) : LinkStatus → Prop
  | .ok => True
  | .frameError => i = .unstf ∨ i = .ax25
  | .crcError => i = .crcchk ∨ i = .ax25

/-- The five link commands. -/
def linkCommands : List Instr := [.nrzi, .unstf, .brev, .crcchk, .ax25]

/-- A command completed without a shell fault: it wrote STATUS and RESULT together, last, with a link status it can report, BITSTUFF
on FRAME_ERROR alone, and the link status in RESULT if it is a link command. -/
def Completed (i : Instr) (t : State) : Prop :=
  ∃ u l r, t = State.finish u l (decide (l = .frameError)) r ∧ CanReport i l ∧ (i ∈ linkCommands → r = (lstCode l).setWidth 16)

/-- A Frame Codec command completes with any RESULT, and link status OK. -/
theorem completed_of_not_link {i : Instr} {u : State} {r : Word} (hi : i ∉ linkCommands) :
    Completed i (u.finish .ok false r) :=
  ⟨u, .ok, r, rfl, trivial, fun h => absurd h hi⟩

theorem completed_ok (i : Instr) (u : State) : Completed i (u.finish .ok false 0) :=
  ⟨u, .ok, 0, rfl, trivial, fun _ => rfl⟩

theorem completed_of_crcStage {i : Instr} {s t : State} (hi : i = .crcchk ∨ i = .ax25) (h : crcStage s = .next t) :
    Completed i t := by
  obtain ⟨c, f, rfl | rfl⟩ := crcStage_next_ends h
  · exact ⟨_, .crcError, 2, rfl, hi, fun _ => rfl⟩
  · exact completed_ok i _

/-- Every command that gives a next state ends in a shell fault, which writes STATUS alone, or completes. -/
theorem exec_next_ends {i : Instr} {s t : State} (h : exec i s = .next t) : (∃ f, t = s.faulted f) ∨ Completed i t := by
  have hlength (hi : i ∈ [Instr.flen, .fid, .odlen]) (hl : i ∉ linkCommands) :
      (∃ f, t = s.faulted f) ∨ Completed i t := by
    rcases lengthCommand_next hi h with ht | ⟨r, rfl⟩
    · exact .inl ⟨_, ht⟩
    · exact .inr (completed_of_not_link hl)
  cases i with
  | flen => exact hlength (by decide) (by decide)
  | fid => exact hlength (by decide) (by decide)
  | odlen => exact hlength (by decide) (by decide)
  | odget =>
    rcases odgetWith_next h with ht | ⟨e, rfl⟩ | ⟨payload, -, rfl⟩
    · exact .inl ⟨_, ht⟩
    all_goals exact .inr (completed_of_not_link (by decide))
  | fenc =>
    rcases fencWith_next_withFrame h with ht | ⟨e, rfl⟩ | ⟨frame, k, -, rfl⟩
    · exact .inl ⟨_, ht⟩
    all_goals exact .inr (completed_of_not_link (by decide))
  | nrzi =>
    rcases nrziWith_next h with ⟨ht, -⟩ | ⟨ht, -⟩ | ⟨-, vs, -, -, rfl⟩
    · exact .inl ⟨_, ht⟩
    · exact .inl ⟨_, ht⟩
    · exact .inr (completed_ok _ _)
  | unstf =>
    rcases unstfWith_next h with ⟨ht, -⟩ | ⟨-, bytes, -, ⟨-, rfl⟩ | ⟨-, rfl⟩⟩
    · exact .inl ⟨_, ht⟩
    · exact .inr ⟨_, .frameError, 1, rfl, .inl rfl, fun _ => rfl⟩
    · exact .inr (completed_ok _ _)
  | brev =>
    rcases brevWith_next h with ⟨ht, -⟩ | ⟨-, bytes, -, rfl⟩
    · exact .inl ⟨_, ht⟩
    · exact .inr (completed_ok _ _)
  | crcchk =>
    rcases crcchkWith_next h with ⟨ht, -⟩ | ⟨-, h⟩
    · exact .inl ⟨_, ht⟩
    · exact .inr (completed_of_crcStage (.inl rfl) h)
  | ax25 =>
    rcases ax25With_next h with ⟨ht, -⟩ | ⟨ht, -⟩ | ⟨-, vs, -, -, ⟨-, rfl⟩ | ⟨-, h⟩⟩
    · exact .inl ⟨_, ht⟩
    · exact .inl ⟨_, ht⟩
    · exact .inr ⟨_, .frameError, 1, rfl, .inr rfl, fun _ => rfl⟩
    · exact .inr (completed_of_crcStage (.inr rfl) h)

/-- Settles O49: a shell fault and `finish` both compose STATUS with `statusWord`, whose fields are given. -/
theorem everyCommandWritesStatus : Obligations.EveryCommandWritesStatus := by
  intro i s t h
  rcases exec_next_ends h with ⟨f, rfl⟩ | ⟨u, l, r, rfl, hl, -⟩
  · refine ⟨statusWord_done .., statusWord_busy .., ?_, ?_, statusWord_reserved .., ?_, ?_⟩
    · rw [State.faulted_lst]; decide
    · rw [State.faulted_sf]; exact sfCode_toNat_le f
    · simp
    · simp
  · refine ⟨statusWord_done .., statusWord_busy .., ?_, ?_, statusWord_reserved .., ?_, ?_⟩
    · rw [State.finish_lst]; exact lstCode_ne_three l
    · rw [State.finish_sf]; decide
    · rw [State.finish_bitstuff, decide_eq_true_eq]
      rintro rfl
      exact hl
    · rw [State.finish_lst]
      cases l with
      | ok => exact fun h0 => absurd rfl h0
      | frameError => exact fun _ => hl.imp_right .inr
      | crcError => exact fun _ => .inr hl

/-- Settles O52: without a shell fault the command completed, and `finish` wrote STATUS and RESULT from one link status. -/
theorem linkResultIsLinkStatus : Obligations.LinkResultIsLinkStatus := by
  intro i s t hi h hsf
  rcases exec_next_ends h with ⟨f, rfl⟩ | ⟨u, l, r, rfl, -, hr⟩
  · exact absurd hsf (sfCode_ne_zero f ∘ (State.faulted_sf s f).symm.trans)
  · rw [State.finish_result, State.finish_lst, State.finish_bitstuff]
    exact ⟨hr hi, by cases l <;> decide⟩

/-- What no command writes: the operand registers and buffers the host alone sets (R21, 20_memory R61), and the model's own fields
of the host's side of the port. -/
def State.operands (s : State) :
    (BitVec 4 × Word × Word × Byte × Word) × (Mem × Mem × Mem × Mem) × List HostTxn × Word × Nat :=
  ((s.present, s.cslen, s.pwlen, s.fidr, s.niblen), (s.cs, s.pw, s.key, s.bits), s.host, s.hostData, s.resets)

/-- No command writes an operand: by the frame of each command. -/
theorem exec_next_operands {i : Instr} {s t : State} (h : exec i s = .next t) : t.operands = s.operands := by
  cases i with
  | flen => exact (congrArg State.operands (lengthCommandsFrame _ s t (by decide) h).1 :)
  | fid => exact (congrArg State.operands (lengthCommandsFrame _ s t (by decide) h).1 :)
  | odlen => exact (congrArg State.operands (lengthCommandsFrame _ s t (by decide) h).1 :)
  | odget => exact (congrArg State.operands (odgetFrame s t h).1 :)
  | fenc => exact (congrArg State.operands (fencFrame s t h).1 :)
  | nrzi => exact (congrArg State.operands (nrziFrame h).1 :)
  | unstf => exact (congrArg State.operands (unstfFrame h).1 :)
  | brev => exact (congrArg State.operands (brevFrame h).1 :)
  | crcchk => exact (congrArg State.operands (crcchkFrame s t h).1 :)
  | ax25 => exact (congrArg State.operands (ax25Frame s t h).1 :)

/-- Settles O53: the statement is `exec_next_operands`, field by field. -/
theorem operandsNeverWritten : Obligations.OperandsNeverWritten := by
  intro i s t h
  simpa only [State.operands, Prod.mk.injEq, and_assoc] using exec_next_operands h

end Sys2Proof.Machine
end

section
/-! SUPPORT. Where commands stop (10_state R38, 20_memory R73): on a byte that holds no value, below the length register that describes
its buffer. One lemma per shared read, then one per command. -/

namespace Sys2Proof.Machine

section ReadBound
variable (s : State)

@[simp] theorem readBound_cs : readBound s .cs = s.c := rfl
@[simp] theorem readBound_pw : readBound s .pw = s.p := rfl
@[simp] theorem readBound_key : readBound s .key = Config.core.keyBytes := rfl
@[simp] theorem readBound_fr : readBound s .fr = s.frameLen := rfl
@[simp] theorem readBound_od : readBound s .od = s.n := rfl
@[simp] theorem readBound_bits : readBound s .bits = s.niblen.toNat := rfl
@[simp] theorem readBound_nrz : readBound s .nrz = s.nrzlen.toNat := rfl
@[simp] theorem readBound_us : readBound s .us = s.uslen.toNat := rfl
@[simp] theorem readBound_ax : readBound s .ax = s.axlen.toNat := rfl

end ReadBound

/-- The outcome is a next state, or a stop on a byte of a buffer that nothing has written, below the length that describes it. -/
def StopsBelowLength (s : State) : Out → Prop
  | .next _ => True
  | .fault (.unwrittenRead b k) => (s.buf b).read k = none ∧ k < readBound s b
  | .refused _ => False

theorem withBytes_stops {s : State} {b : BufId} {a n : Nat} {k : List Byte → Out} (hb : n = 0 ∨ a + n ≤ readBound s b)
    (hk : ∀ bs, StopsBelowLength s (k bs)) : StopsBelowLength s (withBytes s b a n k) := by
  rcases withBytes_cases s b a n k with ⟨bs, -, h⟩ | ⟨i, hai, hin, hnone, h⟩
  · rw [h]; exact hk bs
  · rw [h]; exact ⟨hnone, by omega⟩

theorem withByte_stops {s : State} {b : BufId} {a : Nat} {k : Byte → Out} (hb : a < readBound s b)
    (hk : ∀ v, StopsBelowLength s (k v)) : StopsBelowLength s (withByte s b a k) := by
  unfold withByte
  split
  · exact hk _
  · exact ⟨‹_›, hb⟩

/-- The preamble of ODLEN and ODGET leaves a frame of at least `c + 1` bytes (R120). -/
theorem parsePre_stops {C : Config} {s : State} {k : Out} (hk : s.c + 1 ≤ s.frameLen → StopsBelowLength s k) :
    StopsBelowLength s (parsePre C s k) := by
  unfold parsePre
  split
  · trivial
  split
  · trivial
  split
  · trivial
  · exact hk (by omega)

theorem withSec_stops {s : State} {k : List Byte → Nat → Out} (hk : ∀ sec d, StopsBelowLength s (k sec d)) :
    StopsBelowLength s (withSec Config.core s k) := by
  unfold withSec
  split
  · trivial
  refine withBytes_stops (.inr (by simp)) fun key => withBytes_stops (.inr ?_) fun enc =>
    withBytes_stops (.inr (by simp)) fun pw => ?_
  · rw [readBound_fr]; omega
  split
  · trivial
  split
  · trivial
  · exact hk _ _

/-- The length byte is read at `c + 1`, so the frame must be longer than that (R122). -/
theorem withLengthByte_stops {s : State} {k : Byte → Out} (hl : s.c + 1 < s.frameLen)
    (hk : ∀ d : Byte, d.toNat = s.frameLen - s.c - 2 → StopsBelowLength s (k d)) :
    StopsBelowLength s (withLengthByte s k) := by
  refine withByte_stops hl fun d => ?_
  split
  · trivial
  · exact hk d (Decidable.not_not.1 ‹_›)

theorem withRaw_stops {C : Config} {s : State} {k : List Byte → Out}
    (hk : ∀ raw : List Byte, raw.length = s.rawLen → StopsBelowLength s (k raw)) : StopsBelowLength s (withRaw C s k) := by
  rcases withRaw_cases C s k with ⟨-, h⟩ | ⟨-, vs, -, hl, h⟩ | ⟨-, -, h⟩ | ⟨-, i, hi, hnone, h⟩ <;> rw [h]
  · trivial
  · exact hk _ hl
  · trivial
  · exact ⟨hnone, hi⟩

/-- FLEN reads no buffer (R109). -/
theorem execFlen_stops (s : State) : StopsBelowLength s (execFlen s) := by
  unfold execFlen flenWith
  split
  · trivial
  split <;> trivial

theorem execFid_stops (s : State) : StopsBelowLength s (execFid s) := by
  unfold execFid fidWith
  split
  · trivial
  split
  · trivial
  split
  · trivial
  · exact withByte_stops (by rw [readBound_fr]; omega) fun _ => trivial

theorem execOdlen_stops (s : State) : StopsBelowLength s (execOdlen s) := by
  refine parsePre_stops fun hl => ?_
  split
  · trivial
  split
  · exact withSec_stops fun _ _ => trivial
  · exact withLengthByte_stops (by omega) fun _ _ => trivial

theorem odgetBody_stops {s : State} (hl : s.c + 1 ≤ s.frameLen) : StopsBelowLength s (odgetBody Config.core s) := by
  unfold odgetBody
  split
  · trivial
  split
  · refine withSec_stops fun sec d => ?_
    split <;> trivial
  · exact withLengthByte_stops (by omega) fun d hd =>
      withBytes_stops (.inr (by rw [readBound_fr]; omega)) fun _ => trivial

theorem execOdget_stops (s : State) : StopsBelowLength s (execOdget s) := by
  refine parsePre_stops fun hl => ?_
  split
  · exact odgetBody_stops hl
  refine withBytes_stops (.inr (by rw [readBound_fr]; omega)) fun got =>
    withBytes_stops (.inr (by simp)) fun want => ?_
  split
  · trivial
  · exact odgetBody_stops hl

theorem execFenc_stops (s : State) : StopsBelowLength s (execFenc s) := by
  unfold execFenc fencWith
  split
  · trivial
  split
  · trivial
  split
  · trivial
  split
  · trivial
  refine withBytes_stops (.inr (by simp)) fun cs => ?_
  split
  · exact withBytes_stops (.inr (by simp)) fun pw => withBytes_stops (.inr (by simp)) fun od =>
      withBytes_stops (.inr (by simp)) fun key => trivial
  split
  · exact withBytes_stops (.inr (by simp)) fun od => trivial
  · trivial

theorem execNrzi_stops (s : State) : StopsBelowLength s (execNrzi s) := by
  unfold execNrzi nrziWith
  exact withRaw_stops fun _ _ => trivial

theorem execUnstf_stops (s : State) : StopsBelowLength s (execUnstf s) := by
  unfold execUnstf unstfWith
  split
  · trivial
  refine withBytes_stops (by rw [readBound_nrz]; omega) fun bytes => ?_
  split <;> trivial

theorem execBrev_stops (s : State) : StopsBelowLength s (execBrev s) := by
  unfold execBrev brevWith
  split
  · trivial
  · exact withBytes_stops (.inr (by simp)) fun _ => trivial

theorem crcStage_stops (s : State) : StopsBelowLength s (crcStage s) := by
  unfold crcStage
  split
  · trivial
  refine withBytes_stops (.inr (by rw [readBound_ax]; omega)) fun payload =>
    withByte_stops (by rw [readBound_ax]; omega) fun hi => withByte_stops (by rw [readBound_ax]; omega) fun lo => ?_
  split <;> trivial

theorem execCrcchk_stops (s : State) : StopsBelowLength s (execCrcchk s) := by
  unfold execCrcchk crcchkWith
  split
  · trivial
  · exact crcStage_stops s

/-- The CRC stage completes when AX is written up to AXLEN. -/
theorem crcStage_completes {s : State} (h : ∀ k, k < s.axlen.toNat → s.ax.read k ≠ none) : ∃ t, crcStage s = .next t := by
  unfold crcStage
  split
  · exact ⟨_, rfl⟩
  obtain ⟨hi, hhi⟩ := Option.ne_none_iff_exists'.1 (h (s.axlen.toNat - 2) (by omega))
  obtain ⟨lo, hlo⟩ := Option.ne_none_iff_exists'.1 (h (s.axlen.toNat - 1) (by omega))
  rcases withBytes_cases s .ax 0 (s.axlen.toNat - 2) _ with ⟨payload, -, hw⟩ | ⟨i, -, hin, hnone, -⟩
  · rw [hw, withByte_of_some (b := .ax) hhi, withByte_of_some (b := .ax) hlo]
    split <;> exact ⟨_, rfl⟩
  · exact absurd hnone (h i (by omega))

/-- Stages 1 to 3 leave AX written up to AXLEN, so the CRC stage of AX25 never stops. -/
theorem crcStage_ax25Stages_completes {s : State} {raw : List Byte} (hl : raw.length < 2 ^ 16) :
    ∃ t, crcStage (ax25Stages s raw) = .next t := by
  refine crcStage_completes fun k hk => ?_
  have haxlen : (ax25Stages s raw).axlen.toNat = (unstuff ((nrziBytes raw).drop 1)).2.length :=
    unstuff_length_ofNat_toNat (by simp; omega)
  have hread := Mem.read_writeRun_inside s.ax 0 ((unstuff ((nrziBytes raw).drop 1)).2.map brev8) (j := k)
    (by rw [List.length_map]; omega)
  rw [Nat.zero_add] at hread
  exact fun hnone => nomatch hread.symm.trans hnone

theorem execAx25_stops (s : State) : StopsBelowLength s (execAx25 s) := by
  unfold execAx25 ax25With
  refine withRaw_stops fun raw hraw => ?_
  have hl : raw.length < 2 ^ 16 := hraw ▸ rawLen_lt s
  rw [withScanned_nrziStage s raw hl, withBytes_unstfStage _ _ (by simp; omega)]
  split
  · trivial
  · obtain ⟨t, ht⟩ := crcStage_ax25Stages_completes (s := s) hl
    exact ht ▸ trivial

/-- No command stops but on an unwritten byte below its length. -/
theorem exec_stops (i : Instr) (s : State) : StopsBelowLength s (exec i s) := by
  cases i with
  | flen => exact execFlen_stops s
  | fid => exact execFid_stops s
  | odlen => exact execOdlen_stops s
  | odget => exact execOdget_stops s
  | fenc => exact execFenc_stops s
  | nrzi => exact execNrzi_stops s
  | unstf => exact execUnstf_stops s
  | brev => exact execBrev_stops s
  | crcchk => exact execCrcchk_stops s
  | ax25 => exact execAx25_stops s

/-- Settles O56: the statement reads `exec_stops` off the outcome. -/
theorem stopsOnlyOnUnwrittenByte : Obligations.StopsOnlyOnUnwrittenByte := by
  intro i s
  have hs := exec_stops i s
  exact ⟨fun b k h => by rwa [h] at hs, fun r h => by rwa [h] at hs⟩

end Sys2Proof.Machine
end

section
/-! SUPPORT. Outcomes that correspond: the same command run from two states whose reads agree ends alike (10_state R31, R34). The rules
for the shared reads, then what the values of RESULT, CRCR and FCSR can change. -/

namespace Sys2Proof.Machine

/-- Two outcomes correspond: next states in relation `R`, or the same stop, or the same refusal. -/
inductive OutRel (R : State → State → Prop) : Out → Out → Prop
  | next {t t' : State} (h : R t t') : OutRel R (.next t) (.next t')
  | fault (x : Fault) : OutRel R (.fault x) (.fault x)
  | refused (x : Refusal) : OutRel R (.refused x) (.refused x)

theorem OutRel.of_next {R : State → State → Prop} {t : State} {o : Out} (h : OutRel R (.next t) o) :
    ∃ t', o = .next t' ∧ R t t' := by
  cases h with
  | next h => exact ⟨_, rfl, h⟩

theorem OutRel.ite {R : State → State → Prop} {p : Prop} [Decidable p] {a a' b b' : Out} (ha : p → OutRel R a a')
    (hb : ¬ p → OutRel R b b') : OutRel R (if p then a else b) (if p then a' else b') := by
  split
  · exact ha ‹_›
  · exact hb ‹_›

theorem OutRel.withBytes {R : State → State → Prop} {s s' : State} {b : BufId} {a n : Nat} {k k' : List Byte → Out}
    (hb : (s'.buf b).readRun a n = (s.buf b).readRun a n) (hk : ∀ bs, OutRel R (k bs) (k' bs)) :
    OutRel R (withBytes s b a n k) (withBytes s' b a n k') := by
  unfold Machine.withBytes
  rw [hb]
  split
  · exact hk _
  · exact .fault _

theorem OutRel.withByte {R : State → State → Prop} {s s' : State} {b : BufId} {a : Nat} {k k' : Byte → Out}
    (hb : (s'.buf b).read a = (s.buf b).read a) (hk : ∀ v, OutRel R (k v) (k' v)) :
    OutRel R (withByte s b a k) (withByte s' b a k') := by
  unfold Machine.withByte
  rw [hb]
  split
  · exact hk _
  · exact .fault _

/-- `s` with other values in CRCR, FCSR and RESULT. -/
def State.withDiagnostics (s : State) (c f r : Word) : State := { s with crcr := c, fcsr := f, result := r }

/-- How the next states of one command from `s` and from `s.withDiagnostics c f r` compare: they agree but for CRCR, FCSR and RESULT,
and each of these is the same in both or is as it was before the command, RESULT only after a shell fault. -/
def SameUpToDiagnostics (s : State) (c f r : Word) (t t' : State) : Prop :=
  t' = { t with crcr := t'.crcr, fcsr := t'.fcsr, result := t'.result } ∧
  (t'.crcr = t.crcr ∨ (t'.crcr = c ∧ t.crcr = s.crcr)) ∧ (t'.fcsr = t.fcsr ∨ (t'.fcsr = f ∧ t.fcsr = s.fcsr)) ∧
  (t'.result = t.result ∨ (t'.result = r ∧ t.result = s.result ∧ t.sf ≠ 0))

section Diagnostics
variable {s : State} {c f r : Word}

theorem outRel_shellFault (x : ShellFault) :
    OutRel (SameUpToDiagnostics s c f r) (shellFault s x) (shellFault (s.withDiagnostics c f r) x) :=
  .next ⟨rfl, .inr ⟨rfl, rfl⟩, .inr ⟨rfl, rfl⟩,
    .inr ⟨rfl, rfl, fun h => sfCode_ne_zero x ((State.faulted_sf s x).symm.trans h)⟩⟩

/-- A command that completes from a state `u` with CRCR and FCSR as they were writes RESULT. -/
theorem outRel_finish {u : State} {l : LinkStatus} {b : Bool} {x : Word} (hc : u.crcr = s.crcr := by rfl)
    (hf : u.fcsr = s.fcsr := by rfl) :
    OutRel (SameUpToDiagnostics s c f r) (.next (u.finish l b x)) (.next ((u.withDiagnostics c f r).finish l b x)) :=
  .next ⟨rfl, .inr ⟨rfl, hc⟩, .inr ⟨rfl, hf⟩, .inl rfl⟩

theorem outRel_complete (x : Word) :
    OutRel (SameUpToDiagnostics s c f r) (complete s x) (complete (s.withDiagnostics c f r) x) :=
  outRel_finish

theorem outRel_fail (e : FcpError) :
    OutRel (SameUpToDiagnostics s c f r) (fail s e) (fail (s.withDiagnostics c f r) e) :=
  outRel_finish

theorem outRel_refl (o : Out) : OutRel (SameUpToDiagnostics s c f r) o o := by
  cases o with
  | next t => exact .next ⟨rfl, .inl rfl, .inl rfl, .inl rfl⟩
  | fault x => exact .fault x
  | refused x => exact .refused x

theorem outRel_parsePre {C : Config} {k k' : Out} (hk : OutRel (SameUpToDiagnostics s c f r) k k') :
    OutRel (SameUpToDiagnostics s c f r) (parsePre C s k) (parsePre C (s.withDiagnostics c f r) k') :=
  .ite (fun _ => outRel_shellFault _) fun _ => .ite (fun _ => outRel_fail _) fun _ => .ite (fun _ => outRel_fail _) fun _ => hk

theorem outRel_withSec {C : Config} {k k' : List Byte → Nat → Out}
    (hk : ∀ sec d, OutRel (SameUpToDiagnostics s c f r) (k sec d) (k' sec d)) :
    OutRel (SameUpToDiagnostics s c f r) (withSec C s k) (withSec C (s.withDiagnostics c f r) k') :=
  .ite (fun _ => outRel_fail _) fun _ => .withBytes rfl fun _ => .withBytes rfl fun _ => .withBytes rfl fun _ =>
    .ite (fun _ => outRel_fail _) fun _ => .ite (fun _ => outRel_fail _) fun _ => hk _ _

theorem outRel_withLengthByte {k k' : Byte → Out} (hk : ∀ d, OutRel (SameUpToDiagnostics s c f r) (k d) (k' d)) :
    OutRel (SameUpToDiagnostics s c f r) (withLengthByte s k) (withLengthByte (s.withDiagnostics c f r) k') :=
  .withByte rfl fun _ => .ite (fun _ => outRel_fail _) fun _ => hk _

theorem outRel_withRaw {C : Config} {k k' : List Byte → Out}
    (hk : ∀ raw, OutRel (SameUpToDiagnostics s c f r) (k raw) (k' raw)) :
    OutRel (SameUpToDiagnostics s c f r) (withRaw C s k) (withRaw C (s.withDiagnostics c f r) k') := by
  have hscan : hexValues (s.withDiagnostics c f r).bits 0 (2 * (s.withDiagnostics c f r).rawLen) =
      hexValues s.bits 0 (2 * s.rawLen) := rfl
  unfold withRaw
  refine .ite (fun _ => outRel_shellFault _) fun _ => ?_
  rw [hscan]
  split
  · exact hk _
  · exact outRel_shellFault _
  · exact .fault _

theorem outRel_odgetBody (C : Config) :
    OutRel (SameUpToDiagnostics s c f r) (odgetBody C s) (odgetBody C (s.withDiagnostics c f r)) :=
  .ite (fun _ => outRel_finish) fun _ => .ite
    (fun _ => outRel_withSec fun _ _ => .ite (fun _ => outRel_fail _) fun _ => outRel_finish)
    fun _ => outRel_withLengthByte fun _ => .withBytes rfl fun _ => outRel_finish

theorem outRel_odgetWith (C : Config) :
    OutRel (SameUpToDiagnostics s c f r) (odgetWith C s) (odgetWith C (s.withDiagnostics c f r)) :=
  outRel_parsePre <| .ite (fun _ => outRel_odgetBody C) fun _ => .withBytes rfl fun _ => .withBytes rfl fun _ =>
    .ite (fun _ => outRel_fail _) fun _ => outRel_odgetBody C

theorem outRel_fencWith (C : Config) :
    OutRel (SameUpToDiagnostics s c f r) (fencWith C s) (fencWith C (s.withDiagnostics c f r)) :=
  .ite (fun _ => outRel_shellFault _) fun _ => .ite (fun _ => outRel_fail _) fun _ => .ite (fun _ => outRel_fail _) fun _ =>
    .ite (fun _ => outRel_fail _) fun _ => .withBytes rfl fun _ => .ite
      (fun _ => .withBytes rfl fun _ => .withBytes rfl fun _ => .withBytes rfl fun _ => outRel_finish)
      fun _ => .ite (fun _ => .withBytes rfl fun _ => outRel_finish) fun _ => outRel_finish

/-- The CRC stage writes all three on every path, so their values before it do not matter (46 R201). -/
theorem crcStage_withDiagnostics (s : State) (c f r : Word) : crcStage (s.withDiagnostics c f r) = crcStage s := rfl

theorem outRel_nrziWith (C : Config) :
    OutRel (SameUpToDiagnostics s c f r) (nrziWith C s) (nrziWith C (s.withDiagnostics c f r)) :=
  outRel_withRaw fun _ => outRel_finish

theorem outRel_ax25With (C : Config) :
    OutRel (SameUpToDiagnostics s c f r) (ax25With C s) (ax25With C (s.withDiagnostics c f r)) :=
  outRel_withRaw fun raw => .withBytes rfl fun scanned => .withBytes rfl fun bytes =>
    .ite (fun _ => outRel_refl _) fun _ =>
      crcStage_withDiagnostics (brevStage (unstfStage (nrziStage s raw) scanned) bytes) c f r ▸ outRel_refl _

theorem exec_outRel (i : Instr) (s : State) (c f r : Word) :
    OutRel (SameUpToDiagnostics s c f r) (exec i s) (exec i (s.withDiagnostics c f r)) := by
  cases i with
  | flen => exact .ite (fun _ => outRel_shellFault _) fun _ => .ite (fun _ => outRel_fail _) fun _ => outRel_complete _
  | fid =>
    exact .ite (fun _ => outRel_shellFault _) fun _ => .ite (fun _ => outRel_fail _) fun _ =>
      .ite (fun _ => outRel_fail _) fun _ => .withByte rfl fun _ => outRel_complete _
  | odlen =>
    exact outRel_parsePre <| .ite (fun _ => outRel_complete _) fun _ => .ite
      (fun _ => outRel_withSec fun _ _ => outRel_complete _) fun _ => outRel_withLengthByte fun _ => outRel_complete _
  | odget => exact outRel_odgetWith _
  | fenc => exact outRel_fencWith _
  | nrzi => exact outRel_nrziWith _
  | unstf =>
    exact .ite (fun _ => outRel_shellFault _) fun _ => .withBytes rfl fun _ => .ite
      (fun _ => outRel_finish) fun _ => outRel_finish
  | brev =>
    exact .ite (fun _ => outRel_shellFault _) fun _ => .withBytes rfl fun _ => outRel_finish
  | crcchk =>
    exact .ite (fun _ => outRel_shellFault _) fun _ => crcStage_withDiagnostics s c f r ▸ outRel_refl _
  | ax25 => exact outRel_ax25With _

end Diagnostics

/-- Settles O54: STATUS stands in no test, no read and no value a command writes; the other three by `exec_outRel`. -/
theorem resultsAreNeverRead : Obligations.ResultsAreNeverRead := by
  refine ⟨fun i s w => ?_, fun i s t c f r h => ?_⟩
  · cases i <;> rfl
  · exact (h ▸ exec_outRel i s c f r).of_next

end Sys2Proof.Machine
end

section
/-! SUPPORT. The state right after reset (10_state R36, R37). -/

namespace Sys2Proof.Machine

/-- Every buffer is empty after reset: no byte holds a value (R36). -/
@[simp] theorem reset_buf (b : BufId) : State.reset.buf b = [] := by cases b <;> rfl

/-- Settles O10: at reset every length is 0 and no presence bit is set, so no command reads a buffer byte. -/
theorem commandsFromReset : Obligations.CommandsFromReset := by
  refine ⟨?_, rfl, rfl, rfl, ⟨_, rfl, ?_, rfl, rfl⟩, ⟨_, rfl, ?_, rfl, rfl⟩⟩
  · simp only [List.forall_mem_cons, List.not_mem_nil, false_imp_iff, implies_true, and_true]
    exact ⟨rfl, rfl, rfl, rfl, rfl⟩
  · exact statusOf_crcError
  · exact statusOf_frameError

/-- Settles O57: empty buffers are in canonical form and within every capacity. -/
theorem invariantAtReset : Obligations.InvariantAtReset where
  canonical b := by rw [reset_buf]; exact .nil
  bounded b := by rw [reset_buf]; exact fun _ h => nomatch h
  status_legal := by decide
  result_range := ⟨by decide, by decide⟩

end Sys2Proof.Machine
end

section
/-! SUPPORT. The host's buffer port (20_memory R61, R62, R65): the buffer an id names, what a host write stores and what a host read
returns. -/

namespace Sys2Proof.Machine

/-- The ids of R61 name their buffers. -/
@[simp] theorem bufOfNum_numOfBuf (b : BufId) : bufOfNum (numOfBuf b) = some b := by cases b <;> rfl

/-- An id above 8 names no buffer (R62). -/
theorem bufOfNum_of_gt {S : Nat} (h : 8 < S) : bufOfNum S = none := by
  obtain ⟨k, rfl⟩ := Nat.exists_eq_add_of_le' h
  rfl

section HostBuf
variable (C : Config) (s : State) {b : BufId} {i : Nat}

theorem hostBufWrite_of_lt (v : Byte) (hi : i < capacity C b) :
    hostBufWrite C s (numOfBuf b) i v = s.setBuf b ((s.buf b).write i v) := by
  simp only [hostBufWrite, bufOfNum_numOfBuf, if_pos hi]

theorem hostBufWrite_of_ge (v : Byte) (hi : capacity C b ≤ i) : hostBufWrite C s (numOfBuf b) i v = s := by
  simp only [hostBufWrite, bufOfNum_numOfBuf, if_neg (Nat.not_lt.2 hi)]

theorem hostBufWrite_of_gt {S : Nat} (i : Nat) (v : Byte) (hS : 8 < S) : hostBufWrite C s S i v = s := by
  simp only [hostBufWrite, bufOfNum_of_gt hS]

/-- A host write stores below a capacity or changes nothing. -/
theorem hostBufWrite_cases (S i : Nat) (v : Byte) :
    hostBufWrite C s S i v = s ∨
    ∃ b, i < capacity C b ∧ hostBufWrite C s S i v = s.setBuf b ((s.buf b).write i v) := by
  unfold hostBufWrite
  split
  · exact .inl rfl
  · split
    · exact .inr ⟨_, ‹_›, rfl⟩
    · exact .inl rfl

theorem hostBufRead_of_some {x : Byte} (hi : i < capacity C b) (hx : (s.buf b).read i = some x) :
    hostBufRead C s (numOfBuf b) i = x := by
  simp only [hostBufRead, bufOfNum_numOfBuf, if_pos hi, hx]

theorem hostBufRead_of_ge (hi : capacity C b ≤ i) : hostBufRead C s (numOfBuf b) i = 0 := by
  simp only [hostBufRead, bufOfNum_numOfBuf, if_neg (Nat.not_lt.2 hi)]

theorem hostBufRead_of_gt {S : Nat} (i : Nat) (hS : 8 < S) : hostBufRead C s S i = 0 := by
  simp only [hostBufRead, bufOfNum_of_gt hS]

end HostBuf

/-- Taking a transaction off the host's list changes no buffer. -/
theorem withHost_buf (s : State) (rest : List HostTxn) (b : BufId) : ({ s with host := rest } : State).buf b = s.buf b := by
  cases b <;> rfl

/-- Settles O7: in range the buffer takes the byte by `Mem.write`, and elsewhere `hostBufWrite` answers the same state. -/
theorem bufferWrites : Obligations.BufferWrites := by
  intro s S i v rest hs
  have hstep : step s = .next (hostBufWrite Config.core { s with host := rest } S i v) := step_of_host hs
  refine ⟨?_, ?_, fun hS => ?_⟩
  · rintro b rfl hi
    rw [hostBufWrite_of_lt _ _ v hi, withHost_buf] at hstep
    exact ⟨_, hstep, Mem.read_write_same .., fun k hk => Mem.read_write_ne _ v hk⟩
  · rintro b rfl hi
    rw [hstep, hostBufWrite_of_ge _ _ v hi]
  · rw [hstep, hostBufWrite_of_gt _ _ i v hS]

/-- Settles O8: the value is `hostBufRead`'s, zero-extended. -/
theorem bufferReads : Obligations.BufferReads := by
  intro s S i rest hs
  refine ⟨(hostBufRead Config.core { s with host := rest } S i).setWidth 16, step_of_host hs, ?_, ?_, fun hS => ?_⟩
  · rintro b x rfl hi hx
    rw [hostBufRead_of_some _ _ hi ((congrArg (Mem.read · i) (withHost_buf s rest b)).trans hx)]
    exact BitVec.toNat_setWidth_of_le (by decide)
  · rintro b rfl hi
    rw [hostBufRead_of_ge _ _ hi]; rfl
  · rw [hostBufRead_of_gt _ _ i hS]; rfl

end Sys2Proof.Machine
end

section
/-! SUPPORT. Which buffer each operation writes (10_state R35, 20_memory R72): one run from index 0 of one buffer, and no other
buffer. The invariant and the noninterference of reads both rest on these. -/

namespace Sys2Proof.Machine

/-- From `s` to `t` buffer `d` takes the run `bs` from index 0 and every other buffer stays. -/
def WritesRun (d : BufId) (bs : List Byte) (s t : State) : Prop :=
  ∀ e, t.buf e = if e = d then (s.buf e).writeRun 0 bs else s.buf e

/-- The state ODGET's success leaves (R125). -/
def State.withPayload (s : State) (payload : List Byte) : State :=
  { s with od := s.od.writeRun 0 payload, optlen := BitVec.ofNat 8 payload.length }.finish .ok false 0

theorem odgetDone_eq (s : State) (payload : List Byte) : odgetDone s payload = .next (s.withPayload payload) := rfl

theorem fencDone_eq (s : State) (frame : List Byte) (k : Nat) : fencDone s frame k = .next (s.withFrame frame k) := rfl

section Writes
variable (s : State) (bs : List Byte)

theorem writesRun_withPayload : WritesRun .od bs s (s.withPayload bs) := by intro e; cases e <;> rfl
theorem writesRun_withFrame (k : Nat) : WritesRun .fr bs s (s.withFrame bs k) := by intro e; cases e <;> rfl
theorem writesRun_nrziStage : WritesRun .nrz (nrziBytes bs) s (nrziStage s bs) := by intro e; cases e <;> rfl
theorem writesRun_unstfStage : WritesRun .us (unstuff bs).2 s (unstfStage s bs) := by intro e; cases e <;> rfl
theorem writesRun_brevStage : WritesRun .ax (bs.map brev8) s (brevStage s bs) := by intro e; cases e <;> rfl
theorem writesRun_frameError : WritesRun .ax frameErrorText s (frameError s) := by intro e; cases e <;> rfl

/-- CRCR and FCSR are written along with the text, as the CRC stage does (46 R201). -/
theorem writesRun_crcError (c f : Word) : WritesRun .ax crcErrorText s (crcError { s with crcr := c, fcsr := f }) := by
  intro e; cases e <;> rfl

end Writes

end Sys2Proof.Machine
end

section
/-! SUPPORT. The invariant (20_memory R61, R62, 10_state R24, R25): its three parts, each kept by every command, then by every host
transaction. -/

namespace Sys2Proof.Machine

/-- Every buffer is in canonical form and within its capacity. -/
def BuffersOk (s : State) : Prop := ∀ b, (s.buf b).wf ∧ (s.buf b).within (capacity Config.core b)

theorem inv_iff {s : State} :
    Inv s ↔ BuffersOk s ∧ s.status ∈ legalStatus ∧ resultInRange Config.core s.result :=
  ⟨fun h => ⟨fun b => ⟨h.canonical b, h.bounded b⟩, h.status_legal, h.result_range⟩,
    fun ⟨hb, hs, hr⟩ => ⟨fun b => (hb b).1, fun b => (hb b).2, hs, hr⟩⟩

theorem BuffersOk.of_buf_eq {s t : State} (h : BuffersOk s) (hb : ∀ b, t.buf b = s.buf b) : BuffersOk t :=
  fun b => by rw [hb b]; exact h b

theorem BuffersOk.finish {s : State} {l : LinkStatus} {x : Bool} {r : Word} (h : BuffersOk s) : BuffersOk (s.finish l x r) :=
  h.of_buf_eq (State.finish_buf s l x r)

theorem BuffersOk.faulted {s : State} {f : ShellFault} (h : BuffersOk s) : BuffersOk (s.faulted f) :=
  h.of_buf_eq (State.faulted_buf s f)

/-- A run that fits the buffer keeps every buffer in order. -/
theorem BuffersOk.of_writesRun {s t : State} {d : BufId} {bs : List Byte} (h : BuffersOk s) (hw : WritesRun d bs s t)
    (hl : bs.length ≤ capacity Config.core d) : BuffersOk t := by
  intro e
  obtain ⟨hwf, hwithin⟩ := h e
  rw [hw e]
  split
  · subst e
    exact ⟨Mem.writeRun_wf hwf 0 bs, Mem.writeRun_within hwithin 0 bs (by omega)⟩
  · exact ⟨hwf, hwithin⟩

/-- A byte written below the capacity keeps every buffer in order. -/
theorem BuffersOk.setBuf_write {s : State} {d : BufId} {i : Nat} (h : BuffersOk s) (hi : i < capacity Config.core d)
    (v : Byte) : BuffersOk (s.setBuf d ((s.buf d).write i v)) := by
  intro e
  obtain ⟨hwf, hwithin⟩ := h e
  by_cases he : e = d
  · subst he
    rw [State.buf_setBuf_same]
    exact ⟨Mem.write_wf hwf i v, Mem.write_within hwithin v hi⟩
  · rw [State.buf_setBuf_ne _ _ _ he]
    exact ⟨hwf, hwithin⟩

/-- The text of an error fits AX (R221, C9). -/
theorem BuffersOk.frameError {s : State} (h : BuffersOk s) : BuffersOk (frameError s) :=
  h.of_writesRun (writesRun_frameError s) (by decide)

theorem BuffersOk.of_crcStage {s t : State} (h : BuffersOk s) (hs : crcStage s = .next t) : BuffersOk t := by
  obtain ⟨c, f, rfl | rfl⟩ := crcStage_next_ends hs
  · exact h.of_writesRun (writesRun_crcError s c f) (by decide)
  · exact h.of_buf_eq fun b => by cases b <;> rfl

/-- Stages 1 to 3 of AX25 write no more than the capture's bytes to each of NRZ, US and AX (44 R170, 45 R193). -/
theorem BuffersOk.ax25Stages {s : State} (h : BuffersOk s) {raw : List Byte} (hl : raw.length ≤ 512) :
    BuffersOk (ax25Stages s raw) := by
  have hu := unstuff_length ((nrziBytes raw).drop 1)
  simp only [List.length_drop, nrziBytes_length] at hu
  have hnrz := h.of_writesRun (writesRun_nrziStage s raw) ((nrziBytes_length raw).trans_le hl)
  have hus := hnrz.of_writesRun (writesRun_unstfStage _ ((nrziBytes raw).drop 1)) (hu.trans (by simp [capacity]; omega))
  refine hus.of_writesRun (writesRun_brevStage _ (unstuff ((nrziBytes raw).drop 1)).2) ?_
  simp only [capacity, core_axMax, List.length_map]
  omega

/-- A capture the shell check lets through has at most `BYTES_MAX` bytes (R10, R170). -/
theorem rawLen_le {s : State} (h : s.niblen.toNat ≤ Config.core.nibMax) : s.rawLen ≤ 512 := by
  rw [core_nibMax] at h
  unfold State.rawLen
  omega

/-- Every command keeps every buffer in canonical form and within its capacity. -/
theorem BuffersOk.of_exec {i : Instr} {s t : State} (hb : BuffersOk s) (h : exec i s = .next t) : BuffersOk t := by
  have hlength (hi : i ∈ [Instr.flen, .fid, .odlen]) : BuffersOk t := by
    rcases lengthCommand_next hi h with rfl | ⟨r, rfl⟩
    · exact hb.faulted
    · exact hb.finish
  cases i with
  | flen => exact hlength (by decide)
  | fid => exact hlength (by decide)
  | odlen => exact hlength (by decide)
  | odget =>
    rcases odgetWith_next h with rfl | ⟨e, rfl⟩ | ⟨payload, hl, rfl⟩
    · exact hb.faulted
    · exact hb.finish
    · exact hb.of_writesRun (writesRun_withPayload s payload) hl
  | fenc =>
    rcases fencWith_next_withFrame h with rfl | ⟨e, rfl⟩ | ⟨frame, k, hl, rfl⟩
    · exact hb.faulted
    · exact hb.finish
    · exact hb.of_writesRun (writesRun_withFrame s frame k) (hl.trans (by decide))
  | nrzi =>
    rcases nrziWith_next h with ⟨rfl, -⟩ | ⟨rfl, -⟩ | ⟨hn, vs, -, hl, rfl⟩
    · exact hb.faulted
    · exact hb.faulted
    · exact (hb.of_writesRun (writesRun_nrziStage s _) (by rw [nrziBytes_length, hl]; exact rawLen_le hn)).finish
  | unstf =>
    rcases unstfWith_next h with ⟨rfl, -⟩ | ⟨hn, bytes, hread, h⟩
    · exact hb.faulted
    have hl : (unstuff bytes).2.length ≤ Config.core.bytesMax := by
      have := unstuff_length bytes
      have := (Mem.readRun_eq_ok.1 hread).1
      omega
    have hstage := hb.of_writesRun (writesRun_unstfStage s bytes) hl
    rcases h with ⟨-, rfl⟩ | ⟨-, rfl⟩ <;> exact hstage.finish
  | brev =>
    rcases brevWith_next h with ⟨rfl, -⟩ | ⟨hn, bytes, hread, rfl⟩
    · exact hb.faulted
    · refine (hb.of_writesRun (writesRun_brevStage s bytes) ?_).finish
      rw [List.length_map, (Mem.readRun_eq_ok.1 hread).1]
      exact hn
  | crcchk =>
    rcases crcchkWith_next h with ⟨rfl, -⟩ | ⟨-, h⟩
    · exact hb.faulted
    · exact hb.of_crcStage h
  | ax25 =>
    rcases ax25With_next h with ⟨rfl, -⟩ | ⟨rfl, -⟩ | ⟨hn, vs, -, hl, h⟩
    · exact hb.faulted
    · exact hb.faulted
    have hstages := hb.ax25Stages (hl.trans_le (rawLen_le hn))
    rcases h with ⟨-, rfl⟩ | ⟨-, h⟩
    · exact hstages.frameError
    · exact hstages.of_crcStage h

theorem statusOfFault_legal (f : ShellFault) : statusOfFault f ∈ legalStatus := by cases f <;> decide

/-- The three link statuses, with BITSTUFF on FRAME_ERROR alone, compose legal words (R24). -/
theorem statusOf_legal (l : LinkStatus) : statusOf l (decide (l = .frameError)) ∈ legalStatus := by cases l <;> decide

theorem exec_next_status_legal {i : Instr} {s t : State} (h : exec i s = .next t) : t.status ∈ legalStatus := by
  rcases exec_next_ends h with ⟨f, rfl⟩ | ⟨u, l, r, rfl, -, -⟩
  · exact statusOfFault_legal f
  · exact statusOf_legal l

/-- A value of at most `CS_MAX` + 273 + `PW_MAX` is in range: it is far below the sign bit. -/
theorem resultInRange_ofNat {n : Nat} (h : n ≤ 337) : resultInRange Config.core (BitVec.ofNat 16 n) := by
  have hn : (BitVec.ofNat 16 n).toNat = n := Nat.mod_eq_of_lt (by omega)
  have hi : (BitVec.ofNat 16 n).toInt = n := by rw [BitVec.toInt_eq_toNat_of_lt (by omega), hn]
  unfold resultInRange
  rw [hi, core_csMax, core_pwMax]
  omega

theorem resultInRange_errCode (e : FcpError) : resultInRange Config.core (errCode e) := by
  cases e <;> exact ⟨by decide, by decide⟩

theorem resultInRange_lstCode (l : LinkStatus) : resultInRange Config.core ((lstCode l).setWidth 16) := by
  cases l <;> exact ⟨by decide, by decide⟩

/-- The password's length is within the capacity when the shell check passed and a password is present. -/
theorem p_le_pwMax {C : Config} {s : State} (hl : pwTooLong C s = false) (hp : s.pwP = true) : s.p ≤ C.pwMax := by
  simpa [pwTooLong, hp] using hl

/-- The longest frame of R109 at the default capacities (R110): 33 bytes of callsign and function id, 256 of optional data, 32 of
password and 16 of padding. -/
theorem frameLength_le {s : State} (hl : (csTooLong Config.core s || pwTooLong Config.core s) = false)
    (hv : s.csValid = true) : frameLength s.c s.n s.p s.pwP ≤ 337 := by
  obtain ⟨hcs, hpw⟩ := Bool.or_eq_false_iff.1 hl
  have hc : s.c ≤ 32 := c_le_csMax hcs hv
  have hn : s.n < 256 := s.optlen.isLt
  have hpad := padlen_spec s.n s.p
  unfold frameLength
  cases hp : s.pwP with
  | false => simp only [Bool.false_eq_true, if_false]; split <;> omega
  | true =>
    have hp32 : s.p ≤ 32 := p_le_pwMax hpw hp
    simp only [if_true]
    split <;> split <;> omega

/-- A command leaves RESULT as it is, or writes a value in its range (R25, R232). -/
theorem exec_next_result {i : Instr} {s t : State} (h : exec i s = .next t) :
    t.result = s.result ∨ resultInRange Config.core t.result := by
  by_cases hlink : i ∈ linkCommands
  · rcases exec_next_ends h with ⟨f, rfl⟩ | ⟨u, l, r, rfl, -, hr⟩
    · exact .inl rfl
    · exact .inr (by rw [State.finish_result, hr hlink]; exact resultInRange_lstCode l)
  · cases i with
    | flen =>
      rcases flenWith_cases Config.core s with ⟨-, hs⟩ | ⟨-, -, hs⟩ | ⟨hl, hv, hs⟩ <;> cases hs.symm.trans h
      · exact .inl rfl
      · exact .inr (resultInRange_errCode _)
      · exact .inr (resultInRange_ofNat (frameLength_le hl hv))
    | fid =>
      rcases fidWith_next h with rfl | ⟨-, -, rfl | rfl | ⟨-, -, f, -, rfl⟩⟩
      · exact .inl rfl
      · exact .inr (resultInRange_errCode _)
      · exact .inr (resultInRange_errCode _)
      · rw [State.finish_result, ← BitVec.ofNat_toNat]
        exact .inr (resultInRange_ofNat (by have := f.isLt; omega))
    | odlen =>
      rcases odlenWith_next h with rfl | ⟨e, rfl⟩ | ⟨n, hn, rfl⟩
      · exact .inl rfl
      · exact .inr (resultInRange_errCode _)
      · exact .inr (resultInRange_ofNat (by omega))
    | odget =>
      rcases odgetWith_next h with rfl | ⟨e, rfl⟩ | ⟨payload, -, rfl⟩
      · exact .inl rfl
      · exact .inr (resultInRange_errCode _)
      · exact .inr (resultInRange_ofNat (Nat.zero_le _))
    | fenc =>
      rcases fencWith_next_withFrame h with rfl | ⟨e, rfl⟩ | ⟨frame, k, -, rfl⟩
      · exact .inl rfl
      · exact .inr (resultInRange_errCode _)
      · exact .inr (resultInRange_ofNat (Nat.zero_le _))
    | nrzi | unstf | brev | crcchk | ax25 => exact absurd (by decide) hlink

/-- Every command keeps the invariant. -/
theorem Inv.of_exec {i : Instr} {s t : State} (hi : Inv s) (h : exec i s = .next t) : Inv t := by
  obtain ⟨hb, -, hr⟩ := inv_iff.1 hi
  refine inv_iff.2 ⟨hb.of_exec h, exec_next_status_legal h, ?_⟩
  rcases exec_next_result h with heq | hrange
  · exact heq ▸ hr
  · exact hrange

/-- The invariant speaks of the buffers, STATUS and RESULT alone. -/
theorem Inv.congr {s t : State} (hi : Inv s) (hb : ∀ b, t.buf b = s.buf b) (hs : t.status = s.status)
    (hr : t.result = s.result) : Inv t := by
  obtain ⟨hbuf, hst, hres⟩ := inv_iff.1 hi
  exact inv_iff.2 ⟨hbuf.of_buf_eq hb, hs ▸ hst, hr ▸ hres⟩

/-- A write to CMD runs a command or is the shell fault ILLEGAL_CMD (R84). -/
theorem Inv.of_writeCmd {s t : State} {v : Word} (hi : Inv s) (h : writeCmd s v = .next t) : Inv t := by
  unfold writeCmd at h
  split at h
  · exact hi.of_exec h
  · obtain ⟨hb, -, hr⟩ := inv_iff.1 hi
    cases h
    exact inv_iff.2 ⟨hb.faulted, statusOfFault_legal _, hr⟩

/-- A register write stores in no buffer, and not in STATUS or RESULT (R26). -/
theorem Inv.hostRegStore {s : State} (hi : Inv s) (v : Word) (r : RegName) : Inv (hostRegStore s v r) :=
  hi.congr (fun b => by cases r <;> cases b <;> rfl) (by cases r <;> rfl) (by cases r <;> rfl)

/-- A buffer write touches neither STATUS nor RESULT, and no index at or above a capacity (20_memory R62). -/
theorem Inv.hostBufWrite {s : State} (hi : Inv s) (S i : Nat) (v : Byte) : Inv (hostBufWrite Config.core s S i v) := by
  rcases hostBufWrite_cases Config.core s S i v with h | ⟨b, hib, h⟩ <;> rw [h]
  · exact hi
  · obtain ⟨hb, hs, hr⟩ := inv_iff.1 hi
    exact inv_iff.2 ⟨hb.setBuf_write hib v, by rwa [State.setBuf_status], by rwa [State.setBuf_result]⟩

/-- Every host transaction keeps the invariant (20_memory R60). -/
theorem Inv.of_hostTransact {s t : State} {x : HostTxn} (hi : Inv s) (h : hostTransact s x = .next t) : Inv t := by
  cases x with
  | regWrite n v =>
    change hostRegWrite s n v = .next t at h
    by_cases hn : regOfNum n = .cmd
    · rw [hostRegWrite, hn] at h
      exact hi.of_writeCmd h
    · rw [hostRegWrite_of_ne_cmd hn] at h
      cases h
      exact hi.hostRegStore v _
  | regRead n => cases h; exact hi.congr (fun b => by cases b <;> rfl) rfl rfl
  | bufWrite S i v => cases h; exact hi.hostBufWrite S i v
  | bufRead S i => cases h; exact hi.congr (fun b => by cases b <;> rfl) rfl rfl
  | reset => cases h; exact invariantAtReset.congr (fun b => by cases b <;> rfl) rfl rfl

/-- Settles O58: with nothing pending the state stays, and otherwise one host transaction is taken. -/
theorem stepKeepsInvariant : Obligations.StepKeepsInvariant := by
  intro s t hi h
  cases hhost : s.host with
  | nil =>
    simp only [step, takeNext, hhost, Host.Outcome.next.injEq] at h
    exact h ▸ hi
  | cons x rest =>
    rw [step_of_host hhost] at h
    have hrest : Inv { s with host := rest } := hi.congr (withHost_buf s rest) rfl rfl
    exact hrest.of_hostTransact h

end Sys2Proof.Machine
end

section
/-! SUPPORT. What a command can read (20_memory R73): run from two states that differ in one buffer alone, at or above the length
that describes it, it ends alike. The relation, the rules for the shared operations, the stages, then one lemma per command. -/

namespace Sys2Proof.Machine

/-- `s` with other buffers: every register and every field of the model's own stays, by definition. -/
def State.withBufs (s : State) (f : BufId → Mem) : State :=
  { s with
    cs := f .cs, pw := f .pw, key := f .key, fr := f .fr, od := f .od, bits := f .bits, nrz := f .nrz, us := f .us,
    ax := f .ax }

@[simp] theorem State.withBufs_buf (s : State) (f : BufId → Mem) (b : BufId) : (s.withBufs f).buf b = f b := by
  cases b <;> rfl

theorem State.setBuf_eq_withBufs (s : State) (b : BufId) (m : Mem) :
    s.setBuf b m = s.withBufs (Function.update s.buf b m) := by
  cases b <;> rfl

/-- `t'` is `t` but for buffer `b`, which reads the same below the length register that describes it. -/
structure SameBelow (b : BufId) (t t' : State) : Prop where
  eq_withBufs : t' = t.withBufs t'.buf
  others : ∀ e, e ≠ b → t'.buf e = t.buf e
  below : ∀ k, k < readBound t b → (t'.buf b).read k = (t.buf b).read k

theorem SameBelow.of_setBuf {s : State} {b : BufId} {m : Mem}
    (hm : ∀ k, k < readBound s b → Mem.read m k = (s.buf b).read k) : SameBelow b s (s.setBuf b m) where
  eq_withBufs := by cases b <;> rfl
  others _ he := State.buf_setBuf_ne s b m he
  below := by rw [State.buf_setBuf_same]; exact hm

theorem SameBelow.eq_setBuf {b : BufId} {t t' : State} (h : SameBelow b t t') : t' = t.setBuf b (t'.buf b) := by
  have hbuf : t'.buf = Function.update t.buf b (t'.buf b) := Function.eq_update_iff.2 ⟨rfl, h.others⟩
  calc t' = t.withBufs t'.buf := h.eq_withBufs
    _ = t.withBufs (Function.update t.buf b (t'.buf b)) := congrArg t.withBufs hbuf
    _ = t.setBuf b (t'.buf b) := (State.setBuf_eq_withBufs t b (t'.buf b)).symm

/-- The relation of the statement is `SameBelow` on next states, and equality of stops. -/
theorem sameBut_of_outRel {b : BufId} {o o' : Out} (h : OutRel (SameBelow b) o o') : SameBut b o o' := by
  cases h with
  | next h => exact ⟨h.eq_setBuf, h.below⟩
  | fault x => rfl
  | refused x => rfl

/-- The same run written over two memories reads the same below its length. -/
theorem Mem.read_writeRun_congr (m m' : Mem) (bs : List Byte) {k : Nat} (h : k < bs.length) :
    (m'.writeRun 0 bs).read k = (m.writeRun 0 bs).read k := by
  have hread := fun x => Mem.read_writeRun_inside x 0 bs h
  rw [Nat.zero_add] at hread
  rw [hread, hread]

section Related
variable {b : BufId} {s s' : State} (h : SameBelow b s s')
include h

theorem SameBelow.exists_withBufs : ∃ f, s' = s.withBufs f := ⟨_, h.eq_withBufs⟩

/-- Every buffer reads the same below its own length. -/
theorem SameBelow.read_eq {d : BufId} {k : Nat} (hk : k < readBound s d) : (s'.buf d).read k = (s.buf d).read k := by
  by_cases hd : d = b
  · subst hd; exact h.below k hk
  · rw [h.others d hd]

/-- Updates that write no buffer and raise no length keep the relation. -/
theorem SameBelow.of_buf_eq {t t' : State} (heq : t' = t.withBufs t'.buf) (ht : ∀ e, t.buf e = s.buf e)
    (ht' : ∀ e, t'.buf e = s'.buf e) (hb : ∀ e, readBound t e ≤ readBound s e) : SameBelow b t t' where
  eq_withBufs := heq
  others e he := by rw [ht, ht', h.others e he]
  below k hk := by rw [ht, ht', h.below k (by have := hb b; omega)]

/-- The same run written to one buffer keeps the relation when the length that describes the buffer does not pass the run. -/
theorem SameBelow.of_writesRun {t t' : State} {d : BufId} {bs : List Byte} (hw : WritesRun d bs s t)
    (hw' : WritesRun d bs s' t') (heq : t' = t.withBufs t'.buf)
    (hb : ∀ e, readBound t e ≤ if e = d then bs.length else readBound s e) : SameBelow b t t' where
  eq_withBufs := heq
  others e he := by rw [hw, hw', h.others e he]
  below k hk := by
    have hle := hb b
    rw [hw, hw']
    split at hle
    · rw [if_pos ‹b = d›, if_pos ‹b = d›]; exact Mem.read_writeRun_congr _ _ bs (by omega)
    · rw [if_neg ‹b ≠ d›, if_neg ‹b ≠ d›]; exact h.below k (by omega)

/-! Reads: a run below the length goes on with the same bytes, or stops on the same index. -/

theorem SameBelow.withBytes {d : BufId} {a n : Nat} {k k' : List Byte → Out} (hb : n = 0 ∨ a + n ≤ readBound s d)
    (hk : ∀ bs : List Byte, bs.length = n → OutRel (SameBelow b) (k bs) (k' bs)) :
    OutRel (SameBelow b) (withBytes s d a n k) (withBytes s' d a n k') := by
  have hrun : (s'.buf d).readRun a n = (s.buf d).readRun a n :=
    Mem.readRun_congr fun i _ hi => h.read_eq (by omega)
  unfold Machine.withBytes
  rw [hrun]
  split
  · exact hk _ (Mem.readRun_eq_ok.1 ‹_›).1
  · exact .fault _

theorem SameBelow.withByte {d : BufId} {a : Nat} {k k' : Byte → Out} (hb : a < readBound s d)
    (hk : ∀ v, OutRel (SameBelow b) (k v) (k' v)) : OutRel (SameBelow b) (withByte s d a k) (withByte s' d a k') :=
  .withByte (h.read_eq hb) hk

/-! Ways a command ends. -/

theorem SameBelow.finish {l : LinkStatus} {x : Bool} {r : Word} : SameBelow b (s.finish l x r) (s'.finish l x r) := by
  obtain ⟨f, rfl⟩ := h.exists_withBufs
  exact h.of_buf_eq rfl (State.finish_buf s l x r) (State.finish_buf _ l x r) fun e => by cases e <;> exact le_rfl

theorem SameBelow.shellFault (x : ShellFault) : OutRel (SameBelow b) (shellFault s x) (shellFault s' x) := by
  obtain ⟨f, rfl⟩ := h.exists_withBufs
  exact .next (h.of_buf_eq rfl (State.faulted_buf s x) (State.faulted_buf _ x) fun e => by cases e <;> exact le_rfl)

theorem SameBelow.complete (r : Word) : OutRel (SameBelow b) (complete s r) (complete s' r) := .next h.finish

theorem SameBelow.fail (e : FcpError) : OutRel (SameBelow b) (fail s e) (fail s' e) := .next h.finish

/-- ODGET writes as many bytes as it leaves in OPTLEN, or more. -/
theorem SameBelow.odgetDone (payload : List Byte) : OutRel (SameBelow b) (odgetDone s payload) (odgetDone s' payload) := by
  obtain ⟨f, rfl⟩ := h.exists_withBufs
  rw [odgetDone_eq, odgetDone_eq]
  refine .next (h.of_writesRun (writesRun_withPayload s payload) (writesRun_withPayload _ payload) rfl fun e => ?_)
  cases e with
  | od => exact (BitVec.toNat_ofNat _ _).trans_le (Nat.mod_le _ _)
  | _ => exact le_rfl

/-- FENC writes as many bytes as it leaves in FRLEN, or more. -/
theorem SameBelow.fencDone (frame : List Byte) (k : Nat) :
    OutRel (SameBelow b) (fencDone s frame k) (fencDone s' frame k) := by
  obtain ⟨f, rfl⟩ := h.exists_withBufs
  rw [fencDone_eq, fencDone_eq]
  refine .next (h.of_writesRun (writesRun_withFrame s frame k) (writesRun_withFrame _ frame k) rfl fun e => ?_)
  cases e with
  | fr => exact (BitVec.toNat_ofNat _ _).trans_le (Nat.mod_le _ _)
  | _ => exact le_rfl

/-! The link stages. -/

theorem SameBelow.nrziStage (raw : List Byte) : SameBelow b (nrziStage s raw) (nrziStage s' raw) := by
  obtain ⟨f, rfl⟩ := h.exists_withBufs
  refine h.of_writesRun (writesRun_nrziStage s raw) (writesRun_nrziStage _ raw) rfl fun e => ?_
  cases e with
  | nrz => exact (BitVec.toNat_ofNat _ _).trans_le ((Nat.mod_le _ _).trans (nrziBytes_length raw).ge)
  | _ => exact le_rfl

theorem SameBelow.unstfStage (bytes : List Byte) : SameBelow b (unstfStage s bytes) (unstfStage s' bytes) := by
  obtain ⟨f, rfl⟩ := h.exists_withBufs
  refine h.of_writesRun (writesRun_unstfStage s bytes) (writesRun_unstfStage _ bytes) rfl fun e => ?_
  cases e with
  | us => exact (BitVec.toNat_ofNat _ _).trans_le (Nat.mod_le _ _)
  | _ => exact le_rfl

/-- Stage 3 takes AXLEN from USLEN, so the relation needs the bytes of US up to it. -/
theorem SameBelow.brevStage {bytes : List Byte} (hl : bytes.length = s.uslen.toNat) :
    SameBelow b (brevStage s bytes) (brevStage s' bytes) := by
  obtain ⟨f, rfl⟩ := h.exists_withBufs
  refine h.of_writesRun (writesRun_brevStage s bytes) (writesRun_brevStage _ bytes) rfl fun e => ?_
  cases e with
  | ax => exact hl.ge.trans (List.length_map _).ge
  | _ => exact le_rfl

theorem SameBelow.frameError : SameBelow b (frameError s) (frameError s') := by
  obtain ⟨f, rfl⟩ := h.exists_withBufs
  refine h.of_writesRun (writesRun_frameError s) (writesRun_frameError _) rfl fun e => ?_
  cases e <;> exact le_rfl

theorem SameBelow.crcError (c f : Word) :
    SameBelow b (crcError { s with crcr := c, fcsr := f }) (crcError { s' with crcr := c, fcsr := f }) := by
  obtain ⟨g, rfl⟩ := h.exists_withBufs
  refine h.of_writesRun (writesRun_crcError s c f) (writesRun_crcError _ c f) rfl fun e => ?_
  cases e <;> exact le_rfl

/-- Success of the CRC stage takes two off AXLEN, which was at least two (46 R201). -/
theorem SameBelow.dropTrailer (hl : 2 ≤ s.axlen.toNat) (c f : Word) :
    SameBelow b { s with crcr := c, fcsr := f, axlen := s.axlen - 2 }
      { s' with crcr := c, fcsr := f, axlen := s'.axlen - 2 } := by
  obtain ⟨g, rfl⟩ := h.exists_withBufs
  refine h.of_buf_eq rfl (fun e => by cases e <;> rfl) (fun e => by cases e <;> rfl) fun e => ?_
  cases e with
  | ax =>
    change (s.axlen - 2#16).toNat ≤ s.axlen.toNat
    rw [BitVec.toNat_sub_of_le (by rwa [BitVec.le_def])]
    exact Nat.sub_le _ _
  | _ => exact le_rfl

/-! The shared parts of the commands. -/

theorem SameBelow.parsePre {C : Config} {k k' : Out} (hk : s.c + 1 ≤ s.frameLen → OutRel (SameBelow b) k k') :
    OutRel (SameBelow b) (parsePre C s k) (parsePre C s' k') := by
  obtain ⟨f, rfl⟩ := h.exists_withBufs
  exact .ite (fun _ => h.shellFault _) fun _ => .ite (fun _ => h.fail _) fun _ => .ite (fun _ => h.fail _) fun hf =>
    hk (Nat.le_of_not_lt hf)

theorem SameBelow.withSec {k k' : List Byte → Nat → Out} (hk : ∀ sec d, OutRel (SameBelow b) (k sec d) (k' sec d)) :
    OutRel (SameBelow b) (withSec Config.core s k) (withSec Config.core s' k') := by
  obtain ⟨f, rfl⟩ := h.exists_withBufs
  exact .ite (fun _ => h.fail _) fun _ =>
    h.withBytes (.inr (by simp)) fun key _ => h.withBytes (.inr (by rw [readBound_fr]; omega)) fun enc _ =>
    h.withBytes (.inr (by simp)) fun pw _ =>
    .ite (fun _ => h.fail _) fun _ => .ite (fun _ => h.fail _) fun _ => hk _ _

theorem SameBelow.withLengthByte {k k' : Byte → Out} (hl : s.c + 1 < s.frameLen)
    (hk : ∀ d : Byte, d.toNat = s.frameLen - s.c - 2 → OutRel (SameBelow b) (k d) (k' d)) :
    OutRel (SameBelow b) (withLengthByte s k) (withLengthByte s' k') := by
  obtain ⟨f, rfl⟩ := h.exists_withBufs
  exact h.withByte hl fun d => .ite (fun _ => h.fail _) fun hd => hk d (Decidable.not_not.1 hd)

theorem SameBelow.withRaw {C : Config} {k k' : List Byte → Out}
    (hk : ∀ raw, OutRel (SameBelow b) (k raw) (k' raw)) : OutRel (SameBelow b) (withRaw C s k) (withRaw C s' k') := by
  obtain ⟨f, rfl⟩ := h.exists_withBufs
  have hle : 2 * s.rawLen ≤ s.niblen.toNat := Nat.mul_div_le _ 2
  have hscan : hexValues (s.withBufs f).bits 0 (2 * (s.withBufs f).rawLen) = hexValues s.bits 0 (2 * s.rawLen) :=
    hexValues_congr fun i _ hi => h.read_eq (d := .bits) ((Nat.zero_add _ ▸ hi).trans_le hle)
  unfold Machine.withRaw
  refine .ite (fun _ => h.shellFault _) fun _ => ?_
  rw [hscan]
  split
  · exact hk _
  · exact h.shellFault _
  · exact .fault _

/-! The commands. -/

theorem SameBelow.flenWith (C : Config) : OutRel (SameBelow b) (flenWith C s) (flenWith C s') := by
  obtain ⟨f, rfl⟩ := h.exists_withBufs
  exact .ite (fun _ => h.shellFault _) fun _ => .ite (fun _ => h.fail _) fun _ => h.complete _

theorem SameBelow.fidWith (C : Config) : OutRel (SameBelow b) (fidWith C s) (fidWith C s') := by
  obtain ⟨f, rfl⟩ := h.exists_withBufs
  exact .ite (fun _ => h.shellFault _) fun _ => .ite (fun _ => h.fail _) fun _ => .ite (fun _ => h.fail _) fun hf =>
    h.withByte (Nat.lt_of_succ_le (Nat.le_of_not_lt hf)) fun _ => h.complete _

theorem SameBelow.odlenWith : OutRel (SameBelow b) (odlenWith Config.core s) (odlenWith Config.core s') := by
  obtain ⟨f, rfl⟩ := h.exists_withBufs
  exact h.parsePre fun hl => .ite (fun _ => h.complete _) fun hne => .ite (fun _ => h.withSec fun _ _ => h.complete _)
    fun _ => h.withLengthByte (by omega) fun _ _ => h.complete _

theorem SameBelow.odgetBody (hl : s.c + 1 ≤ s.frameLen) :
    OutRel (SameBelow b) (odgetBody Config.core s) (odgetBody Config.core s') := by
  obtain ⟨f, rfl⟩ := h.exists_withBufs
  exact .ite (fun _ => h.odgetDone _) fun hne => .ite
    (fun _ => h.withSec fun _ _ => .ite (fun _ => h.fail _) fun _ => h.odgetDone _)
    fun _ => h.withLengthByte (by omega) fun d hd =>
      h.withBytes (.inr (by rw [readBound_fr]; omega)) fun _ _ => h.odgetDone _

theorem SameBelow.odgetWith : OutRel (SameBelow b) (odgetWith Config.core s) (odgetWith Config.core s') := by
  obtain ⟨f, rfl⟩ := h.exists_withBufs
  exact h.parsePre fun hl => .ite (fun _ => h.odgetBody hl) fun _ =>
    h.withBytes (.inr (by rw [readBound_fr]; omega)) fun _ _ => h.withBytes (.inr (by simp)) fun _ _ =>
    .ite (fun _ => h.fail _) fun _ => h.odgetBody hl

theorem SameBelow.fencWith : OutRel (SameBelow b) (fencWith Config.core s) (fencWith Config.core s') := by
  obtain ⟨f, rfl⟩ := h.exists_withBufs
  exact .ite (fun _ => h.shellFault _) fun _ => .ite (fun _ => h.fail _) fun _ => .ite (fun _ => h.fail _) fun _ =>
    .ite (fun _ => h.fail _) fun _ => h.withBytes (.inr (by simp)) fun cs _ => .ite
      (fun _ => h.withBytes (.inr (by simp)) fun pw _ => h.withBytes (.inr (by simp)) fun od _ =>
        h.withBytes (.inr (by simp)) fun key _ => h.fencDone _ _)
      fun _ => .ite (fun _ => h.withBytes (.inr (by simp)) fun od _ => h.fencDone _ _) fun _ => h.fencDone _ _

theorem SameBelow.nrziWith (C : Config) : OutRel (SameBelow b) (nrziWith C s) (nrziWith C s') :=
  h.withRaw fun raw => (h.nrziStage raw).complete 0

/-- Stage 2 reads NRZ from index 1, and nothing at all when NRZLEN is 0 (R181). -/
theorem SameBelow.withScanned {k k' : List Byte → Out} (hk : ∀ bytes, OutRel (SameBelow b) (k bytes) (k' bytes)) :
    OutRel (SameBelow b) (withScanned s k) (withScanned s' k') := by
  obtain ⟨f, rfl⟩ := h.exists_withBufs
  exact h.withBytes (by rw [readBound_nrz]; omega) fun bytes _ => hk bytes

theorem SameBelow.unstfWith (C : Config) : OutRel (SameBelow b) (unstfWith C s) (unstfWith C s') := by
  obtain ⟨f, rfl⟩ := h.exists_withBufs
  exact .ite (fun _ => h.shellFault _) fun _ => h.withScanned fun bytes =>
    .ite (fun _ => .next (h.unstfStage bytes).finish) fun _ => .next (h.unstfStage bytes).finish

/-- Stage 3 reads US whole and goes on from the state that holds its output in AX (R196). -/
theorem SameBelow.withUnstuffed {k k' : List Byte → Out}
    (hk : ∀ bytes, SameBelow b (Machine.brevStage s bytes) (Machine.brevStage s' bytes) →
      OutRel (SameBelow b) (k bytes) (k' bytes)) :
    OutRel (SameBelow b) (Machine.withBytes s .us 0 s.uslen.toNat k) (Machine.withBytes s' .us 0 s'.uslen.toNat k') := by
  obtain ⟨f, rfl⟩ := h.exists_withBufs
  exact h.withBytes (.inr (by simp)) fun bytes hl => hk bytes (h.brevStage hl)

theorem SameBelow.brevWith (C : Config) : OutRel (SameBelow b) (brevWith C s) (brevWith C s') := by
  obtain ⟨f, rfl⟩ := h.exists_withBufs
  exact .ite (fun _ => h.shellFault _) fun _ => h.withUnstuffed fun _ hstage => hstage.complete 0

theorem SameBelow.crcStage : OutRel (SameBelow b) (crcStage s) (crcStage s') := by
  obtain ⟨f, rfl⟩ := h.exists_withBufs
  exact .ite (fun _ => .next (h.crcError 0 0)) fun hl =>
    h.withBytes (.inr (by rw [readBound_ax]; omega)) fun payload _ =>
    h.withByte (by rw [readBound_ax]; omega) fun hi => h.withByte (by rw [readBound_ax]; omega) fun lo =>
    .ite (fun _ => .next (h.crcError _ _)) fun _ => (h.dropTrailer (Nat.le_of_not_lt hl) _ _).complete 0

theorem SameBelow.crcchkWith (C : Config) : OutRel (SameBelow b) (crcchkWith C s) (crcchkWith C s') := by
  obtain ⟨f, rfl⟩ := h.exists_withBufs
  exact .ite (fun _ => h.shellFault _) fun _ => h.crcStage

theorem SameBelow.ax25With (C : Config) : OutRel (SameBelow b) (ax25With C s) (ax25With C s') :=
  h.withRaw fun raw => (h.nrziStage raw).withScanned fun scanned =>
    ((h.nrziStage raw).unstfStage scanned).withUnstuffed fun _ hstage =>
    .ite (fun _ => .next hstage.frameError) fun _ => hstage.crcStage

/-- Every command run from related states ends alike. -/
theorem SameBelow.exec (i : Instr) : OutRel (SameBelow b) (exec i s) (exec i s') := by
  cases i with
  | flen => exact h.flenWith _
  | fid => exact h.fidWith _
  | odlen => exact h.odlenWith
  | odget => exact h.odgetWith
  | fenc => exact h.fencWith
  | nrzi => exact h.nrziWith _
  | unstf => exact h.unstfWith _
  | brev => exact h.brevWith _
  | crcchk => exact h.crcchkWith _
  | ax25 => exact h.ax25With _

end Related

/-- Settles O55: the changed buffer gives a related state, and related states end alike. -/
theorem readsStayBelowLength : Obligations.ReadsStayBelowLength :=
  fun i _ _ _ hm => sameBut_of_outRel ((SameBelow.of_setBuf hm).exec i)

end Sys2Proof.Machine
end

section
/-! SUPPORT. The opcode map (30_encoding R80, R82, R84, R85): decoding and encoding are inverse, the words that decode, and what any
other word written to CMD does. -/

namespace Sys2Proof.Machine

/-! The two fields of a word (R80): ZERO above OP. -/

/-- `decode`'s mask and the field ZERO ask the same of a word. -/
theorem zeroFieldOk_iff_mask (w : Byte) : zeroFieldOk w = true ↔ w &&& 0xF0#8 = 0#8 := by
  revert w; decide +kernel

theorem zeroFieldOk_iff_append (w : Byte) : zeroFieldOk w = true ↔ 0#4 ++ w.extractLsb' 0 4 = w := by
  revert w; decide +kernel

/-- A row of R82: OP's command is the one whose word is that OP under ZERO = 0. -/
theorem opRow_eq_some_iff (op : BitVec 4) (i : Instr) : opRow op = some i ↔ encode i = 0#4 ++ op := by
  cases i <;> revert op <;> decide

theorem opAssigned_eq_isSome (w : Byte) : opAssigned w = (opRow (w.extractLsb' 0 4)).isSome := by
  unfold opAssigned
  generalize w.extractLsb' 0 4 = op
  revert op; decide

/-- When `decode` accepts: ZERO = 0 and R82 has a row for OP. -/
theorem decode_eq_ok_iff_fields (w : Byte) (i : Instr) :
    decode w = .ok i ↔ zeroFieldOk w = true ∧ opRow (w.extractLsb' 0 4) = some i := by
  rw [zeroFieldOk_iff_mask]
  unfold decode
  by_cases hz : w &&& 0xF0#8 = 0#8
  · cases opRow (w.extractLsb' 0 4) <;> simp [hz]
  · simp [hz]

/-- `decode` inverts `encode` and accepts nothing else. -/
theorem decode_eq_ok_iff {w : Byte} {i : Instr} : decode w = .ok i ↔ encode i = w := by
  rw [decode_eq_ok_iff_fields, opRow_eq_some_iff]
  constructor
  · rintro ⟨hz, hop⟩
    exact hop.trans ((zeroFieldOk_iff_append w).mp hz)
  · rintro rfl
    have hz : zeroFieldOk (encode i) = true := by cases i <;> decide
    exact ⟨hz, ((zeroFieldOk_iff_append _).mp hz).symm⟩

@[simp] theorem decode_encode (i : Instr) : decode (encode i) = .ok i := decode_eq_ok_iff.mpr rfl

theorem exists_decode_iff_wordWf (w : Byte) : (∃ i, decode w = .ok i) ↔ wordWf w = true := by
  simp only [decode_eq_ok_iff_fields, exists_and_left, wordWf, Bool.and_eq_true, opAssigned_eq_isSome, Option.isSome_iff_exists]

/-- Settles O1: each word is the encoding of its command. -/
theorem commandWordsDecode : Obligations.CommandWordsDecode :=
  ⟨decode_encode .flen, decode_encode .fid, decode_encode .odlen, decode_encode .odget, decode_encode .fenc,
    decode_encode .nrzi, decode_encode .unstf, decode_encode .brev, decode_encode .crcchk, decode_encode .ax25⟩

/-- Settles O2: `decode_eq_ok_iff` in both directions, and `decode` accepts by the two fields `wordWf` tests. -/
theorem decodeEncodeAgree : Obligations.DecodeEncodeAgree :=
  ⟨decode_encode, fun _ _ => decode_eq_ok_iff.mp, exists_decode_iff_wordWf⟩

/-- A write to CMD of a word that is no command's runs nothing (R84). -/
theorem writeCmd_of_forall_encode_ne {s : State} {v : Word} (h : ∀ i, encode i ≠ v.setWidth 8) :
    writeCmd s v = shellFault s .illegalCmd := by
  cases hd : decode (v.setWidth 8) with
  | ok i => exact absurd (decode_eq_ok_iff.mp hd) (h i)
  | error r => simp only [writeCmd, hd]

/-- The ten words of R82 are those of the ten commands. -/
theorem encode_mem_words (i : Instr) :
    encode i ∈ [0x01#8, 0x02#8, 0x03#8, 0x04#8, 0x05#8, 0x08#8, 0x09#8, 0x0A#8, 0x0B#8, 0x0C#8] := by
  cases i <;> decide

/-- Settles O4: the step takes the write, no command has that word, and ILLEGAL_CMD's STATUS is 0x0021. -/
theorem illegalWordIsShellFault : Obligations.IllegalWordIsShellFault := by
  intro s v rest hs hv
  have hne : ∀ i, encode i ≠ v.setWidth 8 := fun i hi => hv (hi ▸ encode_mem_words i)
  calc step s = hostTransact { s with host := rest } (.regWrite 0 v) := step_of_host hs
    _ = writeCmd { s with host := rest } v := rfl
    _ = shellFault { s with host := rest } .illegalCmd := writeCmd_of_forall_encode_ne hne
    _ = .next { s with host := rest, status := 0x0021#16 } := by rw [shellFault_eq, statusOfFault_illegalCmd]

end Sys2Proof.Machine
end

section
/-! SUPPORT. The frame length of R109 with and without a password, what FLEN answers in the terms of R112 and R102, and the FRLEN of
every frame FENC builds (40 R109, R111, R113). -/

namespace Sys2Proof.Machine

section FrameLength
variable (c n p : Nat)

/-- With a password the length byte is counted for every `n`, so a whole section stands after callsign and function id. -/
theorem frameLength_true : frameLength c n p true = c + 1 + (1 + n + p + padlen n p) := by
  unfold frameLength
  simp only [if_true]
  split <;> split <;> omega

theorem frameLength_false : frameLength c n p false = c + 1 + (if 0 < n then 1 + n else 0) := rfl

/-- A password always adds to the frame: at least the padding. -/
theorem frameLength_false_lt_true : frameLength c n p false < frameLength c n p true := by
  have hpad := padlen_spec n p
  rw [frameLength_true, frameLength_false]
  split <;> omega

end FrameLength

section Flen
variable {s : State}

/-- The shell check of FLEN and FENC asks what R112 asks, at the capacities of `exec`. -/
theorem lengthTooBig_flen_iff : LengthTooBig s .flen ↔ (csTooLong Config.core s || pwTooLong Config.core s) = true := by
  simp only [csTooLong, pwTooLong, Bool.or_eq_true, Bool.and_eq_true, decide_eq_true_eq]

theorem csValid_iff : s.csValid = true ↔ CallsignOk s := by
  simp only [State.csValid, Bool.and_eq_true, decide_eq_true_eq]

theorem not_lengthTooBig_of_fcpLengthsOk (h : FcpLengthsOk s) : ¬ LengthTooBig s .flen := by
  obtain ⟨hcs, hpw⟩ := h
  rintro (⟨hp, hlt⟩ | ⟨hp, hlt⟩)
  · exact absurd hlt (Nat.not_lt.2 (hcs hp))
  · exact absurd hlt (Nat.not_lt.2 (hpw hp))

theorem exec_flen_of_lengthTooBig (h : LengthTooBig s .flen) : exec .flen s = .next (s.faulted .badLength) :=
  if_pos (lengthTooBig_flen_iff.1 h)

theorem exec_flen_of_not_callsignOk (h : ¬ LengthTooBig s .flen) (hc : ¬ CallsignOk s) :
    exec .flen s = .next (s.finish .ok false (errCode .callsignInvalid)) := by
  rcases flenWith_cases Config.core s with ⟨hl, -⟩ | ⟨-, -, hs⟩ | ⟨-, hv, -⟩
  · exact absurd (lengthTooBig_flen_iff.2 hl) h
  · exact hs
  · exact absurd (csValid_iff.1 hv) hc

theorem exec_flen_of_callsignOk (h : ¬ LengthTooBig s .flen) (hc : CallsignOk s) :
    exec .flen s = .next (s.finish .ok false (BitVec.ofNat 16 (frameLength s.c s.n s.p s.pwP))) := by
  rcases flenWith_cases Config.core s with ⟨hl, -⟩ | ⟨-, hv, -⟩ | ⟨-, -, hs⟩
  · exact absurd (lengthTooBig_flen_iff.2 hl) h
  · exact absurd (csValid_iff.2 hc) (Bool.eq_false_iff.1 hv)
  · exact hs

/-- RESULT's 16 bits hold every frame length FLEN computes. -/
theorem frameLength_toNat (h : ¬ LengthTooBig s .flen) (hc : CallsignOk s) :
    (BitVec.ofNat 16 (frameLength s.c s.n s.p s.pwP)).toNat = frameLength s.c s.n s.p s.pwP := by
  have hle := frameLength_le (Bool.eq_false_iff.2 (mt lengthTooBig_flen_iff.2 h)) (csValid_iff.2 hc)
  exact Nat.mod_eq_of_lt (by omega)

end Flen

/-- Where FENC succeeds its checks passed, and FRLEN is the length of R109 with the path test `enc_path` in the place of PW_P. -/
theorem fencWith_success {C : Config} {s t : State} (h : fencWith C s = .next t) (hst : t.status = 0x0001#16)
    (hres : t.result = 0) : (csTooLong C s || pwTooLong C s) = false ∧ s.csValid = true ∧
      t.frlen = BitVec.ofNat 16 (frameLength s.c s.n s.p s.encPath) := by
  rcases fencWith_next h with rfl | ⟨e, rfl⟩ | ⟨hl, hl', hv, -, cs, hcs, h⟩
  · exact absurd hst (statusOfFault_ne_ok _)
  · exact absurd hres (errCode_ne_zero e)
  obtain ⟨hcs, -⟩ := Mem.readRun_eq_ok.1 hcs
  refine ⟨Bool.or_eq_false_iff.2 ⟨hl, hl'⟩, hv, ?_⟩
  rcases h with ⟨hp, -, pw, od, key, hpw, hod, -, h⟩ | ⟨hp, hn, od, hod, h⟩ | ⟨hp, hn, h⟩
  all_goals
    cases h
    refine congrArg (BitVec.ofNat 16) ?_
    rw [hp]
  · obtain ⟨hpw, -⟩ := Mem.readRun_eq_ok.1 hpw
    obtain ⟨hod, -⟩ := Mem.readRun_eq_ok.1 hod
    simp only [frameLength_true, secPlain, List.length_append, List.length_cons, enc_length, drawn_length]
    omega
  · obtain ⟨hod, -⟩ := Mem.readRun_eq_ok.1 hod
    simp only [frameLength_false, if_pos hn, List.length_append, List.length_cons]
    omega
  · simp only [frameLength_false, hn, Nat.lt_irrefl, if_false, List.length_append, List.length_cons, List.length_nil, hcs]

/-- Settles O11: the three cases of FLEN, each with its STATUS word and code written out. -/
theorem flenRule : Obligations.FlenRule := by
  intro s
  refine ⟨fun h => ?_, fun h hc => ?_, fun h hc => ?_⟩
  · rw [exec_flen_of_lengthTooBig h, State.faulted, statusOfFault_badLength]
  · rw [exec_flen_of_not_callsignOk h hc, State.finish, statusOf_ok, errCode_callsignInvalid]
  · rw [exec_flen_of_callsignOk h hc, State.finish, statusOf_ok]
    rfl

/-- Settles O12: what is counted after `c + 1` is `1 + n + p` bytes and the padding that completes their last block. -/
theorem flenCountsWholeBlocks : Obligations.FlenCountsWholeBlocks := by
  intro s hl hc hp
  have hl := not_lengthTooBig_of_fcpLengthsOk hl
  have hsection : frameLength s.c s.n s.p s.pwP - s.c - 1 = 1 + s.n + s.p + padlen s.n s.p := by
    rw [hp, frameLength_true]
    omega
  refine ⟨_, exec_flen_of_callsignOk hl hc, ?_⟩
  rw [State.finish_result, frameLength_toNat hl hc, hsection]
  have hpad := padlen_spec s.n s.p
  omega

/-- Settles O23: both lengths are R109's, FLEN's for PW_P and FENC's for `enc_path`. The two tests agree when KEY_P = PW_P; when
PW_P = 1 and KEY_P = 0 FLEN counts a password FENC does not store. -/
theorem flenAgreesWithFenc : Obligations.FlenAgreesWithFenc := by
  intro s t h hst hres
  obtain ⟨hl, hv, hfr⟩ := fencWith_success h hst hres
  have hbig : ¬ LengthTooBig s .flen := mt lengthTooBig_flen_iff.1 (Bool.eq_false_iff.1 hl)
  have hc := csValid_iff.1 hv
  refine ⟨_, exec_flen_of_callsignOk hbig hc, statusOf_ok, fun hkp => ?_, fun hp hk heq => ?_⟩
  · have hpath : s.encPath = s.pwP := by rw [State.encPath, hkp, Bool.and_self]
    rw [hfr, hpath, State.finish_result]
  · have hpath : s.encPath = false := by rw [State.encPath, hk, Bool.false_and]
    have hlt := frameLength_false_lt_true s.c s.n s.p
    have hle := hp ▸ frameLength_le hl hv
    rw [State.finish_result, hfr, hpath, hp] at heq
    have hmod : frameLength s.c s.n s.p true % 65536 = frameLength s.c s.n s.p false % 65536 := congrArg BitVec.toNat heq
    omega

end Sys2Proof.Machine
end

section
/-! SUPPORT. What FID, ODLEN and ODGET do once their operands are named (41 R120 to R127): the preamble they share, proved once over what
follows it, then the two paths of ODLEN and ODGET from the bytes their buffers hold. -/

namespace Sys2Proof.Machine

section Ends
variable (s : State)

/-- A completed command's state with its STATUS word written out (10_state R24). -/
theorem State.finish_ok_eq (r : Word) : s.finish .ok false r = { s with status := 0x0001#16, result := r } := by
  rw [State.finish, statusOf_ok]

theorem State.faulted_badLength_eq : s.faulted .badLength = { s with status := 0x0041#16 } := by
  rw [State.faulted, statusOfFault_badLength]

theorem State.withPayload_eq (payload : List Byte) :
    s.withPayload payload = { s with
      status := 0x0001#16, result := 0, optlen := BitVec.ofNat 8 payload.length, od := s.od.writeRun 0 payload } := by
  rw [State.withPayload, State.finish_ok_eq]

end Ends

section Reads
variable {s : State}

/-- Reading a run of bytes the buffer holds goes on with them. -/
theorem withBytes_of_holds {b : BufId} {a n : Nat} {bytes : List Byte} {k : List Byte → Out} (h : Holds s b a bytes)
    (hn : bytes.length = n) : withBytes s b a n k = k bytes :=
  withBytes_of_ok (Mem.readRun_eq_ok.2 ⟨hn, h⟩)

theorem encPath_iff : s.encPath = true ↔ Encrypted s := by
  rw [State.encPath, Bool.and_eq_true]

theorem withLengthByte_of_read {d : Byte} (k : Byte → Out) (hd : s.fr.read (s.c + 1) = some d) :
    withLengthByte s k = if d.toNat ≠ s.frameLen - s.c - 2 then fail s .lengthMismatch else k d :=
  withByte_of_some hd

end Reads

section Preamble
variable {s : State} {i : Instr} {k : Out}

theorem lengthTooBig_fid_iff : LengthTooBig s .fid ↔ (csTooLong Config.core s || frTooLong Config.core s) = true := by
  simp only [csTooLong, frTooLong, Bool.or_eq_true, Bool.and_eq_true, decide_eq_true_eq]

/-- ODLEN and ODGET have one shell check. -/
theorem lengthTooBig_odlen_iff :
    LengthTooBig s .odlen ↔ (csTooLong Config.core s || pwTooLong Config.core s || frTooLong Config.core s) = true := by
  simp only [csTooLong, pwTooLong, frTooLong, Bool.or_eq_true, Bool.and_eq_true, decide_eq_true_eq, or_assoc]

/-- Command `i` is the tests of R120 over its own length check, then `k`. -/
def BeginsWithPreamble (s : State) (i : Instr) (k : Out) : Prop :=
  ∃ tooLong : Bool, (LengthTooBig s i ↔ tooLong = true) ∧
    exec i s = if tooLong then shellFault s .badLength
      else if !s.csValid then fail s .callsignInvalid
      else if s.frameLen < s.c + 1 then fail s .frameInvalid
      else k

theorem fid_beginsWithPreamble :
    BeginsWithPreamble s .fid (withByte s .fr s.c fun f => complete s (f.setWidth 16)) :=
  ⟨_, lengthTooBig_fid_iff, rfl⟩

theorem odlen_beginsWithPreamble :
    BeginsWithPreamble s .odlen
      (if s.frameLen = s.c + 1 then complete s 0
      else if s.encPath then withSec Config.core s fun _ declared => complete s (BitVec.ofNat 16 (declared - s.p))
      else withLengthByte s fun d => complete s (d.setWidth 16)) :=
  ⟨_, lengthTooBig_odlen_iff, rfl⟩

theorem odget_beginsWithPreamble :
    BeginsWithPreamble s .odget
      (if s.encPath then odgetBody Config.core s
      else withBytes s .fr 0 s.c fun got => withBytes s .cs 0 s.c fun want =>
        if got ≠ want then fail s .callsignInvalid else odgetBody Config.core s) :=
  ⟨_, lengthTooBig_odlen_iff, rfl⟩

theorem BeginsWithPreamble.of_lengthTooBig (h : BeginsWithPreamble s i k) (hl : LengthTooBig s i) :
    exec i s = .next (s.faulted .badLength) := by
  obtain ⟨b, hb, he⟩ := h
  rw [he, if_pos (hb.1 hl)]
  rfl

theorem BeginsWithPreamble.of_not_callsignOk (h : BeginsWithPreamble s i k) (hl : ¬ LengthTooBig s i) (hc : ¬ CallsignOk s) :
    exec i s = .next (s.finish .ok false (errCode .callsignInvalid)) := by
  obtain ⟨b, hb, he⟩ := h
  have hv : s.csValid = false := Bool.eq_false_iff.2 (mt csValid_iff.1 hc)
  rw [he, if_neg (mt hb.2 hl), hv]
  rfl

theorem BeginsWithPreamble.of_callsignOk (h : BeginsWithPreamble s i k) (hl : ¬ LengthTooBig s i) (hc : CallsignOk s) :
    exec i s = if s.frameLen < s.c + 1 then fail s .frameInvalid else k := by
  obtain ⟨b, hb, he⟩ := h
  rw [he, if_neg (mt hb.2 hl), csValid_iff.2 hc]
  rfl

theorem BeginsWithPreamble.of_short (h : BeginsWithPreamble s i k) (hl : ¬ LengthTooBig s i) (hc : CallsignOk s)
    (hf : s.frameLen < s.c + 1) : exec i s = .next (s.finish .ok false (errCode .frameInvalid)) :=
  (h.of_callsignOk hl hc).trans (if_pos hf)

/-- When no test fires the command goes on. -/
theorem BeginsWithPreamble.passed (h : BeginsWithPreamble s i k) (hl : ¬ LengthTooBig s i) (hc : CallsignOk s)
    (hf : s.c + 1 ≤ s.frameLen) : exec i s = k :=
  (h.of_callsignOk hl hc).trans (if_neg (Nat.not_lt.2 hf))

theorem exists_beginsWithPreamble (s : State) (hi : i ∈ [Instr.fid, .odlen, .odget]) : ∃ k, BeginsWithPreamble s i k := by
  simp only [List.mem_cons, List.not_mem_nil, or_false] at hi
  rcases hi with rfl | rfl | rfl
  · exact ⟨_, fid_beginsWithPreamble⟩
  · exact ⟨_, odlen_beginsWithPreamble⟩
  · exact ⟨_, odget_beginsWithPreamble⟩

end Preamble

/-- Settles O13: the three outcomes of the preamble, each with its STATUS word and code written out. -/
theorem parserPreamble : Obligations.ParserPreamble := by
  intro s i hi
  obtain ⟨k, hk⟩ := exists_beginsWithPreamble s hi
  refine ⟨fun hl => ?_, fun hl hc => ?_, fun hl hc hf => ?_⟩
  · rw [hk.of_lengthTooBig hl, State.faulted_badLength_eq]
  · rw [hk.of_not_callsignOk hl hc, State.finish_ok_eq, errCode_callsignInvalid]
  · rw [hk.of_short hl hc hf, State.finish_ok_eq, errCode_frameInvalid]

/-- Settles O14: the preamble's outcomes, then the one byte FID reads. -/
theorem fidResult : Obligations.FidResult := by
  intro s
  obtain ⟨hlong, hcs, hshort⟩ := parserPreamble s .fid (by decide)
  refine ⟨hlong, hcs, hshort, fun f hl hc hf hread => ?_⟩
  rw [fid_beginsWithPreamble.passed hl hc hf, withByte_of_some (b := .fr) hread, complete_eq, State.finish_ok_eq]

section EncryptedSection
variable {s : State} {k : List Byte → Nat → Out}

theorem withSec_of_short (h : s.frameLen - s.c - 1 < 1 + s.p) : withSec Config.core s k = fail s .frameInvalid :=
  if_pos h

/-- What the encrypted path reads (R123): the key, the section `ct` from index `c + 1` to the end of the frame, the password; and
the section has room for its length byte and the password. -/
structure SectionOperands (s : State) (key ct pw : List Byte) : Prop where
  key_holds : Holds s .key 0 key
  key_length : key.length = Config.core.keyBytes
  ct_holds : Holds s .fr (s.c + 1) ct
  ct_end : s.c + 1 + ct.length = s.frameLen
  pw_holds : Holds s .pw 0 pw
  pw_length : pw.length = s.p
  room : 1 + s.p ≤ ct.length

variable {key ct pw : List Byte}

theorem SectionOperands.ct_length (h : SectionOperands s key ct pw) : ct.length = s.frameLen - s.c - 1 := by
  have hend := h.ct_end
  omega

theorem SectionOperands.frame_has_section (h : SectionOperands s key ct pw) : s.c + 1 < s.frameLen := by
  have hend := h.ct_end
  have hroom := h.room
  omega

/-- With its operands in place the encrypted path compares the password, then judges the declared length (R127). -/
theorem SectionOperands.withSec_eq (h : SectionOperands s key ct pw) :
    withSec Config.core s k =
      if ((Config.core.dec key ct).drop 1).take s.p ≠ pw then fail s .incorrectPassword
      else if ((Config.core.dec key ct).headD 0).toNat < s.p then fail s .lengthMismatch
      else k (Config.core.dec key ct) ((Config.core.dec key ct).headD 0).toNat := by
  have hroom : ¬ s.frameLen - s.c - 1 < 1 + s.p := Nat.not_lt.2 (h.ct_length ▸ h.room)
  rw [withSec, if_neg hroom, withBytes_of_holds h.key_holds h.key_length, withBytes_of_holds h.ct_holds h.ct_length,
    withBytes_of_holds h.pw_holds h.pw_length]

end EncryptedSection

section Odlen
variable {s : State}

theorem exec_odlen_of_no_section (hl : ¬ LengthTooBig s .odlen) (hc : CallsignOk s) (hf : s.frameLen = s.c + 1) :
    exec .odlen s = complete s 0 :=
  (odlen_beginsWithPreamble.passed hl hc hf.ge).trans (if_pos hf)

theorem exec_odlen_of_clear (hl : ¬ LengthTooBig s .odlen) (hc : CallsignOk s) (he : ¬ Encrypted s) (hf : s.c + 1 < s.frameLen) :
    exec .odlen s = withLengthByte s fun d => complete s (d.setWidth 16) := by
  rw [odlen_beginsWithPreamble.passed hl hc hf.le, if_neg hf.ne', if_neg (mt encPath_iff.1 he)]

theorem exec_odlen_of_encrypted (hl : ¬ LengthTooBig s .odlen) (hc : CallsignOk s) (he : Encrypted s) (hf : s.c + 1 < s.frameLen) :
    exec .odlen s = withSec Config.core s fun _ declared => complete s (BitVec.ofNat 16 (declared - s.p)) := by
  rw [odlen_beginsWithPreamble.passed hl hc hf.le, if_neg hf.ne', if_pos (encPath_iff.2 he)]

end Odlen

/-- Settles O15: no optional data, or the length byte judged. -/
theorem odlenClear : Obligations.OdlenClear := by
  intro s hl hc he
  refine ⟨fun hf => ?_, fun d hf hd => ?_⟩
  · rw [exec_odlen_of_no_section hl hc hf, complete_eq, State.finish_ok_eq]
  · rw [exec_odlen_of_clear hl hc he hf, withLengthByte_of_read _ hd, complete_eq, fail_eq, State.finish_ok_eq,
      State.finish_ok_eq, errCode_lengthMismatch]
    by_cases hlen : d.toNat = s.frameLen - s.c - 2
    · rw [if_neg (not_not.2 hlen), if_pos hlen]
    · rw [if_pos hlen, if_neg hlen]

/-- Settles O16: no section, a section too short, or the decrypted section judged in the order of R127. -/
theorem odlenEncrypted : Obligations.OdlenEncrypted := by
  intro s hl hc he
  refine ⟨fun hf => ?_, fun hf hshort => ?_, fun key ct pw hkey hkl hct hcl hpw hpl hroom => ?_⟩
  · rw [exec_odlen_of_no_section hl hc hf, complete_eq, State.finish_ok_eq]
  · rw [exec_odlen_of_encrypted hl hc he hf, withSec_of_short hshort, fail_eq, State.finish_ok_eq, errCode_frameInvalid]
  · have hops : SectionOperands s key ct pw := ⟨hkey, hkl, hct, hcl, hpw, hpl, hroom⟩
    rw [exec_odlen_of_encrypted hl hc he hops.frame_has_section, hops.withSec_eq]
    simp only [fail_eq, complete_eq, State.finish_ok_eq, errCode_incorrectPassword, errCode_lengthMismatch]
    split
    · rfl
    · split <;> rfl

section Odget
variable {s : State}

theorem exec_odget_of_encrypted (hl : ¬ LengthTooBig s .odget) (hc : CallsignOk s) (he : Encrypted s) (hf : s.c + 1 ≤ s.frameLen) :
    exec .odget s = odgetBody Config.core s :=
  (odget_beginsWithPreamble.passed hl hc hf).trans (if_pos (encPath_iff.2 he))

/-- Without encryption the callsign in the frame is compared first (R126 item 3). -/
theorem exec_odget_of_clear (hl : ¬ LengthTooBig s .odget) (hc : CallsignOk s) (he : ¬ Encrypted s) (hf : s.c + 1 ≤ s.frameLen)
    {got want : List Byte} (hgot : Holds s .fr 0 got) (hgl : got.length = s.c) (hwant : Holds s .cs 0 want)
    (hwl : want.length = s.c) :
    exec .odget s = if got ≠ want then fail s .callsignInvalid else odgetBody Config.core s := by
  rw [odget_beginsWithPreamble.passed hl hc hf, if_neg (mt encPath_iff.1 he), withBytes_of_holds hgot hgl,
    withBytes_of_holds hwant hwl]

/-- With no section ODGET succeeds with an empty payload: OPTLEN = 0 and OD as it was (R126 item 5). -/
theorem odgetBody_of_no_section (hf : s.frameLen = s.c + 1) :
    odgetBody Config.core s = .next { s with status := 0x0001#16, result := 0, optlen := 0 } := by
  rw [odgetBody, if_pos hf, odgetDone_eq, State.withPayload_eq]
  rfl

theorem odgetBody_of_clear (he : ¬ Encrypted s) (hf : s.c + 1 < s.frameLen) :
    odgetBody Config.core s = withLengthByte s fun d => withBytes s .fr (s.c + 2) d.toNat fun payload => odgetDone s payload := by
  rw [odgetBody, if_neg hf.ne', if_neg (mt encPath_iff.1 he)]

theorem odgetBody_of_encrypted (he : Encrypted s) (hf : s.c + 1 < s.frameLen) :
    odgetBody Config.core s = withSec Config.core s fun sec declared =>
      if s.frameLen - s.c - 1 < 1 + declared then fail s .frameInvalid
      else odgetDone s ((sec.drop (1 + s.p)).take (declared - s.p)) := by
  rw [odgetBody, if_neg hf.ne', if_pos (encPath_iff.2 he)]

end Odget

section Payload
variable {s : State} {payload : List Byte} {n : Nat} (hn : payload.length = n)
include hn

theorem State.withPayload_read {k : Nat} (hk : k < n) : (s.withPayload payload).od.read k = payload[k]? := by
  subst hn
  have hread := Mem.read_writeRun_inside s.od 0 payload hk
  rw [Nat.zero_add] at hread
  exact hread.trans (List.getElem?_eq_getElem hk).symm

theorem State.withPayload_untouched : Untouched s (s.withPayload payload) .od 0 n :=
  .of_writeRun rfl hn.le

/-- OPTLEN's 8 bits hold every payload length ODGET stores. -/
theorem State.withPayload_optlen_toNat (h : n < 256) : (s.withPayload payload).optlen.toNat = n := by
  subst hn
  exact Nat.mod_eq_of_lt h

end Payload

/-- Settles O17: the callsign comparison, the exit without optional data, the length byte, and the payload stored. -/
theorem odgetClear : Obligations.OdgetClear := by
  intro s got want hl hc he hf hgot hgl hwant hwl
  have hexec := exec_odget_of_clear hl hc he hf hgot hgl hwant hwl
  refine ⟨fun hne => ?_, fun heq hend => ?_, fun d heq hlong hd => ?_⟩
  · rw [hexec, if_pos hne, fail_eq, State.finish_ok_eq, errCode_callsignInvalid]
  · rw [hexec, if_neg (not_not.2 heq), odgetBody_of_no_section hend]
  · rw [hexec, if_neg (not_not.2 heq), odgetBody_of_clear he hlong, withLengthByte_of_read _ hd]
    refine ⟨fun hlen => ?_, fun payload hlen hpay hpl => ?_⟩
    · rw [if_pos hlen, fail_eq, State.finish_ok_eq, errCode_lengthMismatch]
    · refine ⟨s.od.writeRun 0 payload, ?_, fun j hj => Mem.read_writeRun_inside s.od 0 payload hj, .of_writeRun rfl hpl.le⟩
      rw [if_neg (not_not.2 hlen), withBytes_of_holds hpay hpl, odgetDone_eq, State.withPayload_eq, hpl,
        BitVec.ofNat_toNat, BitVec.setWidth_eq]

/-- Settles O18: no section, a section too short, or the chain of R127 ended by the declared bytes that do not fit, or by the payload
stored. -/
theorem odgetEncrypted : Obligations.OdgetEncrypted := by
  intro s hl hc he
  refine ⟨fun hf => ?_, fun hf hshort => ?_, fun key ct pw sec hkey hkl hct hcl hpw hpl hroom hsec => ?_⟩
  · rw [exec_odget_of_encrypted hl hc he hf.ge, odgetBody_of_no_section hf]
  · rw [exec_odget_of_encrypted hl hc he hf.le, odgetBody_of_encrypted he hf, withSec_of_short hshort, fail_eq,
      State.finish_ok_eq, errCode_frameInvalid]
  have hops : SectionOperands s key ct pw := ⟨hkey, hkl, hct, hcl, hpw, hpl, hroom⟩
  have hf := hops.frame_has_section
  rw [exec_odget_of_encrypted hl hc he hf.le, odgetBody_of_encrypted he hf, hops.withSec_eq, ← hsec, ← hops.ct_length]
  simp only [fail_eq, State.finish_ok_eq, errCode_incorrectPassword, errCode_lengthMismatch, errCode_frameInvalid]
  split
  · exact ⟨_, rfl, rfl⟩
  split
  · exact ⟨_, rfl, rfl⟩
  split
  · exact ⟨_, rfl, rfl⟩
  · rename_i hcovers hfits
    have hsl : sec.length = ct.length := hsec ▸ dec_length ..
    have hlen : ((sec.drop (1 + s.p)).take ((sec.headD 0).toNat - s.p)).length = (sec.headD 0).toNat - s.p := by
      rw [List.length_take, List.length_drop]
      omega
    have hbyte := (sec.headD 0).isLt
    refine ⟨_, odgetDone_eq .., ?_, State.withPayload_optlen_toNat hlen (by omega), fun k hk => ?_,
      State.withPayload_untouched hlen⟩
    · rw [State.withPayload_eq]
    · rw [State.withPayload_read hlen hk, List.getElem?_take_of_lt hk, List.getElem?_drop]

end Sys2Proof.Machine
end

section
/-! SUPPORT. FENC (42 R141 to R147): its tests in their order, the frame it stores on each path from the bytes its buffers hold, and what
a successful FENC has built. -/

namespace Sys2Proof.Machine

section FencTests
variable {s : State}

/-- FENC has FLEN's shell check (40 R112). -/
theorem lengthTooBig_fenc_iff : LengthTooBig s .fenc ↔ (csTooLong Config.core s || pwTooLong Config.core s) = true :=
  lengthTooBig_flen_iff

/-- The payload-consistency test (R141). -/
theorem optionalDataMismatch_iff : (decide (0 < s.n) != s.odP) = true ↔ ¬ (s.n > 0 ↔ s.odP = true) := by
  rw [bne_iff_ne, ne_eq, Bool.eq_iff_iff, decide_eq_true_iff]

/-- The section's length byte does not fit one byte (R141). -/
theorem sectionTooLong_iff : (s.encPath && decide (255 < s.n + s.p)) = true ↔ Encrypted s ∧ s.n + s.p > 255 := by
  rw [Bool.and_eq_true, encPath_iff, decide_eq_true_iff]

/-- What FENC does after its tests: the operands it reads and the frame it stores (R144). -/
def fencBuild (C : Config) (s : State) : Out :=
  withBytes s .cs 0 s.c fun cs =>
  if s.encPath then
    withBytes s .pw 0 s.p fun pw => withBytes s .od 0 s.n fun od => withBytes s .key 0 C.keyBytes fun key =>
    fencDone s (cs ++ s.fidr :: C.enc key (secPlain pw od (drawn C s (padlen s.n s.p)))) (padlen s.n s.p)
  else if 0 < s.n then withBytes s .od 0 s.n fun od => fencDone s (cs ++ s.fidr :: s.optlen :: od) 0
  else fencDone s (cs ++ [s.fidr]) 0

/-- FENC is the tests of R141 in their order, then `fencBuild`. -/
theorem exec_fenc_eq :
    exec .fenc s =
      if csTooLong Config.core s || pwTooLong Config.core s then shellFault s .badLength
      else if !s.csValid then fail s .callsignInvalid
      else if decide (0 < s.n) != s.odP then fail s .frameInvalid
      else if s.encPath && decide (255 < s.n + s.p) then fail s .frameInvalid
      else fencBuild Config.core s := rfl

theorem exec_fenc_of_lengthTooBig (hl : LengthTooBig s .fenc) : exec .fenc s = shellFault s .badLength :=
  if_pos (lengthTooBig_fenc_iff.1 hl)

theorem exec_fenc_of_not_callsignOk (hl : ¬ LengthTooBig s .fenc) (hc : ¬ CallsignOk s) :
    exec .fenc s = fail s .callsignInvalid := by
  rw [exec_fenc_eq, if_neg (mt lengthTooBig_fenc_iff.2 hl), Bool.eq_false_iff.2 (mt csValid_iff.1 hc)]
  rfl

/-- With lengths and callsign in order, the payload's two tests remain. -/
theorem exec_fenc_of_callsignOk (hl : ¬ LengthTooBig s .fenc) (hc : CallsignOk s) :
    exec .fenc s =
      if decide (0 < s.n) != s.odP then fail s .frameInvalid
      else if s.encPath && decide (255 < s.n + s.p) then fail s .frameInvalid
      else fencBuild Config.core s := by
  rw [exec_fenc_eq, if_neg (mt lengthTooBig_fenc_iff.2 hl), csValid_iff.2 hc]
  rfl

/-- When no test fires FENC builds its frame. -/
theorem exec_fenc_passed (hl : ¬ LengthTooBig s .fenc) (hc : CallsignOk s) (ho : s.n > 0 ↔ s.odP = true)
    (hn : ¬ (Encrypted s ∧ s.n + s.p > 255)) : exec .fenc s = fencBuild Config.core s := by
  rw [exec_fenc_of_callsignOk hl hc, if_neg (mt optionalDataMismatch_iff.1 (not_not.2 ho)),
    if_neg (mt sectionTooLong_iff.1 hn)]

end FencTests

/-- Settles O19: the four tests in their order, each with its STATUS word and code written out. -/
theorem fencTests : Obligations.FencTests := by
  intro s
  refine ⟨fun hl => ?_, fun hl hc => ?_, fun hl hc ho => ?_, fun hl hc ho he hn => ?_⟩
  · rw [exec_fenc_of_lengthTooBig hl, shellFault_eq, statusOfFault_badLength]
  · rw [exec_fenc_of_not_callsignOk hl hc, fail_eq, State.finish_ok_eq, errCode_callsignInvalid]
  · rw [exec_fenc_of_callsignOk hl hc, if_pos (optionalDataMismatch_iff.2 ho), fail_eq, State.finish_ok_eq,
      errCode_frameInvalid]
  · rw [exec_fenc_of_callsignOk hl hc, if_neg (mt optionalDataMismatch_iff.1 (not_not.2 ho)),
      if_pos (sectionTooLong_iff.2 ⟨he, hn⟩), fail_eq, State.finish_ok_eq, errCode_frameInvalid]

section FencStores
variable {C : Config} {s : State} {cs pw od key : List Byte}

/-- FENC's success stores the frame in FR from index 0 and leaves the rest of FR (R144). -/
theorem fencDone_stores (frame : List Byte) (k : Nat) :
    ∃ m, fencDone s frame k = .next { s with
        status := 0x0001#16, result := 0, frlen := BitVec.ofNat 16 frame.length, fr := m, draws := s.draws + k } ∧
      Holds { s with fr := m } .fr 0 frame ∧ Untouched s { s with fr := m } .fr 0 frame.length := by
  refine ⟨s.fr.writeRun 0 frame, ?_, fun j hj => Mem.read_writeRun_inside s.fr 0 frame hj, .of_writeRun rfl le_rfl⟩
  rw [fencDone_eq, State.withFrame, State.finish_ok_eq]

/-- The unencrypted frame: a length byte and the payload only when there is one (R142). -/
theorem fencBuild_of_clear (he : ¬ Encrypted s) (hcs : Holds s .cs 0 cs) (hcl : cs.length = s.c) (hod : Holds s .od 0 od)
    (hol : od.length = s.n) :
    fencBuild C s = fencDone s (if s.n = 0 then cs ++ [s.fidr] else cs ++ [s.fidr] ++ [s.optlen] ++ od) 0 := by
  rw [fencBuild, withBytes_of_holds hcs hcl, if_neg (mt encPath_iff.1 he)]
  by_cases hn : s.n = 0
  · rw [if_neg (Nat.not_lt.2 hn.le), if_pos hn]
  · rw [if_pos (Nat.pos_of_ne_zero hn), withBytes_of_holds hod hol, if_neg hn]
    simp only [List.append_assoc, List.cons_append, List.nil_append]

/-- The encrypted frame (R143). -/
theorem fencBuild_of_encrypted (he : Encrypted s) (hcs : Holds s .cs 0 cs) (hcl : cs.length = s.c) (hpw : Holds s .pw 0 pw)
    (hpl : pw.length = s.p) (hod : Holds s .od 0 od) (hol : od.length = s.n) (hkey : Holds s .key 0 key)
    (hkl : key.length = C.keyBytes) :
    fencBuild C s =
      fencDone s (cs ++ s.fidr :: C.enc key (secPlain pw od (drawn C s (padlen s.n s.p)))) (padlen s.n s.p) := by
  rw [fencBuild, withBytes_of_holds hcs hcl, if_pos (encPath_iff.2 he), withBytes_of_holds hpw hpl,
    withBytes_of_holds hod hol, withBytes_of_holds hkey hkl]

end FencStores

/-- Settles O20: the tests pass, and what FENC builds without encryption is stored. -/
theorem fencClear : Obligations.FencClear := by
  rintro s cs od frame hl hc ho he hcs hcl hod hol rfl
  rw [exec_fenc_passed hl hc ho (fun h => he h.1), fencBuild_of_clear he hcs hcl hod hol]
  exact fencDone_stores _ 0

/-- Settles O21: the tests pass, and what FENC builds with encryption is stored; the padding drawn is `padlen` bytes. -/
theorem fencEncrypted : Obligations.FencEncrypted := by
  intro s cs pw od key pad frame hl hc ho he hn hcs hcl hpw hpl hod hol hkey hkl hpad hframe
  have hdrawn : pad = drawn Config.core s (padlen s.n s.p) := hpad
  have hplain : [BitVec.ofNat 8 (s.n + s.p)] ++ pw ++ od ++ pad = secPlain pw od pad := by rw [secPlain, hol, hpl]; rfl
  have hbuilt : cs ++ s.fidr :: Config.core.enc key (secPlain pw od pad) = frame := by
    rw [hframe, hplain, List.append_assoc, List.singleton_append]
  rw [exec_fenc_passed hl hc ho (fun h => Nat.not_lt.2 hn h.2), fencBuild_of_encrypted he hcs hcl hpw hpl hod hol hkey hkl,
    ← hdrawn, hbuilt, show pad.length = padlen s.n s.p by rw [hdrawn, drawn_length]]
  exact fencDone_stores frame _

/-- What FENC puts after the function id, `rest`, and how many bytes it draws for it (R142, R143). -/
inductive FencRest (C : Config) (s : State) : (rest : List Byte) → (draws : Nat) → Prop
  | encrypted {pw od key : List Byte} (path : s.encPath = true) (fits : s.n + s.p ≤ 255) (hpw : s.pw.readRun 0 s.p = .ok pw)
      (hod : s.od.readRun 0 s.n = .ok od) (hkey : s.key.readRun 0 C.keyBytes = .ok key) :
      FencRest C s (C.enc key (secPlain pw od (drawn C s (padlen s.n s.p)))) (padlen s.n s.p)
  | clear {od : List Byte} (path : s.encPath = false) (pos : 0 < s.n) (hod : s.od.readRun 0 s.n = .ok od) :
      FencRest C s (s.optlen :: od) 0
  | bare (path : s.encPath = false) (zero : s.n = 0) : FencRest C s [] 0

/-- A FENC that succeeded from `s` with the frame `cs ++ [f] ++ rest`, leaving `t` (R144). -/
structure FencBuilt (C : Config) (s t : State) (cs rest : List Byte) (draws : Nat) : Prop where
  cs_fits : csTooLong C s = false
  pw_fits : pwTooLong C s = false
  callsign : s.csValid = true
  cs_read : s.cs.readRun 0 s.c = .ok cs
  rest_spec : FencRest C s rest draws
  next_eq : t = s.withFrame (cs ++ s.fidr :: rest) draws

/-- Success is told from a shell fault by STATUS and from a code by RESULT. -/
theorem exists_fencBuilt {C : Config} {s t : State} (h : fencWith C s = .next t) (hst : t.status = 0x0001#16)
    (hres : t.result = 0) : ∃ cs rest draws, FencBuilt C s t cs rest draws := by
  rcases fencWith_next h with rfl | ⟨e, rfl⟩ | ⟨hl, hl', hv, -, cs, hcs, h⟩
  · exact absurd hst (statusOfFault_ne_ok _)
  · exact absurd hres (errCode_ne_zero e)
  rcases h with ⟨hp, hn, pw, od, key, hpw, hod, hkey, h⟩ | ⟨hp, hn, od, hod, h⟩ | ⟨hp, hn, h⟩ <;> cases h
  · exact ⟨cs, _, _, hl, hl', hv, hcs, .encrypted hp hn hpw hod hkey, rfl⟩
  · exact ⟨cs, _, _, hl, hl', hv, hcs, .clear hp hn hod, rfl⟩
  · exact ⟨cs, _, _, hl, hl', hv, hcs, .bare hp hn, rfl⟩

section FencRest
variable {C : Config} {s : State} {rest : List Byte} {draws : Nat}

/-- Without encryption there is no password and no padding (R147). -/
theorem FencRest.length_le_of_clear (h : FencRest C s rest draws) (he : s.encPath = false) : rest.length ≤ 256 := by
  cases h with
  | encrypted path => exact absurd path (Bool.eq_false_iff.1 he)
  | clear path pos hod =>
    have hol := (Mem.readRun_eq_ok.1 hod).1
    have hn : s.n < 256 := s.optlen.isLt
    rw [List.length_cons]
    omega
  | bare path zero => exact Nat.zero_le _

/-- Length byte, payload and password are at most 256 bytes, the padding at most 16 (R147). -/
theorem FencRest.length_le (h : FencRest C s rest draws) : rest.length ≤ 272 := by
  cases h with
  | encrypted path fits hpw hod hkey =>
    have hpl := (Mem.readRun_eq_ok.1 hpw).1
    have hol := (Mem.readRun_eq_ok.1 hod).1
    have hpad := padlen_spec s.n s.p
    simp only [secPlain, enc_length, drawn_length, List.length_cons, List.length_append]
    omega
  | clear path pos hod => exact ((FencRest.clear (C := C) path pos hod).length_le_of_clear path).trans (by decide)
  | bare path zero => exact Nat.zero_le _

end FencRest

section FencBuilt
variable {C : Config} {s t : State} {cs rest : List Byte} {draws : Nat} (h : FencBuilt C s t cs rest draws)
include h

theorem FencBuilt.cs_length : cs.length = s.c := (Mem.readRun_eq_ok.1 h.cs_read).1

theorem FencBuilt.cslen_eq : t.cslen = s.cslen := h.next_eq ▸ rfl
theorem FencBuilt.pwlen_eq : t.pwlen = s.pwlen := h.next_eq ▸ rfl
theorem FencBuilt.cs_eq : t.cs = s.cs := h.next_eq ▸ rfl
theorem FencBuilt.pw_eq : t.pw = s.pw := h.next_eq ▸ rfl
theorem FencBuilt.key_eq : t.key = s.key := h.next_eq ▸ rfl
theorem FencBuilt.fr_eq : t.fr = s.fr.writeRun 0 (cs ++ s.fidr :: rest) := h.next_eq ▸ rfl
theorem FencBuilt.frlen_eq : t.frlen = BitVec.ofNat 16 (cs ++ s.fidr :: rest).length := h.next_eq ▸ rfl

/-- FRLEN's 16 bits hold the length of every frame FENC builds (R147). -/
theorem FencBuilt.frlen_toNat (h16 : C.csMax + 273 < 65536) :
    t.frlen.toNat = s.c + 1 + rest.length := by
  have hc := c_le_csMax h.cs_fits h.callsign
  have hrest := h.rest_spec.length_le
  rw [h.frlen_eq, BitVec.toNat_ofNat, List.length_append, List.length_cons, h.cs_length]
  omega

end FencBuilt

/-- Settles O22: FRLEN is `c + 1` and what follows the function id, at most 272 bytes, or 256 without encryption. -/
theorem fencFrameFits : Obligations.FencFrameFits := by
  intro s t h hst hres
  obtain ⟨cs, rest, draws, hbuilt⟩ := exists_fencBuilt (C := Config.core) h hst hres
  have hc : s.c ≤ 32 := c_le_csMax hbuilt.cs_fits hbuilt.callsign
  have hlen := hbuilt.frlen_toNat (by decide)
  have hrest := hbuilt.rest_spec.length_le
  refine ⟨hc, by omega, by omega, fun he => ?_, ?_⟩
  · have hclear := hbuilt.rest_spec.length_le_of_clear (Bool.eq_false_iff.2 (mt encPath_iff.1 he))
    omega
  · rw [core_frameMax]
    omega

end Sys2Proof.Machine
end

section
/-! SUPPORT. The round trips (42 R148, R149): what a later state that keeps a built frame carries, what the parsers' shared parts do on
it, and the section FENC encrypts read back. -/

namespace Sys2Proof.Machine

section Holds
variable {s : State} {b : BufId} {a : Nat} {x : Byte} {xs ys : List Byte}

theorem holds_left_of_append (h : Holds s b a (xs ++ ys)) : Holds s b a xs := fun j hj => by
  rw [h j (by rw [List.length_append]; omega), List.getElem_append_left hj]

theorem holds_right_of_append (h : Holds s b a (xs ++ ys)) : Holds s b (a + xs.length) ys := fun j hj => by
  rw [Nat.add_assoc, h (xs.length + j) (by rw [List.length_append]; omega), List.getElem_append_right (by omega)]
  simp only [Nat.add_sub_cancel_left]

theorem read_of_holds_cons (h : Holds s b a (x :: xs)) : (s.buf b).read a = some x := h 0 (Nat.zero_lt_succ _)

theorem holds_tail_of_cons (h : Holds s b a (x :: xs)) : Holds s b (a + 1) xs := holds_right_of_append (xs := [x]) h

theorem holds_of_readRun {n : Nat} (h : (s.buf b).readRun a n = .ok xs) : Holds s b a xs := (Mem.readRun_eq_ok.1 h).2

/-- The byte a run from index 0 gives at an index is what the buffer reads there. -/
theorem Mem.getElem?_of_readRun {m : Mem} {n k : Nat} (h : m.readRun 0 n = .ok xs) (hk : k < n) : xs[k]? = m.read k := by
  obtain ⟨hl, hread⟩ := Mem.readRun_eq_ok.1 h
  have hk : k < xs.length := hl ▸ hk
  rw [List.getElem?_eq_getElem hk, ← hread k hk, Nat.zero_add]

end Holds

/-- State `w` has a callsign of `cs`'s length present and the frame `cs ++ [f] ++ rest` in FR, its length in FRLEN, all within the
capacities. -/
structure CarriesFrame (C : Config) (w : State) (cs : List Byte) (f : Byte) (rest : List Byte) : Prop where
  callsign : CallsignOk w
  cs_length : cs.length = w.c
  cs_fits : w.c ≤ C.csMax
  frame_length : w.frameLen = w.c + 1 + rest.length
  frame_fits : w.frameLen ≤ C.frameMax
  frame_holds : Holds w .fr 0 (cs ++ f :: rest)

/-- Every state that keeps a built frame carries it, when FRLEN's 16 bits hold the longest one (R147). -/
theorem FencBuilt.carriesFrame {C : Config} {s t w : State} {cs rest : List Byte} {draws : Nat}
    (h : FencBuilt C s t cs rest draws) (hwf : C.wf = true) (h16 : C.csMax + 273 < 65536) (hw : KeepsFrame t w) :
    CarriesFrame C w cs s.fidr rest := by
  obtain ⟨hcl, hfr, hfl, hp⟩ := hw
  have hc : w.c = s.c := congrArg BitVec.toNat (hcl.trans h.cslen_eq)
  have hv := (csValid_iff.1 h.callsign).2
  have hcs := c_le_csMax h.cs_fits h.callsign
  have hrest := h.rest_spec.length_le
  have hlen : w.frameLen = w.c + 1 + rest.length := by rw [State.frameLen, hfl, h.frlen_toNat h16, hc]
  have hcap : C.csMax + 273 ≤ C.frameMax := by
    simp only [Config.wf, Bool.and_eq_true, decide_eq_true_eq] at hwf
    omega
  refine ⟨⟨hp, hc ▸ hv⟩, h.cs_length.trans hc.symm, hc ▸ hcs, hlen, by omega, fun j hj => ?_⟩
  have hread : w.buf .fr = s.fr.writeRun 0 (cs ++ s.fidr :: rest) := hfr.trans h.fr_eq
  rw [hread, Mem.read_writeRun_inside _ 0 _ hj]

section CarriesFrame
variable {C : Config} {w : State} {cs rest : List Byte} {f : Byte} (h : CarriesFrame C w cs f rest)
include h

theorem CarriesFrame.fr_cs : Holds w .fr 0 cs := holds_left_of_append h.frame_holds

theorem CarriesFrame.fr_tail : Holds w .fr w.c (f :: rest) := by
  have htail := holds_right_of_append h.frame_holds
  rwa [Nat.zero_add, h.cs_length] at htail

theorem CarriesFrame.fr_rest : Holds w .fr (w.c + 1) rest := holds_tail_of_cons h.fr_tail

theorem CarriesFrame.cs_checked : csTooLong C w = false := by
  rw [csTooLong, decide_eq_false (Nat.not_lt.2 h.cs_fits), Bool.and_false]

theorem CarriesFrame.fr_checked : frTooLong C w = false := decide_eq_false (Nat.not_lt.2 h.frame_fits)

/-- FID finds the function id (R121). -/
theorem CarriesFrame.fidWith_eq : fidWith C w = complete w (f.setWidth 16) := by
  have hlong : ¬ w.frameLen < w.c + 1 := by rw [h.frame_length]; omega
  rw [fidWith, h.cs_checked, h.fr_checked, csValid_iff.2 h.callsign, if_neg hlong,
    withByte_of_some (b := .fr) (read_of_holds_cons h.fr_tail)]
  rfl

/-- The preamble of ODLEN and ODGET lets the frame through (R120). -/
theorem CarriesFrame.parsePre_eq (hp : pwTooLong C w = false) (k : Out) : parsePre C w k = k := by
  have hlong : ¬ w.frameLen < w.c + 1 := by rw [h.frame_length]; omega
  rw [parsePre, h.cs_checked, hp, h.fr_checked, csValid_iff.2 h.callsign, if_neg hlong]
  rfl

end CarriesFrame

/-- The machine of `exec` passes the shell check of ODLEN and ODGET on a frame it carries. -/
theorem CarriesFrame.not_lengthTooBig {w : State} {cs rest : List Byte} {f : Byte} (h : CarriesFrame Config.core w cs f rest)
    (hp : w.pwP = false) : ¬ LengthTooBig w .odlen := by
  rw [lengthTooBig_odlen_iff, h.cs_checked, h.fr_checked, pwTooLong, hp, Bool.false_and]
  decide

/-- Settles O24: the frame is carried to the later state, where FID reads its function id, ODLEN judges its length byte and ODGET
compares its callsign and stores its payload. -/
theorem roundTripClear : Obligations.RoundTripClear := by
  intro s t w hsk hsp h hst hres hkeep hcs hwk hwp
  obtain ⟨cs, rest, draws, hbuilt⟩ := exists_fencBuilt (C := Config.core) h hst hres
  have hcarried := hbuilt.carriesFrame (by decide) (by decide) hkeep
  have hl := hcarried.not_lengthTooBig hwp
  have he : ¬ Encrypted w := fun hw => absurd hw.1 (Bool.eq_false_iff.1 hwk)
  have hwcs : w.cs.readRun 0 s.c = .ok cs := hcs.trans hbuilt.cs_eq ▸ hbuilt.cs_read
  have hlen := hcarried.frame_length
  obtain ⟨hodlenNone, hodlen⟩ := odlenClear w hl hcarried.callsign he
  obtain ⟨-, hodgetNone, hodget⟩ := odgetClear w cs cs hl hcarried.callsign he (by omega) hcarried.fr_cs hcarried.cs_length
    (holds_of_readRun (b := .cs) hwcs) hcarried.cs_length
  refine ⟨hcarried.fidWith_eq.trans (by rw [complete_eq, State.finish_ok_eq]), ?_⟩
  have hrest := hcarried.fr_rest
  cases hbuilt.rest_spec with
  | encrypted path => exact absurd (encPath_iff.1 path).1 (Bool.eq_false_iff.1 hsk)
  | bare path zero =>
    have hn : s.optlen = 0 := BitVec.eq_of_toNat_eq zero
    refine ⟨?_, _, hodgetNone rfl hlen, rfl, rfl, hn.symm, fun k hk => absurd hk (by omega)⟩
    rw [hodlenNone hlen, hn]
    rfl
  | @clear od path pos hod =>
    have hol : od.length = s.n := (Mem.readRun_eq_ok.1 hod).1
    rw [List.length_cons] at hlen
    have hd : s.optlen.toNat = w.frameLen - w.c - 2 := by rw [hlen, hol, State.n]; omega
    have hread := read_of_holds_cons hrest
    obtain ⟨m, hexec, hm, -⟩ := (hodget s.optlen rfl (by omega) hread).2 od hd (holds_tail_of_cons hrest) hol
    refine ⟨?_, _, hexec, rfl, rfl, rfl, fun k hk => ?_⟩
    · rw [hodlen s.optlen (by omega) hread, if_pos hd]
    · have hmk := hm k (hol ▸ hk)
      rw [Nat.zero_add] at hmk
      rw [← Mem.getElem?_of_readRun hod hk, List.getElem?_eq_getElem (hol ▸ hk)]
      exact hmk

section SecPlain
variable (pw od pad : List Byte)

theorem secPlain_password : ((secPlain pw od pad).drop 1).take pw.length = pw := by
  rw [secPlain, List.drop_one, List.tail_cons, List.append_assoc, List.take_left]

theorem secPlain_payload : ((secPlain pw od pad).drop (1 + pw.length)).take od.length = od := by
  rw [secPlain, Nat.add_comm, List.drop_succ_cons, List.append_assoc, List.drop_left, List.take_left]

theorem secPlain_declared (h : od.length + pw.length ≤ 255) :
    ((secPlain pw od pad).headD 0).toNat = od.length + pw.length := Nat.mod_eq_of_lt (Nat.lt_succ_of_le h)

theorem secPlain_length : (secPlain pw od pad).length = 1 + od.length + pw.length + pad.length := by
  simp only [secPlain, List.length_cons, List.length_append]
  omega

end SecPlain

/-- State `w` carries the frame with `secPlain pw od pad` encrypted under the key it holds, and takes the encrypted path with a password
of the same length; declared bytes fit the length byte (R143, R149). -/
structure CarriesSection (C : Config) (w : State) (cs : List Byte) (f : Byte) (key pw od pad : List Byte) : Prop where
  carried : CarriesFrame C w cs f (C.enc key (secPlain pw od pad))
  path : Encrypted w
  key_read : w.key.readRun 0 C.keyBytes = .ok key
  pw_length : pw.length = w.p
  pw_fits : w.p ≤ C.pwMax
  declared_fits : od.length + pw.length ≤ 255

/-- A state that keeps an encrypted frame, the key and the password's length carries the section FENC encrypted. -/
theorem FencBuilt.carriesSection {C : Config} {s t w : State} {cs rest : List Byte} {draws : Nat}
    (h : FencBuilt C s t cs rest draws) (hwf : C.wf = true) (h16 : C.csMax + 273 < 65536) (he : Encrypted s)
    (hkeep : KeepsFrame t w) (hwe : Encrypted w) (hkey : w.key = t.key) (hpl : w.pwlen = t.pwlen) :
    ∃ pw od pad, ∃ key, s.pw.readRun 0 s.p = .ok pw ∧ s.od.readRun 0 s.n = .ok od ∧ w.p = s.p ∧
      CarriesSection C w cs s.fidr key pw od pad := by
  have hcarried := h.carriesFrame hwf h16 hkeep
  have hp : w.p = s.p := congrArg BitVec.toNat (hpl.trans h.pwlen_eq)
  have hwkey : w.key = s.key := hkey.trans h.key_eq
  cases h.rest_spec with
  | @encrypted pw od key path fits hpw hod hkey =>
    have hpwl := (Mem.readRun_eq_ok.1 hpw).1
    have hol := (Mem.readRun_eq_ok.1 hod).1
    exact ⟨pw, od, _, key, hpw, hod, hp, hcarried, hwe, hwkey ▸ hkey, hpwl.trans hp.symm,
      hp ▸ p_le_pwMax h.pw_fits he.2, by omega⟩
  | clear path => exact absurd (encPath_iff.2 he) (Bool.eq_false_iff.1 path)
  | bare path => exact absurd (encPath_iff.2 he) (Bool.eq_false_iff.1 path)

section CarriesSection
variable {C : Config} {w : State} {cs key pw od pad : List Byte} {f : Byte} (h : CarriesSection C w cs f key pw od pad)
include h

theorem CarriesSection.parsePre_eq (k : Out) : parsePre C w k = k :=
  h.carried.parsePre_eq (by rw [pwTooLong, decide_eq_false (Nat.not_lt.2 h.pw_fits), Bool.and_false]) k

/-- The section fills the frame after the function id: the length byte, the password, the payload and the padding. -/
theorem CarriesSection.section_length : w.frameLen - w.c - 1 = 1 + od.length + w.p + pad.length := by
  have hlen := h.carried.frame_length
  rw [enc_length, secPlain_length, h.pw_length] at hlen
  omega

theorem CarriesSection.frame_has_section : ¬ w.frameLen = w.c + 1 := by
  have hlen := h.section_length
  omega

/-- ODLEN goes to the section. -/
theorem CarriesSection.odlenWith_eq :
    odlenWith C w = withSec C w fun _ declared => complete w (BitVec.ofNat 16 (declared - w.p)) := by
  rw [odlenWith, h.parsePre_eq, if_neg h.frame_has_section, if_pos (encPath_iff.2 h.path)]

/-- ODGET goes to the section, the callsign not compared (R126 item 3). -/
theorem CarriesSection.odgetWith_eq :
    odgetWith C w = withSec C w fun sec declared =>
      if w.frameLen - w.c - 1 < 1 + declared then fail w .frameInvalid
      else odgetDone w ((sec.drop (1 + w.p)).take (declared - w.p)) := by
  rw [odgetWith, h.parsePre_eq, if_pos (encPath_iff.2 h.path), odgetBody, if_neg h.frame_has_section,
    if_pos (encPath_iff.2 h.path)]

/-- A matched cipher gives the section back (R106), so the password `w` holds is compared with FENC's. -/
theorem CarriesSection.withSec_eq (hm : C.Matched) {pw' : List Byte} (hpw : Holds w .pw 0 pw') (hpl : pw'.length = w.p)
    (k : List Byte → Nat → Out) :
    withSec C w k =
      if pw ≠ pw' then fail w .incorrectPassword else k (secPlain pw od pad) (od.length + w.p) := by
  have hlen := h.section_length
  have hct : (C.enc key (secPlain pw od pad)).length = w.frameLen - w.c - 1 := by
    rw [enc_length, secPlain_length, hlen, h.pw_length]
  have hpass : ((secPlain pw od pad).drop 1).take w.p = pw := h.pw_length ▸ secPlain_password pw od pad
  have hdecl : ((secPlain pw od pad).headD 0).toNat = od.length + w.p := h.pw_length ▸ secPlain_declared pw od pad h.declared_fits
  rw [withSec, if_neg (by omega), withBytes_of_ok (b := .key) h.key_read, withBytes_of_holds h.carried.fr_rest hct,
    withBytes_of_holds hpw hpl, hm, hpass, hdecl, if_neg (Nat.not_lt.2 (Nat.le_add_left _ _))]

/-- With FENC's password ODLEN gives the payload's length. -/
theorem CarriesSection.odlenWith_same (hm : C.Matched) (hpw : Holds w .pw 0 pw) :
    odlenWith C w = complete w (BitVec.ofNat 16 od.length) := by
  rw [h.odlenWith_eq, h.withSec_eq hm hpw h.pw_length, if_neg (not_not.2 rfl), Nat.add_sub_cancel]

/-- With FENC's password ODGET stores the payload. -/
theorem CarriesSection.odgetWith_same (hm : C.Matched) (hpw : Holds w .pw 0 pw) : odgetWith C w = odgetDone w od := by
  have hlen := h.section_length
  have hpay : ((secPlain pw od pad).drop (1 + w.p)).take od.length = od := h.pw_length ▸ secPlain_payload pw od pad
  rw [h.odgetWith_eq, h.withSec_eq hm hpw h.pw_length, if_neg (not_not.2 rfl), if_neg (by omega), Nat.add_sub_cancel, hpay]

end CarriesSection

/-- Settles O25: FID reads the function id in clear; the section decrypts to what FENC encrypted, whose password matches and whose
declared length less the password's is the payload's. -/
theorem roundTripEncrypted : Obligations.RoundTripEncrypted := by
  intro C s t w hwf h16 hm he h hst hres hkeep hwe hkey hpw hpl
  obtain ⟨cs, rest, draws, hbuilt⟩ := exists_fencBuilt h hst hres
  obtain ⟨pw, od, pad, key, hspw, hod, hp, hsec⟩ := hbuilt.carriesSection hwf h16 he hkeep hwe hkey hpl
  have hwpw : w.pw.readRun 0 s.p = .ok pw := hpw.trans hbuilt.pw_eq ▸ hspw
  have hwpw := holds_of_readRun (b := .pw) hwpw
  have hol : od.length = s.optlen.toNat := (Mem.readRun_eq_ok.1 hod).1
  refine ⟨?_, ?_, w.withPayload od, hsec.odgetWith_same hm hwpw, statusOf_ok, rfl, ?_, fun k hk => ?_⟩
  · rw [hsec.carried.fidWith_eq, complete_eq, State.finish_ok_eq]
  · rw [hsec.odlenWith_same hm hwpw, hol, BitVec.ofNat_toNat, complete_eq, State.finish_ok_eq]
  · rw [State.withPayload_eq, hol, BitVec.ofNat_toNat, BitVec.setWidth_eq]
  · rw [State.withPayload_read hol hk, Mem.getElem?_of_readRun hod hk]

/-- Settles O26: the section decrypts to what FENC encrypted, and its password is not the one in PW. -/
theorem wrongPasswordRejected : Obligations.WrongPasswordRejected := by
  intro C s t w pw pw' hwf h16 hm he h hst hres hpw hpwl hkeep hwe hkey hpl hpw' hpwl' hne
  obtain ⟨cs, rest, draws, hbuilt⟩ := exists_fencBuilt h hst hres
  obtain ⟨pw₀, od, pad, key, hspw, -, -, hsec⟩ := hbuilt.carriesSection hwf h16 he hkeep hwe hkey hpl
  have hsame : pw₀ = pw := Except.ok.inj (hspw.symm.trans (Mem.readRun_eq_ok.2 ⟨hpwl, hpw⟩))
  have hdiff : pw₀ ≠ pw' := hsame ▸ hne.symm
  constructor
  · rw [hsec.odlenWith_eq, hsec.withSec_eq hm hpw' hpwl', if_pos hdiff, fail_eq, State.finish_ok_eq,
      errCode_incorrectPassword]
  · rw [hsec.odgetWith_eq, hsec.withSec_eq hm hpw' hpwl', if_pos hdiff, fail_eq, State.finish_ok_eq,
      errCode_incorrectPassword]

end Sys2Proof.Machine
end

section
/-! SUPPORT. The telemetry views (43 R155 to R160): the value of a field that fits a buffer, and what a view of OD
reads. -/

namespace Sys2Proof.Machine

/-- A 2-byte raw value is the little-endian word, less 65536 when the high byte's sign bit is set (43 R158). -/
theorem toInt_append_byte (hi lo : Byte) :
    (hi ++ lo).toInt =
      if hi.toNat < 128 then (lo.toNat : Int) + 256 * hi.toNat else (lo.toNat : Int) + 256 * hi.toNat - 65536 := by
  rw [BitVec.toInt_append, if_neg (by decide), BitVec.toInt_eq_toNat_cond]
  split <;> split <;> omega

/-- A raw value without a scale is the field's value (43 R159). -/
@[simp] theorem tlmScaled_one (raw : Int) : tlmScaled raw (1, 1) = raw := by simp [tlmScaled]

section Value
variable {od : List Byte} {f : TlmField}

/-- Byte `i` of a run of the buffer is the buffer's byte that far past the run's start. -/
theorem tlmByte_of_run {o n i : Nat} (hi : i < n) : tlmByte ((od.drop o).take n) i = tlmByte od (o + i) := by
  simp [tlmByte, List.getElem?_take_of_lt hi]

/-- A field's own bytes hold its raw value. -/
theorem tlmRaw_of_own (o : Nat) (sh : TlmShape) : tlmRaw ((od.drop o).take (tlmWidth sh)) 0 sh = tlmRaw od o sh := by
  cases sh <;> simp [tlmRaw, tlmWidth, tlmByte_of_run]

theorem tlmValue_of_short (h : od.length < tlmEnd f) : tlmValue (some od) f = 0 := if_pos h

theorem tlmValue_of_fits (h : tlmEnd f ≤ od.length) :
    tlmValue (some od) f = tlmField ((od.drop (tlmOffset f)).take (tlmWidth (tlmShape f))) f := if_neg (Nat.not_lt.2 h)

theorem tlmValue_eq_scaled (f : TlmField) (h : tlmEnd f ≤ od.length) :
    tlmValue (some od) f = tlmScaled (tlmRaw od (tlmOffset f) (tlmShape f)) (tlmScale f) := by
  rw [tlmValue_of_fits h, tlmField, tlmRaw_of_own]

/-- A field without a scale has its raw value. -/
theorem tlmValue_eq_raw (f : TlmField) (hf : tlmScale f = (1, 1)) (h : tlmEnd f ≤ od.length) :
    tlmValue (some od) f = tlmRaw od (tlmOffset f) (tlmShape f) := by
  rw [tlmValue_eq_scaled f h, hf, tlmScaled_one]

end Value

/-- A 2-byte raw value from the buffer's own bytes, as numbers. -/
theorem tlmRaw_signed2 (od : List Byte) (o : Nat) :
    tlmRaw od o .signed2 =
      if (od.getD (o + 1) 0).toNat < 128 then ((od.getD o 0).toNat : Int) + 256 * (od.getD (o + 1) 0).toNat
      else ((od.getD o 0).toNat : Int) + 256 * (od.getD (o + 1) 0).toNat - 65536 :=
  toInt_append_byte ..

/-- Settles O59: each field that fits has its scaled raw value, and a 2-byte raw value is its little-endian word in two's
complement. -/
theorem telemetryValues : Obligations.TelemetryValues := by
  refine ⟨fun _ => rfl, fun od f => tlmValue_of_short, fun od => ?_⟩
  simp only [← tlmRaw_signed2]
  exact ⟨tlmValue_eq_scaled .batteryChargingVoltage, tlmValue_eq_scaled .batteryChargingCurrent,
    tlmValue_eq_scaled .batteryVoltage, tlmValue_eq_scaled .solarCellVoltage1, tlmValue_eq_scaled .solarCellVoltage2,
    tlmValue_eq_scaled .solarCellVoltage3, tlmValue_eq_scaled .batteryTemperature, tlmValue_eq_scaled .boardTemperature,
    tlmValue_eq_raw .mcuTemperature rfl, tlmValue_eq_raw .resetCounter rfl, tlmValue_eq_raw .powerConfiguration rfl⟩

section View
variable {C : Config} {s : State} {f : TlmField} (hC : C.hasTlm = true)
include hC

theorem tlmView_of_not_produced : tlmView C s .fossa1 false f = .ok 0 := by
  simp [tlmView, hC]

theorem tlmView_of_short (produced : Bool) (h : s.n < tlmEnd f) : tlmView C s .fossa1 produced f = .ok 0 := by
  simp [tlmView, hC, h]

theorem tlmView_of_run {own : List Byte} (h : tlmEnd f ≤ s.n)
    (hrun : s.od.readRun (tlmOffset f) (tlmWidth (tlmShape f)) = .ok own) :
    tlmView C s .fossa1 true f = .ok (tlmField own f) := by
  simp [tlmView, hC, Nat.not_lt.2 h, hrun]

theorem tlmView_of_run_error {i : Nat} (h : tlmEnd f ≤ s.n)
    (hrun : s.od.readRun (tlmOffset f) (tlmWidth (tlmShape f)) = .error i) :
    tlmView C s .fossa1 true f = .error (.unwritten i) := by
  simp [tlmView, hC, Nat.not_lt.2 h, hrun]

end View

/-- A memory that agrees with a list on a run of its indices reads that run of the list. -/
theorem Mem.readRun_of_agrees {m : Mem} {xs : List Byte} {a n : Nat} (hn : a + n ≤ xs.length)
    (h : ∀ k, a ≤ k → k < a + n → m.read k = xs[k]?) : m.readRun a n = .ok ((xs.drop a).take n) := by
  have hl : ((xs.drop a).take n).length = n := by rw [List.length_take, List.length_drop]; omega
  refine Mem.readRun_eq_ok.2 ⟨hl, fun j hj => ?_⟩
  have hj : j < n := hl ▸ hj
  rw [h (a + j) (Nat.le_add_right _ _) (by omega), List.getElem?_eq_getElem (by omega), List.getElem_take, List.getElem_drop]

/-- A run of reads over an index that holds no value stops, at that index or before. -/
theorem Mem.readRun_stops_of_unwritten {m : Mem} {a n k : Nat} (ha : a ≤ k) (hk : k < a + n) (hnone : m.read k = none) :
    ∃ i, m.readRun a n = .error i ∧ a ≤ i ∧ i ≤ k := by
  cases hrun : m.readRun a n with
  | error i => exact ⟨i, rfl, (Mem.readRun_eq_error hrun).1, Mem.readRun_error_first hrun ha hnone⟩
  | ok bs =>
    obtain ⟨hl, hread⟩ := Mem.readRun_eq_ok.1 hrun
    have hsome := hread (k - a) (by omega)
    rw [Nat.add_sub_cancel' ha, hnone] at hsome
    cases hsome

/-- Settles O60: the view is 0 when absent or too short, and otherwise what the run of reads of the field's own bytes answers. -/
theorem telemetryViewReadsItsField : Obligations.TelemetryViewReadsItsField := by
  intro C s f hC
  refine ⟨tlmView_of_not_produced hC, tlmView_of_short hC, fun od hfits hlen hagree => ?_, fun k hfits ha hk hnone => ?_⟩
  · have hod : tlmEnd f ≤ od.length := hlen ▸ hfits
    rw [tlmView_of_run hC hfits (Mem.readRun_of_agrees hod hagree), tlmValue_of_fits hod]
  · obtain ⟨i, hrun, hai, hik⟩ := Mem.readRun_stops_of_unwritten ha hk hnone
    exact ⟨i, tlmView_of_run_error hC hfits hrun, hai, hik⟩

end Sys2Proof.Machine
end

section
/-! SUPPORT. The bit transform of NRZI (44 R172, R173): what one output bit is, that it undoes NRZ-S encoding (R176), and the synchword
(R177, R179). -/

namespace Sys2Proof.Machine

/-- `y[j]` compares `x[j]` with `x[j-1]`, the bit before the first being `prev` (R173). -/
theorem nrziBits_eq_zipWith (prev : Bool) (bits : List Bool) :
    nrziBits prev bits = List.zipWith (· == ·) bits (prev :: bits) := by
  induction bits generalizing prev with
  | nil => rfl
  | cons cur rest ih => rw [nrziBits, ih, List.zipWith_cons_cons, Bool.beq_comm]

/-- One output bit of the transform started from 0, by its index. -/
theorem getElem?_nrziBits {bits : List Bool} {j : Nat} (hj : j < bits.length) :
    (nrziBits false bits)[j]? = some (bits.getD j false == (if j = 0 then false else bits.getD (j - 1) false)) := by
  have hprev : (false :: bits)[j]? = some (if j = 0 then false else bits.getD (j - 1) false) := by
    cases j with
    | zero => rfl
    | succ j => simp [Nat.lt_of_succ_lt hj]
  rw [nrziBits_eq_zipWith, List.getElem?_zipWith, hprev, List.getD_eq_getElem _ _ hj, List.getElem?_eq_getElem hj]

@[simp] theorem nrzsBits_length (level : Bool) (d : List Bool) : (nrzsBits level d).length = d.length := by
  induction d generalizing level with
  | nil => rfl
  | cons b d ih => rw [nrzsBits, List.length_cons, ih, List.length_cons]

@[simp] theorem nrzsBytes_length (line : List Byte) : (nrzsBytes line).length = line.length := by
  simp [nrzsBytes, pack_length]

/-- The bits of NRZ-S encoded bytes are the encoding of their bits. -/
theorem bitsOf_nrzsBytes (line : List Byte) : bitsOf (nrzsBytes line) = nrzsBits false (bitsOf line) :=
  bitsOf_pack _ (by simp)

/-- The transform undoes the encoding when both start from one level: the line level the encoder holds is the bit the decoder
compares the next one with (R176). -/
theorem nrziBits_nrzsBits (level : Bool) (d : List Bool) : nrziBits level (nrzsBits level d) = d := by
  induction d generalizing level with
  | nil => rfl
  | cons b d ih =>
    have hbit : (level == (level == b)) = b := by cases level <;> cases b <;> rfl
    rw [nrzsBits, nrziBits, hbit, ih]

theorem nrziBytes_nrzsBytes (line : List Byte) : nrziBytes (nrzsBytes line) = line := by
  rw [nrziBytes, bitsOf_nrzsBytes, nrziBits_nrzsBits, pack_bitsOf]

/-- Settles O30: bit by bit the encoder's level is the decoder's previous bit. -/
theorem nrziUndoesNrzs : Obligations.NrziUndoesNrzs :=
  ⟨nrziBits_nrzsBits false, fun line => ⟨nrziBytes_nrzsBytes line, nrzsBytes_length line⟩⟩

/-- NRZI of the synchword `7E 49 39` (R179). -/
theorem nrziBytes_synchword : nrziBytes [0x7E#8, 0x49#8, 0x39#8] = [0xBE#8, 0x92#8, 0x5A#8] := by decide

/-- NRZI of the synchword's own transform (R179). -/
theorem nrziBytes_nrziBytes_synchword : nrziBytes [0xBE#8, 0x92#8, 0x5A#8] = [0x1E#8, 0x24#8, 0x88#8] := by decide

/-- The channel bytes of the synchword (R177). -/
theorem nrzsBytes_synchword : nrzsBytes [0x7E#8, 0x49#8, 0x39#8] = [0xFE#8, 0xDB#8, 0x7B#8] := by decide

/-- Settles O31: the synchword comes back from its channel bytes, and NRZI applied to it twice is another word. -/
theorem nrziTwiceIsNotIdentity : Obligations.NrziTwiceIsNotIdentity := by
  refine ⟨nrzsBytes_synchword, nrzsBytes_synchword ▸ nrziBytes_nrzsBytes _, nrziBytes_synchword, nrziBytes_nrziBytes_synchword,
    fun hid => ?_⟩
  have htwice := hid [0x7E#8, 0x49#8, 0x39#8]
  rw [nrziBytes_synchword, nrziBytes_nrziBytes_synchword] at htwice
  exact absurd htwice (by decide)

end Sys2Proof.Machine
end

section
/-! SUPPORT. The hexadecimal text of NRZI and AX25 (44 R170, R171): text that spells bytes, a character that is no digit, and an odd last
character; then NRZI and both commands on such text. -/

namespace Sys2Proof.Machine

/-- The nibbles of bytes, high one first: the values of the characters that spell them (R170). -/
def nibblesOf : List Byte → List (BitVec 4)
  | [] => []
  | v :: vs => v.extractLsb' 4 4 :: v.extractLsb' 0 4 :: nibblesOf vs

@[simp] theorem nibblesOf_length (raw : List Byte) : (nibblesOf raw).length = 2 * raw.length := by
  induction raw with
  | nil => rfl
  | cons v vs ih => rw [nibblesOf, List.length_cons, List.length_cons, ih, List.length_cons, Nat.mul_succ]

theorem getElem?_nibblesOf_even (raw : List Byte) (i : Nat) :
    (nibblesOf raw)[2 * i]? = raw[i]?.map (BitVec.extractLsb' 4 4) := by
  induction raw generalizing i with
  | nil => rfl
  | cons v vs ih =>
    cases i with
    | zero => rfl
    | succ i => exact ih i

theorem getElem?_nibblesOf_odd (raw : List Byte) (i : Nat) :
    (nibblesOf raw)[2 * i + 1]? = raw[i]?.map (BitVec.extractLsb' 0 4) := by
  induction raw generalizing i with
  | nil => rfl
  | cons v vs ih =>
    cases i with
    | zero => rfl
    | succ i => exact ih i

/-- Reading nibbles in pairs gives back the bytes they are the nibbles of (R170). -/
theorem nibblePairs_nibblesOf (raw : List Byte) : nibblePairs (nibblesOf raw) = raw := by
  induction raw with
  | nil => rfl
  | cons v vs ih =>
    have hv : v.extractLsb' 4 4 ++ v.extractLsb' 0 4 = v := by
      rw [BitVec.extractLsb'_append_extractLsb'_eq_extractLsb' (by decide)]
      exact BitVec.extractLsb'_eq_self
    rw [nibblesOf, nibblePairs, hv, ih]

section Raw
variable {C : Config} {s : State} {k : List Byte → Out}

theorem withRaw_of_tooLong (h : C.nibMax < s.niblen.toNat) : withRaw C s k = .next (s.faulted .badLength) := if_pos h

theorem withRaw_of_ok {vs : List (BitVec 4)} (hn : s.niblen.toNat ≤ C.nibMax)
    (hv : hexValues s.bits 0 (2 * s.rawLen) = .ok vs) : withRaw C s k = k (nibblePairs vs) := by
  simp only [withRaw, if_neg (Nat.not_lt.2 hn), hv]

theorem withRaw_of_badChar (hn : s.niblen.toNat ≤ C.nibMax)
    (hv : hexValues s.bits 0 (2 * s.rawLen) = .error .badChar) : withRaw C s k = .next (s.faulted .badChar) := by
  simp only [withRaw, if_neg (Nat.not_lt.2 hn), hv, shellFault_eq, State.faulted]

end Raw

/-- A scan of characters that spell bytes gives the bytes' nibbles (R170). -/
theorem hexValues_of_spells {s : State} {text raw : List Byte} (hold : Holds s .bits 0 text) (hlen : text.length = 2 * raw.length)
    (hspell : ∀ i, (h : i < raw.length) → (text[2 * i]?).bind nibval = some (raw[i].extractLsb' 4 4) ∧
      (text[2 * i + 1]?).bind nibval = some (raw[i].extractLsb' 0 4)) :
    hexValues s.bits 0 (2 * raw.length) = .ok (nibblesOf raw) := by
  refine hexValues_eq_ok.2 ⟨nibblesOf_length raw, fun j hj => ?_⟩
  rw [nibblesOf_length] at hj
  have hread : s.bits.read (0 + j) = text[j]? := (hold j (hlen ▸ hj)).trans (List.getElem?_eq_getElem _).symm
  rw [hread, ← List.getElem?_eq_getElem]
  obtain ⟨i, rfl | rfl⟩ := Nat.even_or_odd' j
  · have hi : i < raw.length := by omega
    rw [(hspell i hi).1, getElem?_nibblesOf_even, List.getElem?_eq_getElem hi, Option.map_some]
  · have hi : i < raw.length := by omega
    rw [(hspell i hi).2, getElem?_nibblesOf_odd, List.getElem?_eq_getElem hi, Option.map_some]

/-- A scan that meets a character that is no digit, with no unwritten one before it, answers so (R171). -/
theorem hexValues_of_badChar {s : State} {text : List Byte} {ch : Byte} {a n : Nat} (hold : Holds s .bits a (text ++ [ch]))
    (hlen : text.length < n) (hch : nibval ch = none) : hexValues s.bits a n = .error .badChar := by
  obtain _ | n := n
  · exact absurd hlen (Nat.not_lt_zero _)
  induction text generalizing a n with
  | nil =>
    have hread : s.bits.read a = some ch := read_of_holds_cons hold
    simp only [hexValues, hread, hch]
  | cons c text ih =>
    have hread : s.bits.read a = some c := read_of_holds_cons hold
    obtain _ | n := n
    · simp at hlen
    have hrest := ih (holds_tail_of_cons hold) (n := n) (Nat.lt_of_succ_lt_succ hlen)
    rw [hexValues, hread]
    cases hc : nibval c with
    | none => simp only [hc]
    | some v => simp only [hc, hrest]

/-- Settles O28: the text scans to the nibbles of `raw`, whose transform NRZI stores from index 0. -/
theorem nrziResult : Obligations.NrziResult := by
  intro s text raw hn hold htext hraw hspell
  have hscan : hexValues s.bits 0 (2 * s.rawLen) = .ok (nibblesOf raw) := by
    rw [State.rawLen, ← hraw]
    exact hexValues_of_spells hold (hraw ▸ htext) hspell
  have hexec : exec .nrzi s = .next ((nrziStage s raw).finish .ok false 0) := by
    calc exec .nrzi s = nrziWith Config.core s := rfl
      _ = complete (nrziStage s (nibblePairs (nibblesOf raw))) 0 := withRaw_of_ok hn hscan
      _ = .next ((nrziStage s raw).finish .ok false 0) := by rw [nibblePairs_nibblesOf, complete_eq]
  refine ⟨s.nrz.writeRun 0 (nrziBytes raw), nrziBytes raw, ?_, fun j hj => Mem.read_writeRun_inside _ _ _ hj,
    .of_writeRun rfl (Nat.le_refl _), nrziBytes_length raw, fun j hj => ?_⟩
  · rw [hexec, State.finish_ok_eq, nrziStage, hraw]
  · rw [bitsOf_nrziBytes]
    exact getElem?_nrziBits (hj.trans_eq (bitsOf_length raw).symm)

section HexCommands
variable {i : Instr} (hi : i = .nrzi ∨ i = .ax25)
include hi

/-- NRZI and AX25 begin with the shell checks of their text, whatever follows (R171, R211). -/
theorem exec_eq_withRaw (s : State) : ∃ k, exec i s = withRaw Config.core s k := by
  obtain rfl | rfl := hi
  · change ∃ k, nrziWith Config.core s = withRaw Config.core s k
    exact ⟨_, rfl⟩
  · change ∃ k, ax25With Config.core s = withRaw Config.core s k
    exact ⟨_, rfl⟩

theorem lengthTooBig_iff_niblen (s : State) : LengthTooBig s i ↔ Config.core.nibMax < s.niblen.toNat := by
  obtain rfl | rfl := hi
  · exact Iff.rfl
  · exact Iff.rfl

end HexCommands

/-- `s` with another value in NIBLEN. -/
def State.withNiblen (s : State) (n : Word) : State := { s with niblen := n }

/-- Next states of one command from `s` and from `s.withNiblen n`: they differ in NIBLEN, which no command writes. -/
def SameUpToNiblen (n : Word) (t t' : State) : Prop := t' = t.withNiblen n

section OddLast
variable {C : Config} {s : State} {n : Word}

/-- The front of NRZI and AX25 reads of NIBLEN the number of bytes and whether the text fits (R170, R171). -/
theorem outRel_withRaw_withNiblen {k k' : List Byte → Out} (hn : s.niblen.toNat ≤ C.nibMax) (hn' : n.toNat ≤ C.nibMax)
    (hraw : n.toNat / 2 = s.rawLen) (hk : ∀ raw, OutRel (SameUpToNiblen n) (k raw) (k' raw)) :
    OutRel (SameUpToNiblen n) (withRaw C s k) (withRaw C (s.withNiblen n) k') := by
  have hscan : hexValues (s.withNiblen n).bits 0 (2 * (s.withNiblen n).rawLen) = hexValues s.bits 0 (2 * s.rawLen) :=
    congrArg (fun B => hexValues s.bits 0 (2 * B)) hraw
  unfold withRaw
  rw [if_neg (Nat.not_lt.2 hn), if_neg (show ¬ C.nibMax < (s.withNiblen n).niblen.toNat from Nat.not_lt.2 hn'), hscan]
  split
  · exact hk _
  · exact .next rfl
  · exact .fault _

theorem outRel_crcStage_withNiblen : OutRel (SameUpToNiblen n) (crcStage s) (crcStage (s.withNiblen n)) :=
  .ite (fun _ => .next rfl) fun _ => .withBytes rfl fun _ => .withByte rfl fun _ => .withByte rfl fun _ =>
    .ite (fun _ => .next rfl) fun _ => .next rfl

/-- NRZI and AX25 do the same at two values of NIBLEN that fit and declare one number of bytes. -/
theorem exec_outRel_withNiblen {i : Instr} (hi : i = .nrzi ∨ i = .ax25) (hn : s.niblen.toNat ≤ Config.core.nibMax)
    (hn' : n.toNat ≤ Config.core.nibMax) (hraw : n.toNat / 2 = s.rawLen) :
    OutRel (SameUpToNiblen n) (exec i s) (exec i (s.withNiblen n)) := by
  obtain rfl | rfl := hi
  · change OutRel _ (nrziWith Config.core s) (nrziWith Config.core (s.withNiblen n))
    exact outRel_withRaw_withNiblen hn hn' hraw fun _ => .next rfl
  · change OutRel _ (ax25With Config.core s) (ax25With Config.core (s.withNiblen n))
    exact outRel_withRaw_withNiblen hn hn' hraw fun _ => .withBytes rfl fun _ => .withBytes rfl fun _ =>
      .ite (fun _ => .next rfl) fun _ => outRel_crcStage_withNiblen

end OddLast

/-- Settles O29: the shell checks come first, and they and the scan see of an odd NIBLEN what they see of one less. -/
theorem malformedHexText : Obligations.MalformedHexText := by
  intro i s hi
  obtain ⟨k, hexec⟩ := exec_eq_withRaw hi s
  refine ⟨fun hlong => ?_, fun text ch hn hold hlen hch => ?_, fun t hn hodd ht => ?_⟩
  · rw [hexec, withRaw_of_tooLong ((lengthTooBig_iff_niblen hi s).1 hlong), State.faulted_badLength_eq]
  · rw [hexec, withRaw_of_badChar hn (hexValues_of_badChar hold hlen hch), State.faulted, statusOfFault_badChar]
  · have hless : (s.niblen - 1).toNat = s.niblen.toNat - 1 :=
      BitVec.toNat_sub_of_le (BitVec.le_def.2 (by change 1 ≤ s.niblen.toNat; omega))
    have hsame : OutRel (SameUpToNiblen s.niblen) (exec i { s with niblen := s.niblen - 1 }) (exec i s) :=
      exec_outRel_withNiblen hi (hless.trans_le (by omega)) hn (by rw [State.rawLen, hless]; omega)
    rw [ht] at hsame
    obtain ⟨t', ht', rfl⟩ := hsame.of_next
    exact ht'

end Sys2Proof.Machine
end

section
/-! SUPPORT. The unstuffer (45 R182 to R189): the bits a scan has emitted, the scan of stuffed bits and of the run of ones that ends it,
and UNSTF on bytes the buffer holds. -/

namespace Sys2Proof.Machine

/-! The bits a scan has emitted (R182). -/

/-- The bits emitted so far: those of the complete bytes, then the low `8 - FP` bits of ACC (R182, R33). -/
def emittedBits (x : UnstuffScan) : List Bool := bitsOf x.out ++ (byteBits x.acc).drop x.fp

/-- The scan with working values `x` has emitted the bits `e`, FP being in its range. -/
structure HasEmitted (x : UnstuffScan) (e : List Bool) : Prop where
  fp : fpOk x
  bits : emittedBits x = e

/-- Whole bytes in front are packed as they are. -/
theorem pack_bitsOf_append (bytes : List Byte) (rest : List Bool) : pack (bitsOf bytes ++ rest) = bytes ++ pack rest := by
  induction bytes with
  | nil => rfl
  | cons v vs ih => rw [bitsOf, List.append_assoc, pack_byteBits_append, ih, List.cons_append]

theorem hasEmitted_scanStart : HasEmitted scanStart [] := ⟨⟨by decide, by decide⟩, rfl⟩

/-- ACC shifts out its oldest bit and takes the new one at the low end (R182). -/
theorem byteBits_shiftLeft_or_ofBool (v : Byte) (b : Bool) :
    byteBits ((v <<< 1) ||| (BitVec.ofBool b).setWidth 8) = (byteBits v).drop 1 ++ [b] := by
  revert v b
  decide +kernel

@[simp] theorem emitBit_ones (x : UnstuffScan) (b : Bool) : (emitBit x b).ones = if b then x.ones + 1 else 0 := by
  unfold emitBit
  by_cases h : x.fp = 1
  · simp only [h, if_true]
  · simp only [h, if_false]

section Emitting
variable {x : UnstuffScan} {e : List Bool} (h : HasEmitted x e)
include h

/-- The run counter has no part in what has been emitted. -/
theorem HasEmitted.with_ones (n : Nat) : HasEmitted { x with ones := n } e := ⟨h.fp, h.bits⟩

/-- Emitting a bit appends it: in ACC, or as the last bit of the byte it completes. -/
theorem HasEmitted.emitBit (b : Bool) : HasEmitted (emitBit x b) (e ++ [b]) := by
  refine ⟨emitBit_fpOk h.fp b, ?_⟩
  obtain ⟨⟨hlo, hhi⟩, rfl⟩ := h
  by_cases hfp : x.fp = 1
  · have hnew := byteBits_shiftLeft_or_ofBool x.acc b
    simp [Machine.emitBit, emittedBits, hfp, bitsOf_append, bitsOf, hnew]
  · have hle : x.fp - 1 ≤ ((byteBits x.acc).drop 1).length := by rw [List.length_drop, byteBits_length]; omega
    simp only [Machine.emitBit, emittedBits, hfp, if_false, byteBits_shiftLeft_or_ofBool]
    rw [List.drop_append_of_le_length hle, List.drop_drop, Nat.add_sub_cancel' hlo, List.append_assoc]

theorem HasEmitted.foldl_emitBit (bits : List Bool) : HasEmitted (bits.foldl Machine.emitBit x) (e ++ bits) := by
  induction bits generalizing x e with
  | nil => rwa [List.append_nil]
  | cons b bits ih => simpa using ih (h.emitBit b)

/-- The complete bytes are the emitted bits packed: the fewer than eight bits in ACC make no byte (R187). -/
theorem HasEmitted.out_eq : x.out = pack e := by
  obtain ⟨⟨hlo, -⟩, rfl⟩ := h
  have hrest : pack ((byteBits x.acc).drop x.fp) = [] := by
    rw [← List.length_eq_zero_iff, pack_length, List.length_drop, byteBits_length]
    omega
  rw [emittedBits, pack_bitsOf_append, hrest, List.append_nil]

/-- FP counts the free positions of the byte being filled (R185). -/
theorem HasEmitted.fp_eq_two_iff : x.fp = 2 ↔ e.length % 8 = 6 := by
  obtain ⟨⟨hlo, hhi⟩, rfl⟩ := h
  rw [emittedBits, List.length_append, bitsOf_length, List.length_drop, byteBits_length]
  omega

end Emitting

/-- What the unstuffer answers, from how its scan ends and the bits the scan emits (R185, R187). -/
theorem unstuff_of_scan {bytes : List Byte} {found : Bool} {x : UnstuffScan} {e : List Bool}
    (hscan : unstuffScan (bitsOf bytes) scanStart = (found, x)) (h : HasEmitted x e) :
    unstuff bytes = (!(found && decide (e.length % 8 = 6)), pack e) := by
  simp only [unstuff, hscan, h.out_eq, h.fp_eq_two_iff]

/-! The scan, bit by bit (R183, R184, R188). -/

section Scan
variable {x : UnstuffScan} {b : Bool} {rest : List Bool}

theorem unstuffScan_cons_of_ne (h : (emitBit x b).ones ≠ 5) :
    unstuffScan (b :: rest) x = unstuffScan rest (emitBit x b) :=
  (unstuffScan.eq_def _ _).trans (if_neg h)

theorem unstuffScan_cons_stuff (h : (emitBit x b).ones = 5) :
    unstuffScan (b :: false :: rest) x = unstuffScan rest { emitBit x b with ones := 0 } :=
  (unstuffScan.eq_def _ _).trans (if_pos h)

/-- After five ones no stuff bit: the scan ends, and `10` there is the end of a flag (R184). -/
theorem unstuffScan_cons_end (h : (emitBit x b).ones = 5) (hrest : rest.head? ≠ some false) :
    unstuffScan (b :: rest) x = (rest.take 2 == [true, false], emitBit x b) := by
  match rest, hrest with
  | [], _ => exact (unstuffScan.eq_def _ _).trans (if_pos h)
  | [true], _ => exact (unstuffScan.eq_def _ _).trans (if_pos h)
  | true :: true :: _, _ => exact (unstuffScan.eq_def _ _).trans (if_pos h)
  | true :: false :: _, _ => exact (unstuffScan.eq_def _ _).trans (if_pos h)

/-- A run of ones that brings the counter to five, with no stuff bit after it, is emitted and ends the scan. -/
theorem unstuffScan_replicate_true {m : Nat} (hones : x.ones + (m + 1) = 5) (hrest : rest.head? ≠ some false) :
    unstuffScan (List.replicate (m + 1) true ++ rest) x =
      (rest.take 2 == [true, false], (List.replicate (m + 1) true).foldl emitBit x) := by
  induction m generalizing x with
  | zero => exact unstuffScan_cons_end (by simpa using hones) hrest
  | succ m ih =>
    have hne : (emitBit x true).ones ≠ 5 := by rw [emitBit_ones, if_pos rfl]; omega
    rw [List.replicate_succ, List.cons_append, unstuffScan_cons_of_ne hne, List.foldl_cons]
    exact ih (by rw [emitBit_ones, if_pos rfl]; omega)

end Scan

/-- Only six ones in a row make the scan find a flag (R184); the `x.ones` ones just scanned count among them. -/
theorem six_ones_of_unstuffScan_found {bits : List Bool} {x : UnstuffScan} (h : (unstuffScan bits x).1 = true) :
    List.replicate 6 true <:+: List.replicate x.ones true ++ bits := by
  fun_induction unstuffScan bits x with
  | case1 | case2 | case4 => cases h
  | case3 b x hones rest ih =>
    exact (ih h).trans ⟨List.replicate x.ones true ++ [b, false], [], by simp⟩
  | case5 b x hones b3 tail =>
    cases b with
    | false => simp at hones
    | true =>
      have h4 : x.ones = 4 := by simpa using hones
      exact ⟨[], b3 :: tail, by rw [h4]; rfl⟩
  | case6 b rest x hones ih =>
    refine (ih h).trans ?_
    cases b with
    | false => exact ⟨List.replicate x.ones true ++ [false], [], by simp⟩
    | true =>
      rw [emitBit_ones, if_pos rfl, List.replicate_succ', List.append_assoc]
      exact ⟨[], [], by simp⟩

/-! The scan of stuffed bits (R183, R192). -/

/-- The working values after a data bit of a stuffed sequence: the bit is emitted, and the stuff bit after a fifth one is dropped, which
clears the counter (R183). -/
def emitStuffed (x : UnstuffScan) (b : Bool) : UnstuffScan :=
  if (emitBit x b).ones = 5 then { emitBit x b with ones := 0 } else emitBit x b

theorem HasEmitted.foldl_emitStuffed {x : UnstuffScan} {e : List Bool} (h : HasEmitted x e) (d : List Bool) :
    HasEmitted (d.foldl emitStuffed x) (e ++ d) := by
  induction d generalizing x e with
  | nil => rwa [List.append_nil]
  | cons b d ih =>
    have hb : HasEmitted (emitStuffed x b) (e ++ [b]) := by
      unfold emitStuffed
      split
      · exact (h.emitBit b).with_ones 0
      · exact h.emitBit b
    simpa using ih hb

section Stuffed
variable (x : UnstuffScan) (d : List Bool)

@[simp] theorem emitStuffed_false : emitStuffed x false = emitBit x false := if_neg (by simp)

theorem emitStuffed_true_of_four (h : x.ones = 4) : emitStuffed x true = { emitBit x true with ones := 0 } :=
  if_pos (by simp [h])

theorem emitStuffed_true_of_ne (h : x.ones ≠ 4) : emitStuffed x true = emitBit x true := if_neg (by simpa using h)

/-- Stuffing goes on after a data bit with the count of ones the scan has there. -/
theorem stuffFrom_cons_eq (b : Bool) :
    stuffFrom x.ones (b :: d) = b :: ((if b ∧ x.ones = 4 then [false] else []) ++ stuffFrom (emitStuffed x b).ones d) := by
  cases b with
  | false => simp [stuffFrom]
  | true =>
    by_cases h : x.ones = 4
    · simp [stuffFrom, emitStuffed_true_of_four x h, h]
    · simp [stuffFrom, emitStuffed_true_of_ne x h, h]

/-- The scan of stuffed bits emits the data bits and goes on with what follows. -/
theorem unstuffScan_stuffFrom_append (rest : List Bool) :
    unstuffScan (stuffFrom x.ones d ++ rest) x = unstuffScan rest (d.foldl emitStuffed x) := by
  induction d generalizing x with
  | nil => rfl
  | cons b d ih =>
    rw [stuffFrom_cons_eq, List.foldl_cons, ← ih]
    by_cases h : b ∧ x.ones = 4
    · obtain ⟨rfl, h4⟩ := h
      rw [if_pos ⟨rfl, h4⟩, emitStuffed_true_of_four x h4]
      exact unstuffScan_cons_stuff (by simp [h4])
    · have hne : (emitBit x b).ones ≠ 5 := by
        cases b with
        | false => simp
        | true => simpa using h
      rw [if_neg h, emitStuffed, if_neg hne]
      exact unstuffScan_cons_of_ne hne

/-- The counter stays below five after stuffed bits: a fifth one has its stuff bit. -/
theorem foldl_emitStuffed_ones_lt (h : x.ones < 5) : (d.foldl emitStuffed x).ones < 5 := by
  induction d generalizing x with
  | nil => exact h
  | cons b d ih =>
    refine ih (emitStuffed x b) ?_
    unfold emitStuffed
    split
    · exact Nat.zero_lt_succ 4
    · have := emitBit_ones x b
      split at this <;> omega

/-- Stuffed bits that do not end in a one leave the counter at 0. -/
theorem foldl_emitStuffed_ones_eq_zero (hstart : x.ones = 0 ∨ d ≠ [])
    (hlast : (stuffFrom x.ones d).getLast? ≠ some true) : (d.foldl emitStuffed x).ones = 0 := by
  induction d generalizing x with
  | nil => exact hstart.resolve_right fun h => h rfl
  | cons b d ih =>
    rw [stuffFrom_cons_eq] at hlast
    refine ih (emitStuffed x b) ?_ fun h => hlast (by simp [List.getLast?_cons, h])
    by_cases hb : b ∧ x.ones = 4
    · obtain ⟨rfl, h4⟩ := hb
      exact .inl (by rw [emitStuffed_true_of_four x h4])
    · cases b with
      | false => simp
      | true =>
        refine .inr fun hd => hlast ?_
        subst hd
        have h4 : x.ones ≠ 4 := fun h => hb ⟨rfl, h⟩
        simp [stuffFrom, h4]

end Stuffed

/-- The working values after the scan of `stuff d`. -/
def scanStuffed (d : List Bool) : UnstuffScan := d.foldl emitStuffed scanStart

theorem unstuffScan_stuff_append (d rest : List Bool) :
    unstuffScan (stuff d ++ rest) scanStart = unstuffScan rest (scanStuffed d) := unstuffScan_stuffFrom_append scanStart d rest

theorem hasEmitted_scanStuffed (d : List Bool) : HasEmitted (scanStuffed d) d := hasEmitted_scanStart.foldl_emitStuffed d

theorem scanStuffed_ones_lt (d : List Bool) : (scanStuffed d).ones < 5 := foldl_emitStuffed_ones_lt scanStart d (by decide)

theorem scanStuffed_ones_eq_zero {d : List Bool} (h : (stuff d).getLast? ≠ some true) : (scanStuffed d).ones = 0 :=
  foldl_emitStuffed_ones_eq_zero scanStart d (.inl rfl) h

/-! The unstuffer on stuffed bits and what follows them (R185, R188, R189). -/

section Answers
variable {d rest : List Bool} {bytes : List Byte}

/-- Input that ends with stuffed bits (R188). -/
theorem unstuff_of_stuff (h : bitsOf bytes = stuff d) : unstuff bytes = (true, pack d) := by
  refine unstuff_of_scan (found := false) ?_ (hasEmitted_scanStuffed d)
  rw [h, ← List.append_nil (stuff d), unstuffScan_stuff_append]
  rfl

/-- A scan ended by ones that no `0` or `10` follows finds no flag (R188, R189); five of them are emitted after stuffed bits that do not
end in a one. -/
theorem unstuff_of_stuff_five_ones (h : bitsOf bytes = stuff d ++ List.replicate 5 true ++ rest)
    (hlast : (stuff d).getLast? ≠ some true) (hrest : rest.head? ≠ some false) (hflag : rest.take 2 ≠ [true, false]) :
    unstuff bytes = (true, pack (d ++ List.replicate 5 true)) := by
  refine unstuff_of_scan (found := false) ?_ ((hasEmitted_scanStuffed d).foldl_emitBit (List.replicate 5 true))
  rw [h, List.append_assoc, unstuffScan_stuff_append,
    unstuffScan_replicate_true (by rw [scanStuffed_ones_eq_zero hlast]) hrest, beq_eq_false_iff_ne.2 hflag]

/-- The unstuffer fails when its scan finds no flag. -/
theorem unstuff_fst_of_not_found (h : (unstuffScan (bitsOf bytes) scanStart).1 = false) : (unstuff bytes).1 = true := by
  rw [unstuff, h]
  rfl

/-- Input without six ones in a row fails (R188). -/
theorem unstuff_fst_of_no_six_ones (h : ∀ before after : List Bool, bitsOf bytes ≠ before ++ List.replicate 6 true ++ after) :
    (unstuff bytes).1 = true := by
  refine unstuff_fst_of_not_found (Bool.eq_false_iff.2 fun hfound => ?_)
  obtain ⟨before, after, heq⟩ := six_ones_of_unstuffScan_found hfound
  exact h before after heq.symm

/-- Ones with no zero after them are no end of a flag. -/
theorem take_two_replicate_true_append_ne (k : Nat) (hrest : rest.head? ≠ some false) :
    (List.replicate (k + 1) true ++ rest).take 2 ≠ [true, false] := by
  cases k with
  | zero =>
    intro htake
    rw [List.replicate_one, List.singleton_append, List.take_succ_cons, List.cons.injEq] at htake
    exact hrest (by simpa [List.head?_take] using congrArg List.head? htake.2)
  | succ k => simp [List.replicate_succ]

/-- Six ones after stuffed bits with no zero after them fail, whatever ones the stuffed bits end in (R188, R189). -/
theorem unstuff_fst_of_stuff_six_ones (h : bitsOf bytes = stuff d ++ List.replicate 6 true ++ rest)
    (hrest : rest.head? ≠ some false) : (unstuff bytes).1 = true := by
  obtain ⟨m, hm⟩ := Nat.exists_eq_add_of_lt (scanStuffed_ones_lt d)
  have hsix : (6 : Nat) = m + 1 + ((scanStuffed d).ones + 1) := by omega
  have hhead : (List.replicate ((scanStuffed d).ones + 1) true ++ rest).head? ≠ some false := by simp [List.replicate_succ]
  refine unstuff_fst_of_not_found ?_
  rw [h, hsix, List.replicate_add, List.append_assoc, List.append_assoc, unstuffScan_stuff_append,
    unstuffScan_replicate_true (by omega) hhead]
  exact beq_eq_false_iff_ne.2 (take_two_replicate_true_append_ne _ hrest)

end Answers

/-- Settles O33: the stuffed bits give `d`, the flag's zero and five ones are emitted, and the flag is found at its sixth one. -/
theorem unstuffAlignment : Obligations.UnstuffAlignment := by
  intro d tail bytes hbits
  have hscan : unstuffScan (bitsOf bytes) scanStart =
      (true, (List.replicate 5 true).foldl emitBit (emitBit (scanStuffed d) false)) := by
    calc unstuffScan (bitsOf bytes) scanStart
      _ = unstuffScan (flagBits ++ tail) (scanStuffed d) := by rw [hbits, List.append_assoc, unstuffScan_stuff_append]
      _ = unstuffScan (List.replicate 5 true ++ true :: false :: tail) (emitBit (scanStuffed d) false) :=
        unstuffScan_cons_of_ne (by simp)
      _ = _ := unstuffScan_replicate_true (by simp) (by simp)
  have hemit := ((hasEmitted_scanStuffed d).emitBit false).foldl_emitBit (List.replicate 5 true)
  have haligned : (d ++ [false] ++ List.replicate 5 true).length % 8 = 6 ↔ d.length % 8 = 0 := by
    simp only [List.length_append, List.length_replicate, List.length_singleton]
    omega
  rw [unstuff_of_scan hscan hemit, decide_eq_decide.2 haligned, Bool.true_and, ← decide_not]
  exact congrArg (Prod.mk _) (congrArg pack (List.append_assoc ..))

/-! UNSTF (R186). -/

theorem unstfWith_of_holds {C : Config} {s : State} {bytes : List Byte} (hn : s.nrzlen.toNat ≤ C.bytesMax)
    (hold : Holds s .nrz 1 bytes) (hlen : bytes.length = s.nrzlen.toNat - 1) :
    unstfWith C s = .next { s with
      status := if (unstuff bytes).1 then 0x0015#16 else 0x0001#16, result := if (unstuff bytes).1 then 1 else 0,
      uslen := BitVec.ofNat 16 (unstuff bytes).2.length, us := s.us.writeRun 0 (unstuff bytes).2 } := by
  rw [unstfWith, if_neg (Nat.not_lt.2 hn), withScanned, withBytes_of_holds hold hlen]
  cases (unstuff bytes).1 with
  | true => simp only [if_true, State.finish, statusOf_frameError, unstfStage]
  | false => simp only [Bool.false_eq_true, if_false, State.finish, statusOf_ok, unstfStage]

/-- Settles O32: the bytes scanned are those the buffer holds, and the output is written from index 0. -/
theorem unstfCompletes : Obligations.UnstfCompletes := by
  intro s bytes hn hold hlen
  exact ⟨s.us.writeRun 0 (unstuff bytes).2, (unstuff bytes).2, (unstuff bytes).1, unstfWith_of_holds hn hold hlen, rfl,
    hlen ▸ unstuff_length bytes, fun j hj => Mem.read_writeRun_inside _ _ _ hj, .of_writeRun rfl (Nat.le_refl _)⟩

/-- Settles O34: the stuffed whole bytes are aligned, so the flag's six bits make no byte and the output is `data`. -/
theorem unstfInvertsStuffing : Obligations.UnstfInvertsStuffing := by
  intro s first data tail line hline hwhole hold hlen hn
  have hbits : bitsOf (pack line) = stuff (bitsOf data) ++ flagBits ++ tail := (bitsOf_pack line hwhole).trans hline
  have hunstuff : unstuff (pack line) = (false, data) := by
    rw [unstuffAlignment _ _ _ hbits, pack_bitsOf_append, bitsOf_length, Nat.mul_mod_right]
    exact congrArg (Prod.mk false) (List.append_nil data)
  obtain ⟨m, out, bad, hexec, hout, hle, hus, -⟩ :=
    unstfCompletes s (pack line) hn (holds_tail_of_cons hold) (by omega)
  obtain ⟨rfl, rfl⟩ := Prod.mk.inj (hout.trans hunstuff)
  have hlt : out.length < 2 ^ 16 := by have := s.nrzlen.isLt; omega
  exact ⟨_, hexec, rfl, rfl, by simpa using Nat.mod_eq_of_lt hlt, hus⟩

/-- Settles O35: no flag is found without six ones or when no zero follows them, and the bits emitted are `d`, or `d` and the five ones
that bring the counter to five. -/
theorem noClosingFlagIsFrameError : Obligations.NoClosingFlagIsFrameError := by
  intro s bytes hn hold hlen
  obtain ⟨m, out, bad, hexec, hout, -, hus, hsame⟩ := unstfCompletes s bytes hn hold hlen
  refine ⟨fun hends => ?_, fun d emitted hends => ?_⟩
  · have hbad : (unstuff bytes).1 = true := by
      obtain h | ⟨d, h⟩ | ⟨d, tail, h⟩ := hends
      · exact unstuff_fst_of_no_six_ones h
      · exact unstuff_fst_of_stuff_six_ones (rest := []) (by rw [h, List.append_nil]) (by simp)
      · refine unstuff_fst_of_stuff_six_ones (d := d) (rest := true :: tail) ?_ (by simp)
        rw [h, List.replicate_succ']
        simp only [List.append_assoc, List.singleton_append]
    obtain rfl : bad = true := (congrArg Prod.fst hout).trans hbad
    exact ⟨_, hexec, rfl, rfl⟩
  · have hunstuff : unstuff bytes = (true, pack emitted) := by
      obtain ⟨h, rfl⟩ | ⟨hlast, rfl, h | h | ⟨tail, h⟩⟩ := hends
      · exact unstuff_of_stuff h
      · exact unstuff_of_stuff_five_ones (rest := []) (by rw [h, List.append_nil]) hlast (by simp) (by simp)
      · exact unstuff_of_stuff_five_ones (rest := [true]) (by rw [h, List.append_assoc]; rfl) hlast (by simp) (by simp)
      · exact unstuff_of_stuff_five_ones (rest := true :: true :: tail) (by rw [h, List.append_assoc, List.append_assoc]; rfl)
          hlast (by simp) (by simp)
    obtain ⟨rfl, rfl⟩ := Prod.mk.inj (hout.trans hunstuff)
    exact ⟨m, hexec, hus, hsame⟩

end Sys2Proof.Machine
end

section
/-! SUPPORT. The CRC register (46 R198, R199): a shift of it, a byte into it and any bytes into it lose nothing, so a sequence with one byte
changed has another CRC; the values R199 lists; and the two trailer bytes as one word. -/

namespace Sys2Proof.Machine

/-- The word of two bytes, the first one high (46 R201). -/
theorem append_byte_toNat (hi lo : Byte) : (hi ++ lo).toNat = hi.toNat * 256 + lo.toNat := by
  rw [BitVec.toNat_append, ← Nat.shiftLeft_add_eq_or_of_lt lo.isLt, Nat.shiftLeft_eq]

theorem append_byte_inj {hi lo hi' lo' : Byte} : hi ++ lo = hi' ++ lo' ↔ (hi, lo) = (hi', lo') := by
  have := lo.isLt
  have := lo'.isLt
  rw [← BitVec.toNat_inj, append_byte_toNat, append_byte_toNat, Prod.mk.injEq, ← BitVec.toNat_inj, ← BitVec.toNat_inj]
  omega

/-- A shift takes the polynomial's bits when the bit shifted out is 1 (R199). -/
theorem crcShift_eq (crc : Word) : crcShift crc = (crc <<< 1) ^^^ (if crc.getLsbD 15 then 0x1021#16 else 0#16) := by
  have hout : crc &&& 0x8000#16 ≠ 0#16 ↔ crc.getLsbD 15 = true := by
    rw [show 0x8000#16 = BitVec.twoPow 16 15 from rfl, BitVec.and_twoPow]
    cases crc.getLsbD 15 <;> decide
  simp only [crcShift, hout]
  cases crc.getLsbD 15
  · exact (BitVec.xor_zero).symm
  · rfl

/-- The polynomial has constant term 1, so a shift moves the bit it takes out at the top into bit 0. -/
theorem crcShift_getLsbD_zero (crc : Word) : (crcShift crc).getLsbD 0 = crc.getLsbD 15 := by
  rw [crcShift_eq, BitVec.getLsbD_xor, BitVec.getLsbD_shiftLeft]
  cases crc.getLsbD 15 <;> rfl

theorem crcShift_injective : Function.Injective crcShift := by
  intro x y h
  have htop : x.getLsbD 15 = y.getLsbD 15 := by rw [← crcShift_getLsbD_zero, h, crcShift_getLsbD_zero]
  rw [crcShift_eq, crcShift_eq, htop, BitVec.xor_left_inj] at h
  refine BitVec.eq_of_getElem_eq fun i hi => ?_
  obtain rfl | hi := Nat.eq_or_lt_of_le (Nat.le_of_lt_succ hi)
  · exact htop
  · simpa [BitVec.getLsbD_shiftLeft, Nat.succ_lt_succ hi] using congrArg (BitVec.getLsbD · (i + 1)) h

theorem crcByte_eq_iterate (crc : Word) (v : Byte) : crcByte crc v = crcShift^[8] (crc ^^^ (v ++ 0#8)) := rfl

theorem crcByte_left_injective (v : Byte) : Function.Injective (crcByte · v) := fun _ _ h =>
  (BitVec.xor_left_inj _).1 (crcShift_injective.iterate 8 h)

theorem crcByte_right_injective (crc : Word) : Function.Injective (crcByte crc) := fun _ _ h =>
  (BitVec.append_left_inj 0#8).1 ((BitVec.xor_right_inj crc).1 (crcShift_injective.iterate 8 h))

theorem foldl_crcByte_injective (bytes : List Byte) : Function.Injective (bytes.foldl crcByte) := by
  induction bytes with
  | nil => exact Function.injective_id
  | cons v vs ih => exact ih.comp (crcByte_left_injective v)

/-- Two sequences that differ in one byte have different CRCs (R205). -/
theorem crc16_ne_of_one_byte {pre post : List Byte} {v v' : Byte} (h : v ≠ v') :
    crc16 (pre ++ [v] ++ post) ≠ crc16 (pre ++ [v'] ++ post) := by
  simp only [crc16, List.foldl_append, List.foldl_cons, List.foldl_nil]
  exact (foldl_crcByte_injective post).ne ((crcByte_right_injective _).ne h)

/-- Settles O37: `crc16` evaluated on the seven sequences. -/
theorem crcValues : Obligations.CrcValues := by
  unfold Obligations.CrcValues
  decide +kernel

end Sys2Proof.Machine
end

section
/-! SUPPORT. BREV (46 R195, R196): one byte's bits turned round, and the command on the bytes US holds. -/

namespace Sys2Proof.Machine

/-- `brev8` turns the bits of a byte round (R195). -/
theorem byteBits_brev8 (v : Byte) : byteBits (brev8 v) = (byteBits v).reverse := byteBits_byteOf ..

theorem getElem?_byteBits (v : Byte) {k : Nat} (hk : k < 8) : (byteBits v)[k]? = some (v.getLsbD (7 - k)) := by
  interval_cases k <;> rfl

theorem brev8_getLsbD (v : Byte) {k : Nat} (hk : k < 8) : (brev8 v).getLsbD k = v.getLsbD (7 - k) := by
  refine Option.some.inj ?_
  calc some ((brev8 v).getLsbD k)
      = (byteBits (brev8 v))[7 - k]? := by rw [getElem?_byteBits _ (by omega), Nat.sub_sub_self (by omega)]
    _ = (byteBits v)[k]? := by
      rw [byteBits_brev8, List.getElem?_reverse (by rw [byteBits_length]; omega), byteBits_length]
      congr 1; omega
    _ = some (v.getLsbD (7 - k)) := getElem?_byteBits v hk

theorem brevWith_of_holds {C : Config} {s : State} {bytes : List Byte} (hn : s.uslen.toNat ≤ C.bytesMax)
    (hold : Holds s .us 0 bytes) (hlen : bytes.length = s.uslen.toNat) :
    brevWith C s = .next { s with
      status := 0x0001#16, result := 0, axlen := s.uslen, ax := s.ax.writeRun 0 (bytes.map brev8) } := by
  rw [brevWith, if_neg (Nat.not_lt.2 hn), withBytes_of_holds hold hlen, complete_eq, State.finish_ok_eq, brevStage]

theorem brevWith_of_tooLong {C : Config} {s : State} (h : C.bytesMax < s.uslen.toNat) :
    brevWith C s = .next { s with status := 0x0041#16 } := by
  rw [brevWith, if_pos h, shellFault_eq, statusOfFault_badLength]

/-- Settles O36: BREV writes `brev8` of each byte of the run it reads, in their order. -/
theorem brevResult : Obligations.BrevResult := by
  intro s
  refine ⟨brevWith_of_tooLong, fun bytes hn hold hlen => ?_⟩
  refine ⟨s.ax.writeRun 0 (bytes.map brev8), bytes.map brev8, brevWith_of_holds hn hold hlen,
    fun j hj => Mem.read_writeRun_inside _ _ _ hj, .of_writeRun rfl (Nat.le_refl _), List.length_map _, fun j k hj hk => ?_⟩
  rw [List.getD_eq_getElem _ _ (by simpa using hj), List.getElem_map, brev8_getLsbD _ hk]

end Sys2Proof.Machine
end

section
/-! SUPPORT. CRCCHK (46 R201 to R205): the CRC stage on a buffer that holds a payload and its two trailer bytes, and the command's two
statements. -/

namespace Sys2Proof.Machine

/-- "CRC error" with its STATUS word and RESULT written out (R201, R204). -/
theorem crcError_eq (s : State) : crcError s = { s with
    status := 0x0009#16, result := 2, axlen := 9, ax := s.ax.writeRun 0 crcErrorText } := by
  rw [crcError, State.finish, statusOf_crcError]

/-- The nine bytes of the text are stored from index 0, and the rest of AX stays (R204). -/
theorem crcErrorText_stored (s : State) :
    Holds { s with ax := s.ax.writeRun 0 crcErrorText } .ax 0 crcErrorText ∧
    Untouched s { s with ax := s.ax.writeRun 0 crcErrorText } .ax 0 9 :=
  ⟨fun _ hj => Mem.read_writeRun_inside _ _ _ hj, .of_writeRun rfl (Nat.le_refl _)⟩

theorem crcStage_of_short {s : State} (h : s.axlen.toNat < 2) :
    crcStage s = .next (crcError { s with crcr := 0, fcsr := 0 }) := if_pos h

theorem crcchkWith_of_tooLong {C : Config} {s : State} (h : C.axMax < s.axlen.toNat) :
    crcchkWith C s = .next { s with status := 0x0041#16 } := by
  rw [crcchkWith, if_pos h, shellFault_eq, statusOfFault_badLength]

theorem crcchkWith_eq_crcStage {C : Config} {s : State} (h : s.axlen.toNat ≤ C.axMax) : crcchkWith C s = crcStage s :=
  if_neg (Nat.not_lt.2 h)

section Trailer
variable {s : State} {payload : List Byte} {hi lo : Byte} (hlen : s.axlen.toNat = payload.length + 2)
  (hold : Holds s .ax 0 (payload ++ [hi, lo]))
include hlen hold

/-- On a buffer that holds a payload and two trailer bytes, the stage compares the payload's CRC with their word (R201). -/
theorem crcStage_of_holds : crcStage s =
    if crc16 payload ≠ hi ++ lo then .next (crcError { s with crcr := crc16 payload, fcsr := hi ++ lo })
    else complete { s with crcr := crc16 payload, fcsr := hi ++ lo, axlen := s.axlen - 2 } 0 := by
  have hp : s.axlen.toNat - 2 = payload.length := by omega
  have hl : s.axlen.toNat - 1 = payload.length + 1 := by omega
  have htrailer : Holds s .ax payload.length [hi, lo] := Nat.zero_add payload.length ▸ holds_right_of_append hold
  rw [crcStage, if_neg (by omega), hp, hl, withBytes_of_holds (holds_left_of_append hold) rfl,
    withByte_of_some (read_of_holds_cons htrailer), withByte_of_some (read_of_holds_cons (holds_tail_of_cons htrailer))]

theorem crcStage_of_match (h : crc16 payload = hi ++ lo) : crcStage s = .next { s with
    status := 0x0001#16, result := 0, axlen := BitVec.ofNat 16 payload.length, crcr := crc16 payload,
    fcsr := crc16 payload } := by
  have hax : s.axlen - 2 = BitVec.ofNat 16 payload.length := by
    have hword : s.axlen = BitVec.ofNat 16 payload.length + 2 := by
      rw [← BitVec.setWidth_eq s.axlen, ← BitVec.ofNat_toNat, hlen, BitVec.ofNat_add]
      rfl
    rw [hword, BitVec.add_sub_cancel]
  rw [crcStage_of_holds hlen hold, if_neg (not_not.2 h), complete_eq, State.finish_ok_eq, hax, ← h]

theorem crcStage_of_mismatch (h : crc16 payload ≠ hi ++ lo) :
    crcStage s = .next (crcError { s with crcr := crc16 payload, fcsr := hi ++ lo }) := by
  rw [crcStage_of_holds hlen hold, if_pos h]

/-- CRCCHK reports OK only when AXLEN is within the capacity and the trailer is the payload's CRC. -/
theorem crc16_eq_of_exec_ok {t : State} (h : exec .crcchk s = .next t) (hok : t.status = 0x0001#16) :
    s.axlen.toNat ≤ Config.core.axMax ∧ crc16 payload = hi ++ lo := by
  obtain ⟨rfl, -⟩ | ⟨hn, hstage⟩ := crcchkWith_next h
  · exact absurd hok (statusOfFault_ne_ok _)
  refine ⟨hn, not_ne_iff.1 fun hne => ?_⟩
  rw [crcStage_of_mismatch hlen hold hne] at hstage
  cases hstage
  rw [crcError_status, statusOf_crcError] at hok
  exact absurd hok (by decide)

end Trailer

/-- Settles O38: the shell check, then too few bytes, or the CRC of the payload against the trailer's word. -/
theorem crcchkRule : Obligations.CrcchkRule := by
  intro s
  refine ⟨crcchkWith_of_tooLong, fun hshort => ?_, fun payload hi lo hn hlen hold => ⟨fun heq => ?_, fun hne => ?_⟩⟩
  · have hn : s.axlen.toNat ≤ Config.core.axMax := by rw [core_axMax]; omega
    refine ⟨_, ?_, crcErrorText_stored s⟩
    exact (crcchkWith_eq_crcStage hn).trans ((crcStage_of_short hshort).trans (by rw [crcError_eq]))
  · rw [← append_byte_toNat, BitVec.toNat_inj] at heq
    exact (crcchkWith_eq_crcStage hn).trans (crcStage_of_match hlen hold heq)
  · rw [← append_byte_toNat] at hne ⊢
    refine ⟨_, ?_, crcErrorText_stored s⟩
    rw [BitVec.ofNat_toNat, BitVec.setWidth_eq]
    exact (crcchkWith_eq_crcStage hn).trans
      ((crcStage_of_mismatch hlen hold (mt (congrArg BitVec.toNat) hne)).trans (by rw [crcError_eq]))

/-- Settles O39: with another trailer the CRC of the payload stays, with one byte changed it does not, and either way the two differ. -/
theorem corruptedFrameDetected : Obligations.CorruptedFrameDetected := by
  intro s t m payload payload' hi lo hi' lo' hlen hold hexec hok hold' hchange
  obtain ⟨hn, hcrc⟩ := crc16_eq_of_exec_ok hlen hold hexec hok
  have hdiff : payload'.length = payload.length ∧ crc16 payload' ≠ hi' ++ lo' := by
    obtain ⟨rfl, htrailer⟩ | ⟨htrailer, pre, post, v, v', rfl, rfl, hv⟩ := hchange
    · exact ⟨rfl, fun h => htrailer (append_byte_inj.1 (h.symm.trans hcrc))⟩
    · rw [append_byte_inj.2 htrailer, ← hcrc]
      exact ⟨by simp, crc16_ne_of_one_byte hv.symm⟩
  obtain ⟨hlen', hcrc'⟩ := hdiff
  have hexec' := crcStage_of_mismatch (s := { s with ax := m }) (hlen.trans (by rw [hlen'])) hold' hcrc'
  exact ⟨_, (crcchkWith_eq_crcStage (s := { s with ax := m }) hn).trans hexec', crcError_lst _, crcError_result _⟩

end Sys2Proof.Machine
end

section
/-! SUPPORT. AX25 (47 R211 to R218): the state its first three stages leave, the stage commands in sequence, its three outcomes on
hexadecimal text, and the frames built for the channel. -/

namespace Sys2Proof.Machine

/-! The state after stages 1 to 3 (R211). -/

section Stages
variable {s : State} {raw : List Byte} (hl : raw.length < 2 ^ 16)
include hl

theorem ax25Stages_nrzlen_toNat : (ax25Stages s raw).nrzlen.toNat = raw.length :=
  (BitVec.toNat_ofNat ..).trans (Nat.mod_eq_of_lt hl)

/-- BREV copies USLEN to AXLEN (R196), so one number is the length of US and of AX. -/
theorem ax25Stages_lengths : (ax25Stages s raw).uslen.toNat = (unstuff ((nrziBytes raw).drop 1)).2.length ∧
    (ax25Stages s raw).axlen.toNat = (unstuff ((nrziBytes raw).drop 1)).2.length := by
  have hlen := unstuff_length_ofNat_toNat (bytes := (nrziBytes raw).drop 1) (by simp; omega)
  exact ⟨hlen, hlen⟩

/-- The unstuffer's output fits what it scans, the capture without its first byte (R181, R193). -/
theorem ax25Stages_uslen_le : (ax25Stages s raw).uslen.toNat ≤ raw.length - 1 := by
  rw [(ax25Stages_lengths hl).1]
  exact (unstuff_length _).trans_eq (by rw [List.length_drop, nrziBytes_length])

end Stages

theorem ax25Stages_holds_ax (s : State) (raw : List Byte) :
    Holds (ax25Stages s raw) .ax 0 ((unstuff ((nrziBytes raw).drop 1)).2.map brev8) :=
  fun _ hj => Mem.read_writeRun_inside s.ax 0 _ hj

/-! The stage commands one after another (R215). Each reads nothing of the STATUS and RESULT the one before it left. -/

section Commands
variable {C : Config} (s : State) {raw : List Byte} (l : LinkStatus) (b : Bool) (r : Word)

/-- UNSTF after NRZI scans what stage 2 of AX25 scans. -/
theorem unstfWith_finish_nrziStage (hcap : raw.length ≤ C.bytesMax) (hl : raw.length < 2 ^ 16) :
    unstfWith C ((nrziStage s raw).finish l b r) =
      if (unstuff ((nrziBytes raw).drop 1)).1
      then .next ((unstfStage (nrziStage s raw) ((nrziBytes raw).drop 1)).finish .frameError true 1)
      else .next ((unstfStage (nrziStage s raw) ((nrziBytes raw).drop 1)).finish .ok false 0) := by
  have hn : ((nrziStage s raw).finish l b r).nrzlen.toNat = raw.length := ax25Stages_nrzlen_toNat (s := s) hl
  rw [unstfWith, if_neg (by omega)]
  exact withScanned_nrziStage s raw hl _

/-- BREV after UNSTF reverses what stage 3 of AX25 reverses. -/
theorem brevWith_finish_unstfStage (hcap : raw.length ≤ C.bytesMax) (hl : raw.length < 2 ^ 16) :
    brevWith C ((unstfStage (nrziStage s raw) ((nrziBytes raw).drop 1)).finish l b r) =
      .next ((ax25Stages s raw).finish .ok false 0) := by
  have hle : ((unstfStage (nrziStage s raw) ((nrziBytes raw).drop 1)).finish l b r).uslen.toNat ≤ raw.length - 1 :=
    ax25Stages_uslen_le (s := s) hl
  rw [brevWith, if_neg (by omega)]
  exact withBytes_unstfStage (nrziStage s raw) ((nrziBytes raw).drop 1) (by simp; omega) _

/-- CRCCHK after the three stages is stage 4 of AX25. -/
theorem crcchkWith_finish_ax25Stages (hcap : raw.length ≤ C.axMax) (hl : raw.length < 2 ^ 16) :
    crcchkWith C ((ax25Stages s raw).finish l b r) = crcStage (ax25Stages s raw) := by
  have hle : ((ax25Stages s raw).finish l b r).axlen.toNat ≤ raw.length - 1 := ax25Stages_uslen_le (s := s) hl
  rw [crcchkWith_eq_crcStage (by omega)]
  rfl

end Commands

/-- "Frame error" with its STATUS word and RESULT written out (R213, R221). -/
theorem frameError_eq (s : State) : frameError s = { s with
    status := 0x0015#16, result := 1, axlen := 11, crcr := 0, fcsr := 0, ax := s.ax.writeRun 0 frameErrorText } := by
  rw [frameError, State.finish, statusOf_frameError]

/-- A text written over AX stands from index 0, and the rest of AX stays (R213). -/
theorem axText_stored (s : State) (text : List Byte) : Holds { s with ax := s.ax.writeRun 0 text } .ax 0 text ∧
    Untouched s { s with ax := s.ax.writeRun 0 text } .ax 0 text.length :=
  ⟨fun _ hj => Mem.read_writeRun_inside s.ax 0 text hj, .of_writeRun rfl (Nat.le_refl _)⟩

/-- Settles O40: without a shell fault NRZI ran stage 1 on the capture, and then each command runs its stage. -/
theorem ax25IsTheStages : Obligations.Ax25IsTheStages := by
  intro s t1 hnrzi hok
  obtain ⟨rfl, -⟩ | ⟨rfl, -⟩ | ⟨hn, vs, hscan, hraw, rfl⟩ := nrziWith_next hnrzi
  · exact absurd hok (statusOfFault_ne_ok _)
  · exact absurd hok (statusOfFault_ne_ok _)
  have hax : exec .ax25 s = _ := ax25With_of_raw hn hscan
  have hcap : (nibblePairs vs).length ≤ 512 := hraw.trans_le (rawLen_le hn)
  have hl : (nibblePairs vs).length < 2 ^ 16 := by omega
  generalize nibblePairs vs = raw at hax hcap hl ⊢
  have hunstf : exec .unstf ((nrziStage s raw).finish .ok false 0) = _ :=
    unstfWith_finish_nrziStage (C := Config.core) s .ok false 0 hcap hl
  cases hbad : (unstuff ((nrziBytes raw).drop 1)).1 with
  | false =>
    rw [hbad, if_neg Bool.false_ne_true] at hax hunstf
    refine ⟨_, _, hunstf, brevWith_finish_unstfStage s _ _ _ hcap hl, fun _ => hax.trans ?_, fun h => ?_⟩
    · exact (crcchkWith_finish_ax25Stages (C := Config.core) s .ok false 0 hcap hl).symm
    · rw [State.finish_bitstuff] at h
      exact absurd h Bool.false_ne_true
  | true =>
    rw [hbad, if_pos rfl] at hax hunstf
    refine ⟨_, _, hunstf, brevWith_finish_unstfStage s _ _ _ hcap hl, fun h => ?_, fun _ => ?_⟩
    · rw [State.finish_bitstuff] at h
      exact absurd h.symm Bool.false_ne_true
    · exact ⟨_, hax.trans (by rw [frameError_eq]; rfl), axText_stored _ frameErrorText⟩

/-! Hexadecimal text (R170) and the three outcomes (R212). -/

/-- A scan of digits gives their values. -/
theorem hexValues_of_digits {s : State} {a : Nat} {text : List Byte} {vs : List (BitVec 4)} (hold : Holds s .bits a text)
    (hdig : text.map nibval = vs.map some) : hexValues s.bits a text.length = .ok vs := by
  have hlen : text.length = vs.length := by simpa using congrArg List.length hdig
  refine hexValues_eq_ok.2 ⟨hlen.symm, fun j hj => ?_⟩
  have hread : s.bits.read (a + j) = some text[j] := hold j (hlen ▸ hj)
  have hval : nibval text[j] = some vs[j] := by simpa [hj, hlen] using congrArg (·[j]?) hdig
  rw [hread, Option.bind_some, hval]

/-- Text of hexadecimal digits only has values. -/
theorem exists_values_of_digits {text : List Byte} (h : ∀ ch ∈ text, nibval ch ≠ none) :
    ∃ vs : List (BitVec 4), text.map nibval = vs.map some := by
  refine ⟨text.map fun ch => (nibval ch).getD 0, ?_⟩
  rw [List.map_map]
  exact List.map_congr_left fun ch hch => (Option.getD_of_ne_none (h ch hch) 0).symm

/-- Settles O41: the unstuffer fails, or the CRC stage runs to one of its three ends on what the stages left. -/
theorem ax25ThreeOutcomes : Obligations.Ax25ThreeOutcomes := by
  intro s text hn hold htext hdig
  obtain ⟨vs, hvs⟩ := exists_values_of_digits hdig
  have hscan : hexValues s.bits 0 (2 * s.rawLen) = .ok vs := by
    rw [State.rawLen, ← htext]
    exact hexValues_of_digits hold hvs
  have hraw : (nibblePairs vs).length = s.niblen.toNat / 2 := by
    rw [nibblePairs_length, (hexValues_eq_ok.1 hscan).1, Nat.mul_div_cancel_left _ Nat.two_pos, State.rawLen]
  have hl : (nibblePairs vs).length < 2 ^ 16 := hraw ▸ rawLen_lt s
  have hnrz := (ax25Stages_nrzlen_toNat (s := s) hl).trans hraw
  have hus := (ax25Stages_uslen_le (s := s) hl).trans_eq (by rw [hraw, ← hnrz])
  have hax : exec .ax25 s = _ := ax25With_of_raw hn hscan
  split at hax
  · rw [frameError_eq] at hax
    exact ⟨_, hax, hnrz, hus, .inr (.inl ⟨rfl, rfl, rfl, rfl, rfl, (axText_stored _ frameErrorText).1⟩)⟩
  · obtain ⟨t, ht⟩ := crcStage_ax25Stages_completes (s := s) hl
    refine ⟨t, hax.trans ht, ?_⟩
    obtain ⟨hshort, rfl⟩ | ⟨hlong, payload, hi, lo, -, -, -, ⟨hne, rfl⟩ | ⟨heq, rfl⟩⟩ := crcStage_next ht
    · rw [crcError_eq]
      exact ⟨hnrz, hus, .inr (.inr ⟨rfl, rfl, rfl, .inr hshort, (crcErrorText_stored _).1⟩)⟩
    · rw [crcError_eq]
      exact ⟨hnrz, hus, .inr (.inr ⟨rfl, rfl, rfl, .inl hne, (crcErrorText_stored _).1⟩)⟩
    · rw [State.finish_ok_eq]
      refine ⟨hnrz, hus, .inl ⟨rfl, rfl, ?_, heq⟩⟩
      change ((ax25Stages s (nibblePairs vs)).axlen - 2#16).toNat + 2 = (ax25Stages s (nibblePairs vs)).axlen.toNat
      rw [BitVec.toNat_sub_of_le ((BitVec.le_def (x := 2#16)).2 hlong)]
      exact Nat.sub_add_cancel hlong

/-! Frames built for the channel (R218). -/

theorem nibval_hexDigit (v : BitVec 4) : nibval (hexDigit v) = some v := by
  revert v
  decide +kernel

/-- The text of bytes is the digits of their nibbles. -/
theorem hexText_eq_map (raw : List Byte) : hexText raw = (nibblesOf raw).map hexDigit := by
  induction raw with
  | nil => rfl
  | cons v vs ih => rw [hexText, ih]; rfl

theorem hexText_length (raw : List Byte) : (hexText raw).length = 2 * raw.length := by
  rw [hexText_eq_map, List.length_map, nibblesOf_length]

/-- A scan of the text of bytes gives their nibbles. -/
theorem hexValues_of_hexText {s : State} {raw : List Byte} (hold : Holds s .bits 0 (hexText raw)) :
    hexValues s.bits 0 (2 * raw.length) = .ok (nibblesOf raw) := by
  rw [← hexText_length]
  refine hexValues_of_digits hold ?_
  rw [hexText_eq_map, List.map_map]
  exact List.map_congr_left fun v _ => nibval_hexDigit v

/-- Reversing the bits of a byte twice gives it back (R195). -/
theorem brev8_involutive : Function.Involutive brev8 := fun _ =>
  BitVec.eq_of_getLsbD_eq fun k hk => by
    rw [brev8_getLsbD _ hk, brev8_getLsbD _ (by omega), Nat.sub_sub_self (by omega)]

/-- The unstuffer inverts the stuffing of whole bytes before a flag (R192). -/
theorem unstuff_pack_stuff (data : List Byte) (fill : List Bool)
    (hwhole : (stuff (bitsOf data) ++ flagBits ++ fill).length % 8 = 0) :
    unstuff (pack (stuff (bitsOf data) ++ flagBits ++ fill)) = (false, data) := by
  rw [unstuffAlignment _ _ _ (bitsOf_pack _ hwhole), pack_bitsOf_append, bitsOf_length, Nat.mul_mod_right]
  exact congrArg (Prod.mk false) (List.append_nil data)

/-- The opening flag is the first byte of the line, whatever follows it. -/
theorem pack_lineBits (frame : List Byte) (fill : List Bool) : pack (lineBits frame fill) =
    0x7E#8 :: pack (stuff (bitsOf ((withTrailer frame).map brev8)) ++ flagBits ++ fill) := by
  rw [← pack_byteBits_append]
  simp only [lineBits, List.append_assoc]
  rfl

/-- NRZ-S encoding of the opening flag from level 0 (R218). -/
theorem channelBytes_head? (frame : List Byte) (fill : List Bool) : (channelBytes frame fill).head? = some 0xFE#8 := by
  rw [channelBytes, pack_lineBits]
  rfl

/-- Stages 1 and 2 take the channel bytes back to the bit-reversed frame and its trailer. -/
theorem unstuff_nrziBytes_channelBytes (frame : List Byte) (fill : List Bool) (hwhole : (lineBits frame fill).length % 8 = 0) :
    unstuff ((nrziBytes (channelBytes frame fill)).drop 1) = (false, (withTrailer frame).map brev8) := by
  rw [channelBytes, nrziBytes_nrzsBytes, pack_lineBits]
  refine unstuff_pack_stuff _ _ ?_
  simp only [lineBits, List.append_assoc, List.length_append] at hwhole ⊢
  simp only [show flagBits.length = 8 from rfl] at hwhole ⊢
  omega

theorem withTrailer_length (frame : List Byte) : (withTrailer frame).length = frame.length + 2 := List.length_append

/-- The trailer's two bytes are the word of the CRC, the high one first (R202). -/
theorem trailer_append (w : Word) : w.extractLsb' 8 8 ++ w.extractLsb' 0 8 = w := by
  rw [BitVec.extractLsb'_append_extractLsb'_eq_extractLsb' (by decide)]
  exact BitVec.extractLsb'_eq_self

/-- Stage 4 on a frame and its own trailer reports OK and leaves the frame (R203). -/
theorem crcStage_of_withTrailer {u : State} {frame : List Byte} (hlen : u.axlen.toNat = (withTrailer frame).length)
    (hold : Holds u .ax 0 (withTrailer frame)) :
    ∃ t, crcStage u = .next t ∧ t.status = 0x0001#16 ∧ t.result = 0 ∧ t.axlen.toNat = frame.length ∧
      Holds t .ax 0 frame ∧ t.crcr = crc16 frame ∧ t.fcsr = crc16 frame := by
  rw [withTrailer_length] at hlen
  refine ⟨_, crcStage_of_match hlen hold (trailer_append _).symm, rfl, rfl, ?_, holds_left_of_append hold, rfl, rfl⟩
  rw [BitVec.toNat_ofNat]
  exact Nat.mod_eq_of_lt (by have := u.axlen.isLt; omega)

/-- Settles O42: stages 1 to 3 leave the frame and its trailer in AX, and stage 4 finds the trailer to be the frame's CRC. -/
theorem ax25EndToEnd : Obligations.Ax25EndToEnd := by
  intro s frame fill hwhole hold hniblen hn
  refine ⟨channelBytes_head? frame fill, ?_⟩
  rw [hexText_length] at hniblen
  have hraw : s.rawLen = (channelBytes frame fill).length := by rw [State.rawLen, hniblen]; omega
  have hl : (channelBytes frame fill).length < 2 ^ 16 := hraw ▸ rawLen_lt s
  have hunstuff := unstuff_nrziBytes_channelBytes frame fill hwhole
  have hax : exec .ax25 s = crcStage (ax25Stages s (channelBytes frame fill)) := by
    have hstages := ax25With_of_raw hn (hraw ▸ hexValues_of_hexText hold)
    rwa [nibblePairs_nibblesOf, hunstuff, if_neg Bool.false_ne_true] at hstages
  rw [hax]
  refine crcStage_of_withTrailer ?_ ?_
  · rw [(ax25Stages_lengths hl).2, hunstuff, List.length_map]
  · have hholds := ax25Stages_holds_ax s (channelBytes frame fill)
    rwa [hunstuff, List.map_map, brev8_involutive.comp_self, List.map_id] at hholds

end Sys2Proof.Machine
end

section
/-! SUPPORT. The Reset transaction (70_reset R240). -/

namespace Sys2Proof.Machine

/-- Reset leaves every buffer as it is right after reset: empty. -/
@[simp] theorem hostReset_buf (s : State) (b : BufId) : (hostReset s).buf b = [] := reset_buf b

theorem hostRegRead_reset (n : RegName) : hostRegRead State.reset n = 0 := by cases n <;> rfl

/-- Settles O9: the step is `hostReset`, which writes every register 0 and empties every buffer. -/
theorem resetLeavesZeros : Obligations.ResetLeavesZeros := by
  refine ⟨fun s rest hs => ?_, hostRegRead_reset, fun b k => by rw [reset_buf, Mem.read_nil]⟩
  refine ⟨_, step_of_host hs, rfl, rfl, rfl, rfl, rfl, rfl, rfl, rfl, rfl, rfl, rfl, rfl, rfl, rfl, rfl, fun b k => ?_⟩
  rw [hostReset_buf, Mem.read_nil]

end Sys2Proof.Machine
end

section
/-! SUPPORT. Shell faults (60_exceptions R225, R226): what one leaves, and that BAD_LENGTH comes exactly from the length a command's row
of the table names. -/

namespace Sys2Proof.Machine

/-- Settles O50: a completed command has SF = 0, so the next state is a shell fault's. -/
theorem shellFaultChangesStatusOnly : Obligations.ShellFaultChangesStatusOnly := by
  intro i s t h hsf
  rcases exec_next_ends h with ⟨f, rfl⟩ | ⟨u, l, r, rfl, -, -⟩
  · exact ⟨rfl, statusWord_done .., State.faulted_lst .., State.faulted_bitstuff ..⟩
  · exact absurd (State.finish_sf ..) hsf

/-- A length above its capacity ends every command in BAD_LENGTH, whatever else holds: it is the first test (R226). -/
theorem exec_of_lengthTooBig {i : Instr} {s : State} (h : LengthTooBig s i) : exec i s = .next (s.faulted .badLength) := by
  cases i with
  | flen => exact exec_flen_of_lengthTooBig h
  | fid => exact fid_beginsWithPreamble.of_lengthTooBig h
  | odlen => exact odlen_beginsWithPreamble.of_lengthTooBig h
  | odget => exact odget_beginsWithPreamble.of_lengthTooBig h
  | fenc => exact exec_fenc_of_lengthTooBig h
  | nrzi => exact (exec_eq_withRaw (.inl rfl) s).elim fun k hk => hk.trans (withRaw_of_tooLong h)
  | unstf => exact if_pos h
  | brev => exact if_pos h
  | crcchk => exact if_pos h
  | ax25 => exact (exec_eq_withRaw (.inr rfl) s).elim fun k hk => hk.trans (withRaw_of_tooLong h)

/-- An outcome that is not BAD_LENGTH: no next state with SF = 2. -/
def NotBadLength (o : Out) : Prop := ∀ t, o = .next t → t.sf ≠ 2

theorem notBadLength_finish {s : State} {l : LinkStatus} {b : Bool} {r : Word} : NotBadLength (.next (s.finish l b r)) := by
  rintro _ ⟨⟩
  rw [State.finish_sf]
  decide

theorem notBadLength_badChar {s : State} : NotBadLength (shellFault s .badChar) := by
  rintro _ ⟨⟩
  exact (State.faulted_sf s .badChar).trans_ne (by decide)

section Rules
variable {s : State} {b : BufId} {a n : Nat}

theorem NotBadLength.ite {p : Prop} [Decidable p] {o o' : Out} (h : p → NotBadLength o) (h' : ¬ p → NotBadLength o') :
    NotBadLength (if p then o else o') := by
  split
  · exact h ‹_›
  · exact h' ‹_›

theorem NotBadLength.withBytes {k : List Byte → Out} (hk : ∀ bs, NotBadLength (k bs)) : NotBadLength (withBytes s b a n k) := by
  intro t h
  obtain ⟨bs, -, h⟩ := withBytes_next h
  exact hk bs t h

theorem NotBadLength.withByte {k : Byte → Out} (hk : ∀ v, NotBadLength (k v)) : NotBadLength (withByte s b a k) := by
  intro t h
  obtain ⟨v, -, h⟩ := withByte_next h
  exact hk v t h

theorem NotBadLength.withSec {C : Config} {k : List Byte → Nat → Out} (hk : ∀ sec d, NotBadLength (k sec d)) :
    NotBadLength (withSec C s k) :=
  .ite (fun _ => notBadLength_finish) fun _ => .withBytes fun _ => .withBytes fun _ => .withBytes fun _ =>
    .ite (fun _ => notBadLength_finish) fun _ => .ite (fun _ => notBadLength_finish) fun _ => hk _ _

theorem NotBadLength.withLengthByte {k : Byte → Out} (hk : ∀ d, NotBadLength (k d)) : NotBadLength (withLengthByte s k) :=
  .withByte fun _ => .ite (fun _ => notBadLength_finish) fun _ => hk _

theorem notBadLength_odgetBody {C : Config} : NotBadLength (odgetBody C s) :=
  .ite (fun _ => notBadLength_finish) fun _ => .ite
    (fun _ => .withSec fun _ _ => .ite (fun _ => notBadLength_finish) fun _ => notBadLength_finish)
    fun _ => .withLengthByte fun _ => .withBytes fun _ => notBadLength_finish

theorem notBadLength_fencBuild {C : Config} : NotBadLength (fencBuild C s) :=
  .withBytes fun _ => .ite
    (fun _ => .withBytes fun _ => .withBytes fun _ => .withBytes fun _ => notBadLength_finish)
    fun _ => .ite (fun _ => .withBytes fun _ => notBadLength_finish) fun _ => notBadLength_finish

theorem notBadLength_crcStage : NotBadLength (crcStage s) :=
  .ite (fun _ => notBadLength_finish) fun _ => .withBytes fun _ => .withByte fun _ => .withByte fun _ =>
    .ite (fun _ => notBadLength_finish) fun _ => notBadLength_finish

/-- Text within the capacity: its own fault is BAD_CHAR (R171). -/
theorem NotBadLength.withRaw {C : Config} {k : List Byte → Out} (hn : ¬ C.nibMax < s.niblen.toNat)
    (hk : ∀ raw, NotBadLength (k raw)) : NotBadLength (withRaw C s k) := by
  rcases withRaw_cases C s k with ⟨hlong, -⟩ | ⟨-, vs, -, -, h⟩ | ⟨-, -, h⟩ | ⟨-, i, -, -, h⟩
  · exact absurd hlong hn
  · exact h ▸ hk _
  · exact h ▸ notBadLength_badChar
  · rw [h]; exact fun _ => nofun

/-- The tests of the preamble after the length check end in status codes (R120). -/
theorem BeginsWithPreamble.notBadLength {i : Instr} {k : Out} (h : BeginsWithPreamble s i k) (hl : ¬ LengthTooBig s i)
    (hk : NotBadLength k) : NotBadLength (exec i s) := by
  obtain ⟨tooLong, hiff, hexec⟩ := h
  exact hexec ▸ .ite (fun hlong => absurd (hiff.2 hlong) hl) fun _ => .ite (fun _ => notBadLength_finish) fun _ =>
    .ite (fun _ => notBadLength_finish) fun _ => hk

end Rules

/-- When the lengths a command uses are within their capacities, its other ends are all something else than BAD_LENGTH. -/
theorem notBadLength_exec {i : Instr} {s : State} (h : ¬ LengthTooBig s i) : NotBadLength (exec i s) := by
  cases i with
  | flen =>
    exact .ite (fun hl => absurd (lengthTooBig_flen_iff.2 hl) h) fun _ =>
      .ite (fun _ => notBadLength_finish) fun _ => notBadLength_finish
  | fid => exact fid_beginsWithPreamble.notBadLength h (.withByte fun _ => notBadLength_finish)
  | odlen =>
    exact odlen_beginsWithPreamble.notBadLength h <| .ite (fun _ => notBadLength_finish) fun _ => .ite
      (fun _ => .withSec fun _ _ => notBadLength_finish) fun _ => .withLengthByte fun _ => notBadLength_finish
  | odget =>
    exact odget_beginsWithPreamble.notBadLength h <| .ite (fun _ => notBadLength_odgetBody) fun _ => .withBytes fun _ =>
      .withBytes fun _ => .ite (fun _ => notBadLength_finish) fun _ => notBadLength_odgetBody
  | fenc =>
    rw [exec_fenc_eq]
    exact .ite (fun hl => absurd (lengthTooBig_fenc_iff.2 hl) h) fun _ =>
      .ite (fun _ => notBadLength_finish) fun _ => .ite (fun _ => notBadLength_finish) fun _ =>
      .ite (fun _ => notBadLength_finish) fun _ => notBadLength_fencBuild
  | nrzi => exact .withRaw h fun _ => notBadLength_finish
  | unstf =>
    exact .ite (absurd · h) fun _ => .withBytes fun _ => .ite (fun _ => notBadLength_finish) fun _ => notBadLength_finish
  | brev => exact .ite (absurd · h) fun _ => .withBytes fun _ => notBadLength_finish
  | crcchk => exact .ite (absurd · h) fun _ => notBadLength_crcStage
  | ax25 =>
    change NotBadLength (ax25With Config.core s)
    exact .withRaw h fun _ => .withBytes fun _ => .withBytes fun _ =>
      .ite (fun _ => notBadLength_finish) fun _ => notBadLength_crcStage

/-- Settles O51: the first test of every command, and every end behind it. -/
theorem badLengthExactly : Obligations.BadLengthExactly := by
  intro i s
  refine ⟨fun h => ?_, fun t h => notBadLength_exec h t⟩
  rw [exec_of_lengthTooBig h, State.faulted_badLength_eq]

end Sys2Proof.Machine
end

section
/-! SUPPORT. RESULT after a Frame Codec command (60_exceptions R220, R232): a code, or the command's own kind of value. -/

namespace Sys2Proof.Machine

theorem errCode_mem (e : FcpError) : errCode e ∈ [0xFFFF#16, 0xFFFE#16, 0xFFFD#16, 0xFFFC#16] := by cases e <;> decide

theorem errCode_toInt_neg (e : FcpError) : (errCode e).toInt < 0 := by cases e <;> decide

/-- `r` is a value a Frame Codec command puts in RESULT: a length (R109, R110), a byte (R121, R124) or ERR_NONE (R125, R144). -/
def FcpValue (s : State) (r : Word) : Instr → Prop
  | .flen => s.c + 1 ≤ r.toNat ∧ r.toNat ≤ Config.core.csMax + Config.core.pwMax + 273
  | .fid | .odlen => r.toNat ≤ 255
  | .odget | .fenc => r = 0
  | _ => False

/-- No value reaches the sign bit of RESULT (R25). -/
theorem FcpValue.toInt_nonneg {s : State} {r : Word} {i : Instr} (h : FcpValue s r i) : 0 ≤ r.toInt := by
  have hle : r.toNat ≤ 337 := by
    cases i with
    | flen => exact h.2
    | fid | odlen => exact Nat.le_trans h (by decide)
    | odget | fenc => exact h ▸ by decide
    | nrzi | unstf | brev | crcchk | ax25 => exact h.elim
  rw [BitVec.toInt_eq_toNat_of_lt (by omega)]
  omega

/-- The length of R109 counts the callsign and the function id first. -/
theorem le_frameLength (c n p : Nat) (b : Bool) : c + 1 ≤ frameLength c n p b := by
  rw [frameLength, Nat.add_assoc (c + 1)]
  exact Nat.le_add_right ..

/-- A Frame Codec command without a shell fault leaves a code or a value in RESULT. -/
theorem fcpCommand_next_result {i : Instr} {s t : State} (hi : i ∈ [Instr.flen, .fid, .odlen, .odget, .fenc])
    (h : exec i s = .next t) (hok : t.status = 0x0001#16) : (∃ e, t.result = errCode e) ∨ FcpValue s t.result i := by
  have hfault : t ≠ s.faulted .badLength := by
    rintro rfl
    exact statusOfFault_ne_ok _ hok
  cases i with
  | flen =>
    rcases flenWith_cases Config.core s with ⟨-, hs⟩ | ⟨-, -, hs⟩ | ⟨hl, hv, hs⟩ <;> cases hs.symm.trans h
    · exact absurd rfl hfault
    · exact .inl ⟨_, State.finish_result ..⟩
    · have hbig : ¬ LengthTooBig s .flen := mt lengthTooBig_flen_iff.1 (Bool.eq_false_iff.1 hl)
      refine .inr ?_
      rw [State.finish_result, FcpValue, frameLength_toNat hbig (csValid_iff.1 hv)]
      exact ⟨le_frameLength .., frameLength_le hl hv⟩
  | fid =>
    rcases fidWith_next h with ht | ⟨-, -, rfl | rfl | ⟨-, -, f, -, rfl⟩⟩
    · exact absurd ht hfault
    · exact .inl ⟨_, State.finish_result ..⟩
    · exact .inl ⟨_, State.finish_result ..⟩
    · refine .inr ?_
      rw [State.finish_result, FcpValue, BitVec.toNat_setWidth_of_le (by decide)]
      exact Nat.le_of_lt_succ f.isLt
  | odlen =>
    rcases odlenWith_next h with ht | ⟨e, rfl⟩ | ⟨n, hn, rfl⟩
    · exact absurd ht hfault
    · exact .inl ⟨e, State.finish_result ..⟩
    · exact .inr ((Nat.mod_le n _).trans (Nat.le_of_lt_succ hn))
  | odget =>
    rcases odgetWith_next h with ht | ⟨e, rfl⟩ | ⟨payload, -, rfl⟩
    · exact absurd ht hfault
    · exact .inl ⟨e, State.finish_result ..⟩
    · exact .inr rfl
  | fenc =>
    rcases fencWith_next_withFrame h with ht | ⟨e, rfl⟩ | ⟨frame, k, -, rfl⟩
    · exact absurd ht hfault
    · exact .inl ⟨e, State.finish_result ..⟩
    · exact .inr rfl
  | nrzi | unstf | brev | crcchk | ax25 => exact absurd hi (by decide)

/-- Settles O27: the sign of RESULT tells a code from a value. -/
theorem fcpResultIsCodeOrValue : Obligations.FcpResultIsCodeOrValue := by
  intro i s t hi h hok
  rcases fcpCommand_next_result hi h hok with ⟨e, he⟩ | hv
  · rw [he]
    exact ⟨fun _ => errCode_mem e, fun hpos => absurd (errCode_toInt_neg e) (not_lt.2 hpos)⟩
  · refine ⟨fun hneg => absurd hneg (not_lt.2 hv.toInt_nonneg), fun _ => ⟨?_, ?_, ?_⟩⟩
    · rintro (rfl | rfl) <;> exact hv
    · rintro (rfl | rfl) <;> exact hv
    · rintro rfl
      exact hv

end Sys2Proof.Machine
end
